-- ==== Sys2Proof/Word.lean ====
section
/-! DEFINITION. The word types of the hardware (00_scope.md R7, R8): 32-bit registers and addresses, 8-bit bytes,
5-bit register fields. -/

namespace Sys2Proof

/-- A 32-bit unsigned container: a register value, an address, a pc (R8). -/
abbrev Word := BitVec 32

/-- An 8-bit byte, the unit of addressing (R34). -/
abbrev Byte := BitVec 8

/-- A register field: 5 bits name exactly the registers 0 to 31 (10_state.md R21). -/
abbrev Reg := BitVec 5

end Sys2Proof
end

