-- ==== Sys2Proof/Config.lean ====
section
/-! DEFINITION. What the hardware is configured with and what its surroundings answer.
Part 1: the address-space windows (20_memory.md R30, R61, R62).
Part 2: the transactions of CORE with the collaborators outside it (00_scope.md R6) and the shape of their answers
(60_exceptions.md R259).
Part 3: the text console's cells (60_exceptions.md R260).
Part 4: the free values: constants without a body, so that nothing is known of them. -/

namespace Sys2Proof

/-! ## Part 1: windows -/

/-- The three peripherals of the platform (20_memory.md R62). -/
inductive Device where
  | graphics
  | storage
  | keyboard
deriving DecidableEq, Repr

/-- A half-open address range `[base, base + len)` owned by one peripheral (R30, R61). -/
structure Window where
  base   : Nat
  len    : Nat
  device : Device
deriving DecidableEq, Repr

/-- The three window bases of 00_scope.md R7 and 20_memory.md R62. -/
def Config.graphicsBase : Nat := 0x10000000
def Config.storageBase  : Nat := 0x20000000
def Config.keyboardBase : Nat := 0x30000000

/-! ## Part 2: what crosses the interfaces -/

/-- A key code: any 32-bit value but the sentinel `0xFFFFFFFF` (60_exceptions.md R248; its width and its codes are
not in the source, N7). -/
abbrev Key := Fin 0xFFFFFFFF

/-- A file handle: a value in 0 to `0x7FFFFFFF` (R253). -/
abbrev Handle := BitVec 31

/-- The 512 bytes of one sector (R250). -/
abbrev Sector := Vector Byte 512

/-- What the keys consumed by one poll of a pending `getline` amount to (R252, R258): how many accumulated characters
they take back, which characters they add after that, which bytes they echo, and whether Enter ended the line.
Which key does which of these is not in the source (N7): log 7. -/
structure LineInput where
  erased : Nat
  typed  : List Byte
  echo   : List Byte
  enter  : Bool
deriving DecidableEq, Repr, Inhabited

/-- The record of a suspended `getline` (10_state.md R35, 60_exceptions.md R258): buffer address, maxlen and the
characters accumulated so far. -/
structure PendingLine where
  buffer : Word
  maxlen : Word
  chars  : List Byte
deriving DecidableEq, Repr

/-- One transaction on the peripheral interface or the environment-call interface (00_scope.md R6), with the answer
it got: `devRead8` and `devWrite8` (20_memory.md R56, R60), `consolePut` (R266) and the oracle's functions (R259). -/
inductive EnvEvent where
  | devRead     (addr : Word) (value : Byte)
  | devWrite    (addr : Word) (value : Byte)
  | consolePut  (value : Byte)
  | kbdPop      (answer : Option Key)
  | line        (answer : LineInput)
  | readSector  (sector : Word) (answer : Option Sector)
  | writeSector (sector : Word) (data : List Byte) (ok : Bool)
  | fopen       (name : List Byte) (mode : Word) (answer : Option Handle)
  | fread       (handle max : Word) (answer : Option (List Byte))
  | fwrite      (handle : Word) (data : List Byte) (answer : Option Word)
  | fclose      (handle : Word) (ok : Bool)
deriving DecidableEq, Repr

/-- Answers the surroundings are already set to give, one queue for each function of the oracle, oldest first (log 5).
An empty queue leaves the answer to the free value of Part 4. -/
structure EnvInputs where
  devReads     : List Byte
  keys         : List (Option Key)
  lines        : List LineInput
  sectorReads  : List (Option Sector)
  sectorWrites : List Bool
  fopens       : List (Option Handle)
  freads       : List (Option (List Byte))
  fwrites      : List (Option Word)
  fcloses      : List Bool
deriving DecidableEq, Repr

/-- No answer is fixed beforehand. -/
def EnvInputs.none : EnvInputs :=
  { devReads := [], keys := [], lines := [], sectorReads := [], sectorWrites := [], fopens := [], freads := [],
    fwrites := [], fcloses := [] }

/-! ## Part 3: the text console -/

/-- One cell of the text grid: "2 bytes/cell: char, attribute" (R260). -/
structure TextCell where
  char : Byte
  attr : Byte
deriving DecidableEq, Repr, Inhabited

/-- The logical 80x25 grid and its cursor (R260); `cells[r][c]` is the cell of column `c`, row `r`. -/
structure TextConsole where
  col   : Fin 80
  row   : Fin 25
  cells : Vector (Vector TextCell 80) 25
deriving DecidableEq, Repr, Inhabited

/-! ## Part 4: free values
Each is applied to the transactions so far (`State.events`), which is the plain-data counter of this model: every
transaction makes a new history, so two answers are never forced to be equal. -/

namespace Config

/-- What a read of a peripheral address returns (20_memory.md R56, U5). -/
opaque devRead8 : List EnvEvent → Word → Byte

/-- The key the keyboard collaborator pops, or none (R248). -/
opaque kbdPop : List EnvEvent → Option Key

/-- What the keys available to a pending `getline` amount to (R252, R258, N7). -/
opaque lineInput : List EnvEvent → PendingLine → LineInput

/-- A sector of the primary block device, or failure (R250). -/
opaque readSector : List EnvEvent → Word → Option Sector

/-- Whether the primary block device takes a sector (R251). -/
opaque writeSector : List EnvEvent → Word → List Byte → Bool

/-- The handle the file system opens, or failure (R253). -/
opaque fopen : List EnvEvent → List Byte → Word → Option Handle

/-- The bytes the file system gives, or failure (R254). -/
opaque fread : List EnvEvent → Word → Word → Option (List Byte)

/-- The count the file system takes, or failure (R255). -/
opaque fwrite : List EnvEvent → Word → List Byte → Option Word

/-- Whether the file system closes a handle (R256). -/
opaque fclose : List EnvEvent → Word → Bool

/-- The console's "current attribute" (R261; not defined by the source). -/
opaque textAttribute : List EnvEvent → Byte

/-- The blank that backspace leaves (R263; N7). -/
opaque blankCell : List EnvEvent → TextCell

/-- Whether the cell that backspace vacates is the one the cursor leaves (else the one it lands on; R263, N7). -/
opaque vacatedIsLeft : List EnvEvent → Bool

/-- Whether a backspace at column 0, which does not move the cursor, blanks the cursor's cell (R263, N7). -/
opaque blanksAtColumnZero : List EnvEvent → Bool

/-- A cleared row after a scroll (R265). -/
opaque clearedRow : List EnvEvent → Vector TextCell 80

/-- Whether a tab from columns 72 to 79 wraps to the next row (R264, N7). -/
opaque tabWraps : List EnvEvent → Bool

/-- The column such a tab leaves the cursor in when it does not wrap (R264, N7). -/
opaque tabColumn : List EnvEvent → Fin 80

/-- The console after an access to the graphics window outside the text VRAM, where its registers are (20_memory.md R62;
register offsets and effects are not in the source, N5). -/
opaque consoleAfterAccess : List EnvEvent → TextConsole

end Config

end Sys2Proof
end

