-- ==== Sys2Proof/Machine/State.lean ====
section
/-! DEFINITION. The machine's state as plain data, why a step can stop, and the state after reset
(10_state.md, 70_reset_and_hazards.md). -/

namespace Sys2Proof.Machine

/-! ## Why a step stops -/

/-- Model faults: the cases the spec leaves without a behaviour (00_scope.md R9, `undefined(reason)`). None is an
architectural trap and none is a final state. -/
inductive Fault where
  /-- A byte access that routes to RAM at an offset not below the RAM size (20_memory.md R55, U1, U3). Raised by the
  bus, for a fetch, a load, a store or a syscall buffer. Safe: the machine's behaviour there is undefined. -/
  | ramOutOfRange
  /-- A fetch with `pc[1:0] != 0` (10_state.md R26, U2). Raised by the execution cycle. Safe. -/
  | misalignedFetch
  /-- A stuck state: the loop of a puts or fopen that no zero byte and no out-of-range byte ever ends (60_exceptions.md
  R249, R253), so that the step, which runs "to completion before returning" (40_execution_cycle.md R130), never returns
  and there is no next state (log 9). Raised by the dispatcher, for no string that ends. Safe. -/
  | stepNeverReturns
deriving DecidableEq, Repr

/-- What the model gives no meaning to. -/
inductive Refusal where
  /-- An instruction without a meaning, by its mnemonic. Raised by `exec` only. Safe. -/
  | notModelled (mnemonic : String)
  /-- `getline` with maxlen 0, to which the spec gives no meaning (60_exceptions.md R252, U6). Raised by ECALL and by
  the resumption of such a `getline`. Safe. -/
  | getlineZeroMaxlen
  /-- A host load whose bytes do not fit below the RAM size (20_memory.md R80, U8). Raised by `loadProgram`, never by a
  step. Safe. -/
  | loadDoesNotFit
deriving DecidableEq, Repr

/-- Why an operation inside a step does not go on. -/
inductive Stop where
  | fault   (f : Fault)
  | refused (r : Refusal)
deriving DecidableEq, Repr

/-! ## State -/

/-- RAM bytes by offset, in one canonical form: offsets strictly rising, no byte equal to what an unlisted offset
reads as (Memory.wf). -/
abbrev Memory := List Host.Cell

/-- The engine's state (10_state.md R27). The record of the blocked syscall exists only in Suspended (R35). -/
inductive RunState where
  | running
  | halted
  | suspended (pending : PendingLine)
deriving DecidableEq, Repr

/-- Why the engine halted (10_state.md R28). -/
inductive HaltCause where
  | none
  | exit
  | decodeError
  | breakpoint
deriving DecidableEq, Repr

/-- Everything the spec gives the machine (10_state.md R20), the text console that putchar, puts and getline share
with the graphics collaborator (60_exceptions.md R260), and the model's two fields for the environment. -/
structure State where
  /-- General registers x0 to x31 (R21). Entry 0 is never written; reads of x0 give 0 (getReg). -/
  regs            : Vector Word 32
  /-- Program counter (R24). -/
  pc              : Word
  /-- Running, Halted or Suspended (R27). -/
  runState        : RunState
  /-- The halted flag of ExecutionStatus (R28). -/
  halted          : Bool
  /-- The exit code of ExecutionStatus (R28). -/
  exitCode        : Word
  /-- The halt cause (R28). -/
  haltCause       : HaltCause
  /-- `MEM_SIZE` (R29, 00_scope.md R7): set at construction, never changed after it. -/
  ramSize         : Nat
  /-- RAM contents (R29). -/
  ram             : Memory
  /-- The address-space map `WINDOWS` (R30): set at construction, never changed after it. -/
  windows         : List Window
  /-- `DECODE_ERROR_EXIT_CODE` (00_scope.md R7): set at construction, never changed after it. -/
  decodeErrorCode : Word
  /-- Every byte passed to `consolePut`, oldest first (60_exceptions.md R266). -/
  consoleOutput   : List Byte
  /-- The text console (60_exceptions.md R260). -/
  console         : TextConsole
  /-- The model's own: answers the surroundings are set to give (log 5). -/
  inputs          : EnvInputs
  /-- The model's own: the transactions with the surroundings so far, oldest first (log 6). -/
  events          : List EnvEvent
deriving DecidableEq, Repr

/-- The suspended-syscall record, absent but in Suspended (R35). -/
def State.pending (s : State) : Option PendingLine :=
  match s.runState with
  | .suspended p => some p
  | .running => none
  | .halted => none

/-! ## Construction and reset -/

/-- The three windows at the bases of 20_memory.md R62, in ascending order (R53), with the lengths given. -/
def platformWindows (graphicsLen storageLen keyboardLen : Nat) : List Window :=
  [ { base := Config.graphicsBase, len := graphicsLen, device := .graphics }
  , { base := Config.storageBase, len := storageLen, device := .storage }
  , { base := Config.keyboardBase, len := keyboardLen, device := .keyboard } ]

/-- `construct(memSize)` (70_reset_and_hazards.md R300, R308) with the open parameters of 00_scope.md R7: the reset
values of 10_state.md R38. -/
def State.construct (memSize graphicsLen storageLen keyboardLen : Nat) (decodeErrorCode : Word) : State :=
  { regs := Vector.replicate 32 0#32
    pc := 0#32
    runState := .running
    halted := false
    exitCode := 0#32
    haltCause := .none
    ramSize := memSize
    ram := []
    windows := platformWindows graphicsLen storageLen keyboardLen
    decodeErrorCode := decodeErrorCode
    consoleOutput := []
    console := { col := 0, row := 0, cells := Vector.replicate 25 (Vector.replicate 80 { char := 0#8, attr := 0#8 }) }
    inputs := EnvInputs.none
    events := [] }

/-- The machine right after reset. The parameters, which the spec leaves open, have the values of log 1, 2 and 3
(DESIGN CHOICE). -/
def State.reset : State := State.construct 0x10000 0x100000 0x20000 0x1000 0xFFFFFFFF#32

end Sys2Proof.Machine
end

