-- ==== Sys2Proof/Machine/Flags.lean ====
section
/-! DEFINITION. The hardware has no flags and no condition codes (10_state.md R31). What other machines keep in flags,
this one computes where it is used: the comparisons that SLT, SLTU and their immediate forms write as 0 or 1, and that
the branches test directly (41_alu_register.md R144, R145, 45_branches.md R200). -/

namespace Sys2Proof.Machine

/-- `a <s b`: the two's-complement readings compared (00_scope.md R8). -/
def lessSigned (a b : Word) : Bool := a.slt b

/-- `a <u b`: the unsigned readings compared (00_scope.md R8). -/
def lessUnsigned (a b : Word) : Bool := a.ult b

/-- A comparison's value in a register: 1 or 0 (R144, R145). -/
def truthValue (c : Bool) : Word := if c then 1#32 else 0#32

end Sys2Proof.Machine
end

