-- ==== Sys2Proof/Syntax.lean ====
section
/-! DEFINITION. The instructions: one constructor for each of the 40 rows of spec/opcode_table.json
(30_encoding.md R104), with the operands of 30_encoding.md R118.
Immediates stand in the width the format gives them (R96 to R101): 12 bits for I and S, 13 bits with bit 0 clear for
B, 20 bits (bits 31..12 of the value) for U, 21 bits with bit 0 clear for J, 5 bits for a shift amount. -/

namespace Sys2Proof

inductive Instr where
  -- register-register ALU (41_alu_register.md)
  | add   (rd rs1 rs2 : Reg)
  | sub   (rd rs1 rs2 : Reg)
  | sll   (rd rs1 rs2 : Reg)
  | slt   (rd rs1 rs2 : Reg)
  | sltu  (rd rs1 rs2 : Reg)
  | xor   (rd rs1 rs2 : Reg)
  | srl   (rd rs1 rs2 : Reg)
  | sra   (rd rs1 rs2 : Reg)
  | or    (rd rs1 rs2 : Reg)
  | and   (rd rs1 rs2 : Reg)
  -- ALU-immediate (42_alu_immediate.md)
  | addi  (rd rs1 : Reg) (imm : BitVec 12)
  | slti  (rd rs1 : Reg) (imm : BitVec 12)
  | sltiu (rd rs1 : Reg) (imm : BitVec 12)
  | xori  (rd rs1 : Reg) (imm : BitVec 12)
  | ori   (rd rs1 : Reg) (imm : BitVec 12)
  | andi  (rd rs1 : Reg) (imm : BitVec 12)
  | slli  (rd rs1 : Reg) (shamt : BitVec 5)
  | srli  (rd rs1 : Reg) (shamt : BitVec 5)
  | srai  (rd rs1 : Reg) (shamt : BitVec 5)
  -- loads (43_loads.md): op rd, imm(rs1)
  | lb    (rd rs1 : Reg) (imm : BitVec 12)
  | lh    (rd rs1 : Reg) (imm : BitVec 12)
  | lw    (rd rs1 : Reg) (imm : BitVec 12)
  | lbu   (rd rs1 : Reg) (imm : BitVec 12)
  | lhu   (rd rs1 : Reg) (imm : BitVec 12)
  -- stores (44_stores.md): op rs2, imm(rs1)
  | sb    (rs2 rs1 : Reg) (imm : BitVec 12)
  | sh    (rs2 rs1 : Reg) (imm : BitVec 12)
  | sw    (rs2 rs1 : Reg) (imm : BitVec 12)
  -- branches (45_branches.md)
  | beq   (rs1 rs2 : Reg) (offset : BitVec 13)
  | bne   (rs1 rs2 : Reg) (offset : BitVec 13)
  | blt   (rs1 rs2 : Reg) (offset : BitVec 13)
  | bge   (rs1 rs2 : Reg) (offset : BitVec 13)
  | bltu  (rs1 rs2 : Reg) (offset : BitVec 13)
  | bgeu  (rs1 rs2 : Reg) (offset : BitVec 13)
  -- upper immediate (46_upper_immediate.md)
  | lui   (rd : Reg) (imm20 : BitVec 20)
  | auipc (rd : Reg) (imm20 : BitVec 20)
  -- jumps (47_jumps.md)
  | jal   (rd : Reg) (offset : BitVec 21)
  | jalr  (rd rs1 : Reg) (imm : BitVec 12)
  -- system and fence (48_system_fence.md): no operand that decode examines
  | ecall
  | ebreak
  | fence
deriving DecidableEq, Repr

end Sys2Proof
end

