-- ==== Sys2Proof/WellFormed.lean ====
section
/-! DEFINITION. Which terms of `Instr` are instructions of the hardware. Register numbers, 12-bit and 20-bit immediates
and shift amounts are right by their width; a branch or JAL offset is "always even (bit 0 forced to 0)"
(30_encoding.md R98, R100), so a term with an odd offset is no instruction. -/

namespace Sys2Proof

/-- The offset of a B or J format is even (R98, R100). -/
abbrev evenOffset {n : Nat} (offset : BitVec n) : Bool := offset.getLsbD 0 == false

/-- The term stands for an instruction that has an encoding. -/
def Instr.wellFormed : Instr → Bool
  | .add _ _ _ => true
  | .sub _ _ _ => true
  | .sll _ _ _ => true
  | .slt _ _ _ => true
  | .sltu _ _ _ => true
  | .xor _ _ _ => true
  | .srl _ _ _ => true
  | .sra _ _ _ => true
  | .or _ _ _ => true
  | .and _ _ _ => true
  | .addi _ _ _ => true
  | .slti _ _ _ => true
  | .sltiu _ _ _ => true
  | .xori _ _ _ => true
  | .ori _ _ _ => true
  | .andi _ _ _ => true
  | .slli _ _ _ => true
  | .srli _ _ _ => true
  | .srai _ _ _ => true
  | .lb _ _ _ => true
  | .lh _ _ _ => true
  | .lw _ _ _ => true
  | .lbu _ _ _ => true
  | .lhu _ _ _ => true
  | .sb _ _ _ => true
  | .sh _ _ _ => true
  | .sw _ _ _ => true
  | .beq _ _ offset => evenOffset offset
  | .bne _ _ offset => evenOffset offset
  | .blt _ _ offset => evenOffset offset
  | .bge _ _ offset => evenOffset offset
  | .bltu _ _ offset => evenOffset offset
  | .bgeu _ _ offset => evenOffset offset
  | .lui _ _ => true
  | .auipc _ _ => true
  | .jal _ offset => evenOffset offset
  | .jalr _ _ _ => true
  | .ecall => true
  | .ebreak => true
  | .fence => true

end Sys2Proof
end

