-- ==== Sys2Proof/Decode.lean ====
section
/-! DEFINITION. The decoder (30_encoding.md R91 to R114), total on 32-bit words and on byte lists, rejecting by name;
after it the encoder, written from the same tables; and the opcode table of R104 as data. -/

namespace Sys2Proof

/-! ## Fields (R91, R92) -/

def opcodeField (w : Word) : BitVec 7 := w.extractLsb' 0 7
def rdField     (w : Word) : Reg := w.extractLsb' 7 5
def funct3Field (w : Word) : BitVec 3 := w.extractLsb' 12 3
def rs1Field    (w : Word) : Reg := w.extractLsb' 15 5
def rs2Field    (w : Word) : Reg := w.extractLsb' 20 5
def funct7Field (w : Word) : BitVec 7 := w.extractLsb' 25 7

/-- `inst[31:20]` (R96). -/
def immIField (w : Word) : BitVec 12 := w.extractLsb' 20 12

/-- The shift amount `inst[24:20]` (R101). -/
def shamtField (w : Word) : BitVec 5 := w.extractLsb' 20 5

/-- The field of the S immediate, inst[31:25] above inst[11:7] (R97). -/
def immSField (w : Word) : BitVec 12 := w.extractLsb' 25 7 ++ w.extractLsb' 7 5

/-- The 13 bits of the B immediate: inst[31], inst[7], inst[30:25], inst[11:8], 0 (R98). -/
def immBField (w : Word) : BitVec 13 :=
  w.extractLsb' 31 1 ++ w.extractLsb' 7 1 ++ w.extractLsb' 25 6 ++ w.extractLsb' 8 4 ++ 0#1

/-- `inst[31:12]` (R99). -/
def immUField (w : Word) : BitVec 20 := w.extractLsb' 12 20

/-- The 21 bits of the J immediate: inst[31], inst[19:12], inst[20], inst[30:21], 0 (R100). -/
def immJField (w : Word) : BitVec 21 :=
  w.extractLsb' 31 1 ++ w.extractLsb' 12 8 ++ w.extractLsb' 20 1 ++ w.extractLsb' 21 10 ++ 0#1

/-! ## Decoding -/

/-- Why a word or a byte list is no instruction. Every one of these is the same fatal decode error to the engine (R116). -/
inductive Reject where
  /-- Fewer than the four bytes of an instruction (R90). -/
  | tooFewBytes
  /-- `inst[6:0]` is none of the 11 major opcodes (R114). -/
  | unknownOpcode
  /-- The opcode has no such funct3 (R108 to R113). -/
  | unknownFunct3
  /-- The opcode and funct3 have no such funct7 (R106, R107). -/
  | unknownFunct7
  /-- SYSTEM with funct3 000 and `inst[31:20]` neither 0 nor 1 (R112). -/
  | unknownSystem
deriving DecidableEq, Repr

/-- OP, opcode 0110011: funct7 0000000 with every funct3, 0100000 with 000 and 101 only (R106). -/
def decodeOp (w : Word) : Except Reject Instr :=
  match funct7Field w, funct3Field w with
  | 0b0000000#7, 0b000#3 => .ok (.add (rdField w) (rs1Field w) (rs2Field w))
  | 0b0000000#7, 0b001#3 => .ok (.sll (rdField w) (rs1Field w) (rs2Field w))
  | 0b0000000#7, 0b010#3 => .ok (.slt (rdField w) (rs1Field w) (rs2Field w))
  | 0b0000000#7, 0b011#3 => .ok (.sltu (rdField w) (rs1Field w) (rs2Field w))
  | 0b0000000#7, 0b100#3 => .ok (.xor (rdField w) (rs1Field w) (rs2Field w))
  | 0b0000000#7, 0b101#3 => .ok (.srl (rdField w) (rs1Field w) (rs2Field w))
  | 0b0000000#7, 0b110#3 => .ok (.or (rdField w) (rs1Field w) (rs2Field w))
  | 0b0000000#7, 0b111#3 => .ok (.and (rdField w) (rs1Field w) (rs2Field w))
  | 0b0100000#7, 0b000#3 => .ok (.sub (rdField w) (rs1Field w) (rs2Field w))
  | 0b0100000#7, 0b101#3 => .ok (.sra (rdField w) (rs1Field w) (rs2Field w))
  | _, _ => .error .unknownFunct7

/-- SLLI, OP-IMM with funct3 001: `inst[31:25]` must be 0000000 (R107). -/
def decodeShiftLeft (w : Word) : Except Reject Instr :=
  match funct7Field w with
  | 0b0000000#7 => .ok (.slli (rdField w) (rs1Field w) (shamtField w))
  | _ => .error .unknownFunct7

/-- SRLI and SRAI, OP-IMM with funct3 101: `inst[31:25]` must be 0000000 or 0100000 (R107). -/
def decodeShiftRight (w : Word) : Except Reject Instr :=
  match funct7Field w with
  | 0b0000000#7 => .ok (.srli (rdField w) (rs1Field w) (shamtField w))
  | 0b0100000#7 => .ok (.srai (rdField w) (rs1Field w) (shamtField w))
  | _ => .error .unknownFunct7

/-- OP-IMM, opcode 0010011 (R107). -/
def decodeOpImm (w : Word) : Except Reject Instr :=
  match funct3Field w with
  | 0b000#3 => .ok (.addi (rdField w) (rs1Field w) (immIField w))
  | 0b010#3 => .ok (.slti (rdField w) (rs1Field w) (immIField w))
  | 0b011#3 => .ok (.sltiu (rdField w) (rs1Field w) (immIField w))
  | 0b100#3 => .ok (.xori (rdField w) (rs1Field w) (immIField w))
  | 0b110#3 => .ok (.ori (rdField w) (rs1Field w) (immIField w))
  | 0b111#3 => .ok (.andi (rdField w) (rs1Field w) (immIField w))
  | 0b001#3 => decodeShiftLeft w
  | 0b101#3 => decodeShiftRight w
  | _ => .error .unknownFunct3

/-- LOAD, opcode 0000011 (R108). -/
def decodeLoad (w : Word) : Except Reject Instr :=
  match funct3Field w with
  | 0b000#3 => .ok (.lb (rdField w) (rs1Field w) (immIField w))
  | 0b001#3 => .ok (.lh (rdField w) (rs1Field w) (immIField w))
  | 0b010#3 => .ok (.lw (rdField w) (rs1Field w) (immIField w))
  | 0b100#3 => .ok (.lbu (rdField w) (rs1Field w) (immIField w))
  | 0b101#3 => .ok (.lhu (rdField w) (rs1Field w) (immIField w))
  | _ => .error .unknownFunct3

/-- STORE, opcode 0100011 (R109). -/
def decodeStore (w : Word) : Except Reject Instr :=
  match funct3Field w with
  | 0b000#3 => .ok (.sb (rs2Field w) (rs1Field w) (immSField w))
  | 0b001#3 => .ok (.sh (rs2Field w) (rs1Field w) (immSField w))
  | 0b010#3 => .ok (.sw (rs2Field w) (rs1Field w) (immSField w))
  | _ => .error .unknownFunct3

/-- BRANCH, opcode 1100011 (R110). -/
def decodeBranch (w : Word) : Except Reject Instr :=
  match funct3Field w with
  | 0b000#3 => .ok (.beq (rs1Field w) (rs2Field w) (immBField w))
  | 0b001#3 => .ok (.bne (rs1Field w) (rs2Field w) (immBField w))
  | 0b100#3 => .ok (.blt (rs1Field w) (rs2Field w) (immBField w))
  | 0b101#3 => .ok (.bge (rs1Field w) (rs2Field w) (immBField w))
  | 0b110#3 => .ok (.bltu (rs1Field w) (rs2Field w) (immBField w))
  | 0b111#3 => .ok (.bgeu (rs1Field w) (rs2Field w) (immBField w))
  | _ => .error .unknownFunct3

/-- JALR, opcode 1100111: funct3 must be 000 (R111). -/
def decodeJalr (w : Word) : Except Reject Instr :=
  match funct3Field w with
  | 0b000#3 => .ok (.jalr (rdField w) (rs1Field w) (immIField w))
  | _ => .error .unknownFunct3

/-- MISC-MEM, opcode 0001111: funct3 000 is FENCE whatever the other bits are (R113). -/
def decodeMiscMem (w : Word) : Except Reject Instr :=
  match funct3Field w with
  | 0b000#3 => .ok .fence
  | _ => .error .unknownFunct3

/-- SYSTEM, opcode 1110011: funct3 000 and `inst[31:20]` 0 or 1; rd and rs1 are not examined (R112). -/
def decodeSystem (w : Word) : Except Reject Instr :=
  match funct3Field w, immIField w with
  | 0b000#3, 0x000#12 => .ok .ecall
  | 0b000#3, 0x001#12 => .ok .ebreak
  | _, _ => .error .unknownSystem

/-- Decode one instruction word (R93, R103, R105): a function of the word alone (R102). -/
def decode (w : Word) : Except Reject Instr :=
  match opcodeField w with
  | 0b0000011#7 => decodeLoad w
  | 0b0001111#7 => decodeMiscMem w
  | 0b0010011#7 => decodeOpImm w
  | 0b0010111#7 => .ok (.auipc (rdField w) (immUField w))
  | 0b0100011#7 => decodeStore w
  | 0b0110011#7 => decodeOp w
  | 0b0110111#7 => .ok (.lui (rdField w) (immUField w))
  | 0b1100011#7 => decodeBranch w
  | 0b1100111#7 => decodeJalr w
  | 0b1101111#7 => .ok (.jal (rdField w) (immJField w))
  | 0b1110011#7 => decodeSystem w
  | _ => .error .unknownOpcode

/-- The little-endian value of a byte list: the first byte is the least significant (20_memory.md R57, R63). -/
def littleEndian : List Byte → Nat
  | [] => 0
  | b :: bs => b.toNat + 256 * littleEndian bs

/-- The `n` low bytes of a number, least significant first (20_memory.md R58). -/
def bytesOf : Nat → Nat → List Byte
  | 0, _ => []
  | n + 1, v => BitVec.ofNat 8 v :: bytesOf n (v / 256)

/-- Decode the instruction at the head of a byte list and give the rest: four bytes, little-endian (R90). -/
def decodeBytes : List Byte → Except Reject (Instr × List Byte)
  | b0 :: b1 :: b2 :: b3 :: rest =>
    match decode (BitVec.ofNat 32 (littleEndian [b0, b1, b2, b3])) with
    | .ok i => .ok (i, rest)
    | .error r => .error r
  | _ => .error .tooFewBytes

/-- The instruction the decoder reads from the word `w` of `nbits` bits, the bits above them 0, laid out as the
hardware stores it. -/
def decodeTableWord (nbits w : Nat) : Option Instr :=
  match decodeBytes (bytesOf 4 (w % 2 ^ nbits)) with
  | .ok (i, _) => some i
  | .error _ => none

/-! ## Encoding, from the same tables (R92, R104) -/

/-- The R format, and the I format of the immediate shifts with the shift amount in the place of rs2 (R92). -/
def packR (funct7 : BitVec 7) (rs2 rs1 : BitVec 5) (funct3 : BitVec 3) (rd : BitVec 5) (opcode : BitVec 7) : Word :=
  funct7 ++ rs2 ++ rs1 ++ funct3 ++ rd ++ opcode

/-- The I format (R92). -/
def packI (imm : BitVec 12) (rs1 : BitVec 5) (funct3 : BitVec 3) (rd : BitVec 5) (opcode : BitVec 7) : Word :=
  imm ++ rs1 ++ funct3 ++ rd ++ opcode

/-- The S format: imm[11:5] and imm[4:0] (R92). -/
def packS (imm : BitVec 12) (rs2 rs1 : BitVec 5) (funct3 : BitVec 3) (opcode : BitVec 7) : Word :=
  imm.extractLsb' 5 7 ++ rs2 ++ rs1 ++ funct3 ++ imm.extractLsb' 0 5 ++ opcode

/-- The B format: imm[12], imm[10:5] and imm[4:1], imm[11] (R92). -/
def packB (offset : BitVec 13) (rs2 rs1 : BitVec 5) (funct3 : BitVec 3) (opcode : BitVec 7) : Word :=
  offset.extractLsb' 12 1 ++ offset.extractLsb' 5 6 ++ rs2 ++ rs1 ++ funct3 ++ offset.extractLsb' 1 4
    ++ offset.extractLsb' 11 1 ++ opcode

/-- The U format (R92). -/
def packU (imm20 : BitVec 20) (rd : BitVec 5) (opcode : BitVec 7) : Word :=
  imm20 ++ rd ++ opcode

/-- The J format: imm[20], imm[10:1], imm[11], imm[19:12] (R92). -/
def packJ (offset : BitVec 21) (rd : BitVec 5) (opcode : BitVec 7) : Word :=
  offset.extractLsb' 20 1 ++ offset.extractLsb' 1 10 ++ offset.extractLsb' 11 1 ++ offset.extractLsb' 12 8
    ++ rd ++ opcode

/-- The word of a well-formed instruction (R104). Bits that decode does not examine are written as 0 (log 30). -/
def encode : Instr → Word
  | .add rd rs1 rs2 => packR 0b0000000 rs2 rs1 0b000 rd 0b0110011
  | .sub rd rs1 rs2 => packR 0b0100000 rs2 rs1 0b000 rd 0b0110011
  | .sll rd rs1 rs2 => packR 0b0000000 rs2 rs1 0b001 rd 0b0110011
  | .slt rd rs1 rs2 => packR 0b0000000 rs2 rs1 0b010 rd 0b0110011
  | .sltu rd rs1 rs2 => packR 0b0000000 rs2 rs1 0b011 rd 0b0110011
  | .xor rd rs1 rs2 => packR 0b0000000 rs2 rs1 0b100 rd 0b0110011
  | .srl rd rs1 rs2 => packR 0b0000000 rs2 rs1 0b101 rd 0b0110011
  | .sra rd rs1 rs2 => packR 0b0100000 rs2 rs1 0b101 rd 0b0110011
  | .or rd rs1 rs2 => packR 0b0000000 rs2 rs1 0b110 rd 0b0110011
  | .and rd rs1 rs2 => packR 0b0000000 rs2 rs1 0b111 rd 0b0110011
  | .addi rd rs1 imm => packI imm rs1 0b000 rd 0b0010011
  | .slti rd rs1 imm => packI imm rs1 0b010 rd 0b0010011
  | .sltiu rd rs1 imm => packI imm rs1 0b011 rd 0b0010011
  | .xori rd rs1 imm => packI imm rs1 0b100 rd 0b0010011
  | .ori rd rs1 imm => packI imm rs1 0b110 rd 0b0010011
  | .andi rd rs1 imm => packI imm rs1 0b111 rd 0b0010011
  | .slli rd rs1 shamt => packR 0b0000000 shamt rs1 0b001 rd 0b0010011
  | .srli rd rs1 shamt => packR 0b0000000 shamt rs1 0b101 rd 0b0010011
  | .srai rd rs1 shamt => packR 0b0100000 shamt rs1 0b101 rd 0b0010011
  | .lb rd rs1 imm => packI imm rs1 0b000 rd 0b0000011
  | .lh rd rs1 imm => packI imm rs1 0b001 rd 0b0000011
  | .lw rd rs1 imm => packI imm rs1 0b010 rd 0b0000011
  | .lbu rd rs1 imm => packI imm rs1 0b100 rd 0b0000011
  | .lhu rd rs1 imm => packI imm rs1 0b101 rd 0b0000011
  | .sb rs2 rs1 imm => packS imm rs2 rs1 0b000 0b0100011
  | .sh rs2 rs1 imm => packS imm rs2 rs1 0b001 0b0100011
  | .sw rs2 rs1 imm => packS imm rs2 rs1 0b010 0b0100011
  | .beq rs1 rs2 offset => packB offset rs2 rs1 0b000 0b1100011
  | .bne rs1 rs2 offset => packB offset rs2 rs1 0b001 0b1100011
  | .blt rs1 rs2 offset => packB offset rs2 rs1 0b100 0b1100011
  | .bge rs1 rs2 offset => packB offset rs2 rs1 0b101 0b1100011
  | .bltu rs1 rs2 offset => packB offset rs2 rs1 0b110 0b1100011
  | .bgeu rs1 rs2 offset => packB offset rs2 rs1 0b111 0b1100011
  | .lui rd imm20 => packU imm20 rd 0b0110111
  | .auipc rd imm20 => packU imm20 rd 0b0010111
  | .jal rd offset => packJ offset rd 0b1101111
  | .jalr rd rs1 imm => packI imm rs1 0b000 rd 0b1100111
  | .ecall => packI 0x000 0 0b000 0 0b1110011
  | .ebreak => packI 0x001 0 0b000 0 0b1110011
  | .fence => packI 0x000 0 0b000 0 0b0001111

/-! ## The opcode table as data (R104)
The decoder above does not use it: it is what a reader, and the statements about decoding, hold the decoder against. -/

/-- One row of R104: a word `w` is this instruction exactly when `w &&& mask = bits`. -/
structure OpcodeRow where
  mnemonic : String
  bits     : Word
  mask     : Word
deriving DecidableEq, Repr

def upperAndJumpRows : List OpcodeRow :=
  [ ⟨"LUI", 0x00000037, 0x0000007F⟩
  , ⟨"AUIPC", 0x00000017, 0x0000007F⟩
  , ⟨"JAL", 0x0000006F, 0x0000007F⟩
  , ⟨"JALR", 0x00000067, 0x0000707F⟩ ]

def branchRows : List OpcodeRow :=
  [ ⟨"BEQ", 0x00000063, 0x0000707F⟩
  , ⟨"BNE", 0x00001063, 0x0000707F⟩
  , ⟨"BLT", 0x00004063, 0x0000707F⟩
  , ⟨"BGE", 0x00005063, 0x0000707F⟩
  , ⟨"BLTU", 0x00006063, 0x0000707F⟩
  , ⟨"BGEU", 0x00007063, 0x0000707F⟩ ]

def loadRows : List OpcodeRow :=
  [ ⟨"LB", 0x00000003, 0x0000707F⟩
  , ⟨"LH", 0x00001003, 0x0000707F⟩
  , ⟨"LW", 0x00002003, 0x0000707F⟩
  , ⟨"LBU", 0x00004003, 0x0000707F⟩
  , ⟨"LHU", 0x00005003, 0x0000707F⟩ ]

def storeRows : List OpcodeRow :=
  [ ⟨"SB", 0x00000023, 0x0000707F⟩
  , ⟨"SH", 0x00001023, 0x0000707F⟩
  , ⟨"SW", 0x00002023, 0x0000707F⟩ ]

def immediateRows : List OpcodeRow :=
  [ ⟨"ADDI", 0x00000013, 0x0000707F⟩
  , ⟨"SLTI", 0x00002013, 0x0000707F⟩
  , ⟨"SLTIU", 0x00003013, 0x0000707F⟩
  , ⟨"XORI", 0x00004013, 0x0000707F⟩
  , ⟨"ORI", 0x00006013, 0x0000707F⟩
  , ⟨"ANDI", 0x00007013, 0x0000707F⟩ ]

def immediateShiftRows : List OpcodeRow :=
  [ ⟨"SLLI", 0x00001013, 0xFE00707F⟩
  , ⟨"SRLI", 0x00005013, 0xFE00707F⟩
  , ⟨"SRAI", 0x40005013, 0xFE00707F⟩ ]

def registerRows : List OpcodeRow :=
  [ ⟨"ADD", 0x00000033, 0xFE00707F⟩
  , ⟨"SUB", 0x40000033, 0xFE00707F⟩
  , ⟨"SLL", 0x00001033, 0xFE00707F⟩
  , ⟨"SLT", 0x00002033, 0xFE00707F⟩
  , ⟨"SLTU", 0x00003033, 0xFE00707F⟩
  , ⟨"XOR", 0x00004033, 0xFE00707F⟩
  , ⟨"SRL", 0x00005033, 0xFE00707F⟩
  , ⟨"SRA", 0x40005033, 0xFE00707F⟩
  , ⟨"OR", 0x00006033, 0xFE00707F⟩
  , ⟨"AND", 0x00007033, 0xFE00707F⟩ ]

def systemRows : List OpcodeRow :=
  [ ⟨"FENCE", 0x0000000F, 0x0000707F⟩
  , ⟨"ECALL", 0x00000073, 0xFFF0707F⟩
  , ⟨"EBREAK", 0x00100073, 0xFFF0707F⟩ ]

/-- The complete instruction list of R104: 40 rows. -/
def opcodeTable : List OpcodeRow :=
  upperAndJumpRows ++ branchRows ++ loadRows ++ storeRows ++ immediateRows ++ immediateShiftRows ++ registerRows
    ++ systemRows

/-- The mnemonic of an instruction, as R104 spells it. -/
def Instr.mnemonic : Instr → String
  | .add _ _ _ => "ADD"
  | .sub _ _ _ => "SUB"
  | .sll _ _ _ => "SLL"
  | .slt _ _ _ => "SLT"
  | .sltu _ _ _ => "SLTU"
  | .xor _ _ _ => "XOR"
  | .srl _ _ _ => "SRL"
  | .sra _ _ _ => "SRA"
  | .or _ _ _ => "OR"
  | .and _ _ _ => "AND"
  | .addi _ _ _ => "ADDI"
  | .slti _ _ _ => "SLTI"
  | .sltiu _ _ _ => "SLTIU"
  | .xori _ _ _ => "XORI"
  | .ori _ _ _ => "ORI"
  | .andi _ _ _ => "ANDI"
  | .slli _ _ _ => "SLLI"
  | .srli _ _ _ => "SRLI"
  | .srai _ _ _ => "SRAI"
  | .lb _ _ _ => "LB"
  | .lh _ _ _ => "LH"
  | .lw _ _ _ => "LW"
  | .lbu _ _ _ => "LBU"
  | .lhu _ _ _ => "LHU"
  | .sb _ _ _ => "SB"
  | .sh _ _ _ => "SH"
  | .sw _ _ _ => "SW"
  | .beq _ _ _ => "BEQ"
  | .bne _ _ _ => "BNE"
  | .blt _ _ _ => "BLT"
  | .bge _ _ _ => "BGE"
  | .bltu _ _ _ => "BLTU"
  | .bgeu _ _ _ => "BGEU"
  | .lui _ _ => "LUI"
  | .auipc _ _ => "AUIPC"
  | .jal _ _ => "JAL"
  | .jalr _ _ _ => "JALR"
  | .ecall => "ECALL"
  | .ebreak => "EBREAK"
  | .fence => "FENCE"

end Sys2Proof
end

