-- ==== Sys2Proof/Machine/Console.lean ====
section
/-! DEFINITION. The text-console discipline that putchar, puts and getline share (60_exceptions.md R260 to R265), and the
text VRAM through which a program reaches its cells (20_memory.md R62).
What the source leaves open in it is a free value applied to the history `h` (log 15). -/

namespace Sys2Proof.Machine

/-- The cell at a column and row. -/
def TextConsole.cellAt (c : TextConsole) (col : Fin 80) (row : Fin 25) : TextCell :=
  (c.cells.get row).get col

/-- Set the cell at a column and row. -/
def TextConsole.setCell (c : TextConsole) (col : Fin 80) (row : Fin 25) (cell : TextCell) : TextConsole :=
  { c with cells := c.cells.set row.val ((c.cells.get row).set col.val cell) }

/-- The grid shifted up by one row, the last row cleared (R265). -/
def TextConsole.scrolled (h : List EnvEvent) (c : TextConsole) : Vector (Vector TextCell 80) 25 :=
  Vector.ofFn fun r => if next : r.val + 1 < 25 then c.cells.get ⟨r.val + 1, next⟩ else Config.clearedRow h

/-- Move to column 0 of the next row; past the last row the grid scrolls and the cursor stays on it (R262, R265). -/
def TextConsole.newline (h : List EnvEvent) (c : TextConsole) : TextConsole :=
  if next : c.row.val + 1 < 25 then { c with col := 0, row := ⟨c.row.val + 1, next⟩ }
  else { c with col := 0, cells := TextConsole.scrolled h c }

/-- Write the character with the current attribute at the cursor and advance one column; column 80 is column 0 of the
next row (R261). -/
def TextConsole.printable (h : List EnvEvent) (c : TextConsole) (b : Byte) : TextConsole :=
  let written := TextConsole.setCell c c.col c.row { char := b, attr := Config.textAttribute h }
  if next : c.col.val + 1 < 80 then { written with col := ⟨c.col.val + 1, next⟩ }
  else TextConsole.newline h written

/-- Back one column, never past column 0 (R263). Which cell is blanked, and whether one is at column 0, is free (N7). -/
def TextConsole.backspace (h : List EnvEvent) (c : TextConsole) : TextConsole :=
  if c.col.val = 0 then
    if Config.blanksAtColumnZero h then TextConsole.setCell c c.col c.row (Config.blankCell h) else c
  else
    let back : Fin 80 := ⟨c.col.val - 1, Nat.lt_of_le_of_lt (Nat.sub_le _ _) c.col.isLt⟩
    let vacated := if Config.vacatedIsLeft h then c.col else back
    { TextConsole.setCell c vacated c.row (Config.blankCell h) with col := back }

/-- To the next multiple-of-8 column (R264); from columns 72 to 79, whose next multiple is column 80, what happens is
free (N7). -/
def TextConsole.tab (h : List EnvEvent) (c : TextConsole) : TextConsole :=
  if next : 8 * (c.col.val / 8 + 1) < 80 then { c with col := ⟨8 * (c.col.val / 8 + 1), next⟩ }
  else if Config.tabWraps h then TextConsole.newline h c
  else { c with col := Config.tabColumn h }

/-- What one byte does to the console (R261 to R264; every byte but the four control codes is printable, D27). -/
def TextConsole.put (h : List EnvEvent) (c : TextConsole) (b : Byte) : TextConsole :=
  if b = 0x08#8 then TextConsole.backspace h c
  else if b = 0x09#8 then TextConsole.tab h c
  else if b = 0x0A#8 ∨ b = 0x0D#8 then TextConsole.newline h c
  else TextConsole.printable h c b

/-! ## The text VRAM -/

/-- Where the text VRAM starts: `+0x1000` in the graphics window (20_memory.md R62). -/
def textVramBase : Nat := 0x10001000

/-- The offset of an address in the text VRAM, "2 bytes/cell: char, attribute; 80×25 grid"; none outside it (R62). -/
def vramOffset (a : Word) : Option (Fin (2 * (80 * 25))) :=
  if inside : textVramBase ≤ a.toNat ∧ a.toNat - textVramBase < 2 * (80 * 25) then
    some ⟨a.toNat - textVramBase, inside.2⟩
  else none

/-- A write of one byte of a cell: "byte 0 of a cell is the character and byte 1 the attribute" (R62). -/
def TextCell.setByte (cell : TextCell) (k : Nat) (b : Byte) : TextCell :=
  if k = 0 then { cell with char := b } else { cell with attr := b }

/-- A write of one byte of the text VRAM, whose cells lie row by row, as R62 gives their addresses (log 34). -/
def TextConsole.writeVram (c : TextConsole) (offset : Fin (2 * (80 * 25))) (b : Byte) : TextConsole :=
  let col : Fin 80 := ⟨offset.val / 2 % 80, Nat.mod_lt _ (by decide)⟩
  let row : Fin 25 := ⟨offset.val / 2 / 80, by omega⟩
  TextConsole.setCell c col row (TextCell.setByte (TextConsole.cellAt c col row) (offset.val % 2) b)

/-- The console after an access to one byte of the graphics window, `written` being the byte of a write and none for a
read. The text VRAM holds the cells: a write sets its byte of its cell, a read changes nothing (log 34). What an access
to any other byte of the window does is not in the source (N5): free (log 15). -/
def TextConsole.access (h : List EnvEvent) (c : TextConsole) (a : Word) (written : Option Byte) : TextConsole :=
  match vramOffset a, written with
  | some offset, some b => TextConsole.writeVram c offset b
  | some _, none => c
  | none, _ => Config.consoleAfterAccess h

end Sys2Proof.Machine
end

