-- ==== Sys2Proof/Machine/Memory.lean ====
section
/-! DEFINITION. RAM as a canonical list of (offset, byte) pairs: read, write, and the canonical form. -/

namespace Sys2Proof.Machine

/-- What an unlisted RAM offset reads as: RAM is all 0x00 after construction (10_state.md R38). -/
def Memory.unlisted : Byte := 0x00#8

/-- The canonical form: offsets strictly rising, no byte equal to `Memory.unlisted`. -/
abbrev Memory.wf (m : Memory) : Prop :=
  m.Pairwise (fun c d => c.1 < d.1) ∧ ∀ c ∈ m, c.2 ≠ Memory.unlisted

/-- The byte at a RAM offset: "a read returns the last byte written" (20_memory.md R68). -/
def Memory.read : Memory → Nat → Byte
  | [], _ => Memory.unlisted
  | (k, b) :: m, a => if k = a then b else Memory.read m a

/-- Write a byte at a RAM offset, keeping the canonical form. -/
def Memory.write : Memory → Nat → Byte → Memory
  | [], a, v => if v = Memory.unlisted then [] else [(a, v)]
  | (k, b) :: m, a, v =>
    if a < k then (if v = Memory.unlisted then (k, b) :: m else (a, v) :: (k, b) :: m)
    else if a = k then (if v = Memory.unlisted then m else (a, v) :: m)
    else (k, b) :: Memory.write m a v

/-- Write bytes at consecutive RAM offsets, ascending (20_memory.md R80). -/
def Memory.writeList : Memory → Nat → List Byte → Memory
  | m, _, [] => m
  | m, a, b :: bs => Memory.writeList (Memory.write m a b) (a + 1) bs

end Sys2Proof.Machine
end

