-- ==== Sys2Proof/Machine/Ops.lean ====
section
/-! DEFINITION. The named operations over registers, pc, run state, the bus and the console that every meaning is
written in (00_scope.md R9, 10_state.md, 20_memory.md), and the two ways an instruction ends in a halting event:
`halt` and `raiseDecodeError`. -/

namespace Sys2Proof.Machine

/-! ## Registers and pc -/

/-- Read of x[i]: "index 0 always reads as 0" (10_state.md R21). -/
def State.getReg (s : State) (r : Reg) : Word :=
  if r = 0#5 then 0#32 else s.regs[r.toNat]'r.isLt

/-- Write of x[i]: a write to x0 is discarded (10_state.md R21). -/
def State.setReg (s : State) (r : Reg) (v : Word) : State :=
  if r = 0#5 then s else { s with regs := s.regs.set r.toNat v r.isLt }

/-- `pc <- t` (10_state.md R25). -/
def State.setPc (s : State) (t : Word) : State :=
  { s with pc := t }

/-- `pc <- pc + 4`, modulo 2^32 (40_execution_cycle.md R133). -/
def State.advance (s : State) : State :=
  s.setPc (s.pc + 4#32)

/-! ## Run state and halting events -/

/-- Change the engine's state between Running and Suspended (10_state.md R27). -/
def State.setRunState (s : State) (r : RunState) : State :=
  { s with runState := r }

/-- `halt(cause, code)` (00_scope.md R9, 10_state.md R28): pc, registers and memory are unchanged. -/
def halt (cause : HaltCause) (code : Word) (s : State) : State :=
  { s with halted := true, haltCause := cause, exitCode := code, runState := .halted }

/-- `raise DecodeError` (60_exceptions.md R240): the engine halts with the configured exit code. -/
def raiseDecodeError (s : State) : State :=
  halt .decodeError s.decodeErrorCode s

/-- What a step answers for the result of an operation that may stop. -/
def outcome : Except Stop State → Host.Outcome State Fault Refusal
  | .ok s => .next s
  | .error (.fault f) => .fault f
  | .error (.refused r) => .refused r

/-! ## Transactions with the surroundings -/

/-- Record a transaction (log 6). -/
def State.note (s : State) (e : EnvEvent) : State :=
  { s with events := s.events ++ [e] }

/-- Replace the answers the surroundings are set to give. -/
def State.setInputs (s : State) (i : EnvInputs) : State :=
  { s with inputs := i }

/-- The next answer: the oldest one set, or the free value where none is set (log 5); and the answers left. -/
def draw {α : Type} (queue : List α) (free : α) : α × List α :=
  match queue with
  | [] => (free, [])
  | a :: rest => (a, rest)

/-! ## The console -/

/-- Replace the text console. -/
def State.setConsole (s : State) (c : TextConsole) : State :=
  { s with console := c }

/-- `consolePut(byte)`: the console discipline, and the byte appended to `consoleOutput` (60_exceptions.md R247, R266). -/
def State.consolePut (s : State) (b : Byte) : State :=
  ({ s with
      consoleOutput := s.consoleOutput ++ [b]
      console := TextConsole.put s.events s.console b }).note (.consolePut b)

/-- `consolePut` of each byte, in order. -/
def State.consolePutAll : State → List Byte → State
  | s, [] => s
  | s, b :: bs => State.consolePutAll (s.consolePut b) bs

/-! ## The bus (20_memory.md) -/

/-- Whether a window holds an address: `base <= a < base + len` as integers (R52). -/
def Window.contains (w : Window) (a : Word) : Bool :=
  decide (w.base ≤ a.toNat) && decide (a.toNat < w.base + w.len)

/-- `Route`: the device of the first window that holds the address; `none` is RAM (R52, R54). -/
def route (windows : List Window) (a : Word) : Option Device :=
  (windows.find? (fun w => Window.contains w a)).map Window.device

/-- What an access to one byte of a device's window does to the console, which the graphics window holds (R62);
`written` is the byte of a write, none for a read. -/
def State.afterAccess (s : State) (d : Device) (a : Word) (written : Option Byte) : State :=
  match d with
  | .graphics => s.setConsole (TextConsole.access s.events s.console a written)
  | .storage => s
  | .keyboard => s

/-- `devRead8`: one byte read from a peripheral, whose answer is the environment's (R56, R60, R78). -/
def devRead (d : Device) (a : Word) (s : State) : Byte × State :=
  let answer := draw s.inputs.devReads (Config.devRead8 s.events a)
  (answer.1,
    ((s.setInputs { s.inputs with devReads := answer.2 }).note (.devRead a answer.1)).afterAccess d a none)

/-- `devWrite8`: one byte delivered to a peripheral (R56, R60, R78). -/
def devWrite (d : Device) (a : Word) (b : Byte) (s : State) : State :=
  (s.note (.devWrite a b)).afterAccess d a (some b)

/-- Replace the RAM contents. -/
def State.setRam (s : State) (m : Memory) : State :=
  { s with ram := m }

/-- `ByteRead` (R57) with `RamRead8` (R55). -/
def byteRead (a : Word) (s : State) : Except Stop (Byte × State) :=
  match route s.windows a with
  | some d => .ok (devRead d a s)
  | none => if a.toNat < s.ramSize then .ok (s.ram.read a.toNat, s) else .error (.fault .ramOutOfRange)

/-- `ByteWrite` (R58) with `RamWrite8` (R55). -/
def byteWrite (a : Word) (b : Byte) (s : State) : Except Stop State :=
  match route s.windows a with
  | some d => .ok (devWrite d a b s)
  | none => if a.toNat < s.ramSize then .ok (s.setRam (s.ram.write a.toNat b)) else .error (.fault .ramOutOfRange)

/-- `n` byte reads at ascending addresses, which wrap modulo 2^32 (R59). -/
def readBytes : Nat → Word → State → Except Stop (List Byte × State)
  | 0, _, s => .ok ([], s)
  | n + 1, a, s => do
    let (b, s) ← byteRead a s
    let (bs, s) ← readBytes n (a + 1#32) s
    return (b :: bs, s)

/-- Byte writes at ascending addresses, which wrap modulo 2^32 (R59). -/
def writeBytes : List Byte → Word → State → Except Stop State
  | [], _, s => .ok s
  | b :: bs, a, s => do
    let s ← byteWrite a b s
    writeBytes bs (a + 1#32) s

/-- `MemRead(addr, n)`: the little-endian value of `n` bytes, in the low `8n` bits (R57). -/
def memRead (a : Word) (n : Nat) (s : State) : Except Stop (Word × State) := do
  let (bs, s) ← readBytes n a s
  return (BitVec.ofNat 32 (littleEndian bs), s)

/-- `MemWrite(addr, n, v)`: the low `8n` bits of `v`, little-endian (R58, R70). -/
def memWrite (a : Word) (n : Nat) (v : Word) (s : State) : Except Stop State :=
  writeBytes (bytesOf n v.toNat) a s

end Sys2Proof.Machine
end

