-- ==== Sys2Proof/Machine/Operands.lean ====
section
/-! DEFINITION. The operand forms: immediates extended to 32 bits (30_encoding.md R96 to R101), shift amounts, the
effective address, jump and branch targets, and the extension of loaded values (00_scope.md R9). -/

namespace Sys2Proof.Machine

/-- `immI` and `immS`: the 12-bit immediate, sign-extended (R96, R97). -/
def imm12 (imm : BitVec 12) : Word := imm.signExtend 32

/-- `immB`: the 13-bit offset, sign-extended (R98). -/
def immB (offset : BitVec 13) : Word := offset.signExtend 32

/-- `immU`: 20 bits above twelve zeros (R99). -/
def immU (imm20 : BitVec 20) : Word := imm20 ++ 0#12

/-- `immJ`: the 21-bit offset, sign-extended (R100). -/
def immJ (offset : BitVec 21) : Word := offset.signExtend 32

/-- The shift amount of a register-register shift: the low 5 bits of the register (41_alu_register.md R151). -/
def shiftAmount (v : Word) : BitVec 5 := v.extractLsb' 0 5

/-- `ea = x[rs1] + imm` modulo 2^32, the one addressing mode (43_loads.md R180, 44_stores.md R190). -/
def effectiveAddress (s : State) (rs1 : Reg) (imm : BitVec 12) : Word := s.getReg rs1 + imm12 imm

/-- The target of a taken branch, relative to the branch itself (45_branches.md R200). -/
def branchTarget (s : State) (offset : BitVec 13) : Word := s.pc + immB offset

/-- The target of JAL, relative to the JAL itself (47_jumps.md R220). -/
def jalTarget (s : State) (offset : BitVec 21) : Word := s.pc + immJ offset

/-- The target of JALR: the sum with bit 0 cleared (47_jumps.md R221). -/
def jalrTarget (s : State) (rs1 : Reg) (imm : BitVec 12) : Word := (s.getReg rs1 + imm12 imm) &&& 0xFFFFFFFE#32

/-- `sext_8` (00_scope.md R9). -/
def sext8 (v : Word) : Word := (v.setWidth 8).signExtend 32

/-- `sext_16` (00_scope.md R9). -/
def sext16 (v : Word) : Word := (v.setWidth 16).signExtend 32

/-- `zext_8` (00_scope.md R9). -/
def zext8 (v : Word) : Word := (v.setWidth 8).setWidth 32

/-- `zext_16` (00_scope.md R9). -/
def zext16 (v : Word) : Word := (v.setWidth 16).setWidth 32

end Sys2Proof.Machine
end

