-- ==== Sys2Proof/Machine/Alu.lean ====
section
/-! DEFINITION. The arithmetic and logic of 41_alu_register.md, as functions of two words, and the two shapes of the ALU
instructions: two source registers (R140), one source register and an immediate (42_alu_immediate.md R160). -/

namespace Sys2Proof.Machine

/-- Sum modulo 2^32 (R141, R151). -/
def aluAdd (a b : Word) : Word := a + b

/-- Difference modulo 2^32 (R142, R151). -/
def aluSub (a b : Word) : Word := a - b

/-- Shift left, zeros enter at bit 0 (R143). -/
def aluSll (a : Word) (amount : BitVec 5) : Word := a <<< amount.toNat

/-- Shift right, zeros enter at bit 31 (R147). -/
def aluSrl (a : Word) (amount : BitVec 5) : Word := a >>> amount.toNat

/-- Shift right, copies of bit 31 enter at bit 31 (R148). -/
def aluSra (a : Word) (amount : BitVec 5) : Word := a.sshiftRight amount.toNat

/-- 1 if the signed reading of `a` is below that of `b`, else 0 (R144). -/
def aluSlt (a b : Word) : Word := truthValue (lessSigned a b)

/-- 1 if the unsigned reading of `a` is below that of `b`, else 0 (R145). -/
def aluSltu (a b : Word) : Word := truthValue (lessUnsigned a b)

/-- Bitwise exclusive or (R146). -/
def aluXor (a b : Word) : Word := a ^^^ b

/-- Bitwise or (R149). -/
def aluOr (a b : Word) : Word := a ||| b

/-- Bitwise and (R150). -/
def aluAnd (a b : Word) : Word := a &&& b

/-- Write a result to `rd` and go to the next instruction (R140, R160). -/
def writeResult (rd : Reg) (v : Word) (s : State) : Host.Outcome State Fault Refusal :=
  .next (s.setReg rd v).advance

/-- The register-register shape: both sources are read before `rd` is written (R140, 40_execution_cycle.md R134). -/
def aluRegister (f : Word → Word → Word) (rd rs1 rs2 : Reg) (s : State) : Host.Outcome State Fault Refusal :=
  writeResult rd (f (s.getReg rs1) (s.getReg rs2)) s

/-- The immediate shape, with the sign-extended 12-bit immediate (R160). -/
def aluImmediate (f : Word → Word → Word) (rd rs1 : Reg) (imm : BitVec 12) (s : State) :
    Host.Outcome State Fault Refusal :=
  writeResult rd (f (s.getReg rs1) (imm12 imm)) s

/-- The shift shape: a word and a 5-bit amount (R143, R167). -/
def aluShift (f : Word → BitVec 5 → Word) (rd rs1 : Reg) (amount : BitVec 5) (s : State) :
    Host.Outcome State Fault Refusal :=
  writeResult rd (f (s.getReg rs1) amount) s

end Sys2Proof.Machine
end

