-- ==== Sys2Proof/Machine/AluImm.lean ====
section
/-! DEFINITION. The ALU-immediate instructions (42_alu_immediate.md R160 to R169). -/

namespace Sys2Proof.Machine

/-- ADDI (R161): x[rd] <- x[rs1] + immI. -/
def execAddi (rd rs1 : Reg) (imm : BitVec 12) (s : State) : Host.Outcome State Fault Refusal :=
  aluImmediate aluAdd rd rs1 imm s

/-- SLTI (R162): x[rd] <- (signed(x[rs1]) < signed(immI)) ? 1 : 0. -/
def execSlti (rd rs1 : Reg) (imm : BitVec 12) (s : State) : Host.Outcome State Fault Refusal :=
  aluImmediate aluSlt rd rs1 imm s

/-- SLTIU (R163): x[rd] <- (unsigned(x[rs1]) < unsigned(immI)) ? 1 : 0, immI sign-extended first (D8). -/
def execSltiu (rd rs1 : Reg) (imm : BitVec 12) (s : State) : Host.Outcome State Fault Refusal :=
  aluImmediate aluSltu rd rs1 imm s

/-- XORI (R164). -/
def execXori (rd rs1 : Reg) (imm : BitVec 12) (s : State) : Host.Outcome State Fault Refusal :=
  aluImmediate aluXor rd rs1 imm s

/-- ORI (R165). -/
def execOri (rd rs1 : Reg) (imm : BitVec 12) (s : State) : Host.Outcome State Fault Refusal :=
  aluImmediate aluOr rd rs1 imm s

/-- ANDI (R166). -/
def execAndi (rd rs1 : Reg) (imm : BitVec 12) (s : State) : Host.Outcome State Fault Refusal :=
  aluImmediate aluAnd rd rs1 imm s

/-- SLLI (R167): x[rd] <- x[rs1] << shamt. -/
def execSlli (rd rs1 : Reg) (shamt : BitVec 5) (s : State) : Host.Outcome State Fault Refusal :=
  aluShift aluSll rd rs1 shamt s

/-- SRLI (R168): x[rd] <- x[rs1] >>u shamt. -/
def execSrli (rd rs1 : Reg) (shamt : BitVec 5) (s : State) : Host.Outcome State Fault Refusal :=
  aluShift aluSrl rd rs1 shamt s

/-- SRAI (R169): x[rd] <- x[rs1] >>s shamt. -/
def execSrai (rd rs1 : Reg) (shamt : BitVec 5) (s : State) : Host.Outcome State Fault Refusal :=
  aluShift aluSra rd rs1 shamt s

end Sys2Proof.Machine
end

