-- ==== Sys2Proof/Machine/AluReg.lean ====
section
/-! DEFINITION. The register-register ALU instructions (41_alu_register.md R140 to R150). -/

namespace Sys2Proof.Machine

/-- ADD (R141): x[rd] <- x[rs1] + x[rs2]. -/
def execAdd (rd rs1 rs2 : Reg) (s : State) : Host.Outcome State Fault Refusal :=
  aluRegister aluAdd rd rs1 rs2 s

/-- SUB (R142): x[rd] <- x[rs1] - x[rs2]. -/
def execSub (rd rs1 rs2 : Reg) (s : State) : Host.Outcome State Fault Refusal :=
  aluRegister aluSub rd rs1 rs2 s

/-- SLL (R143): x[rd] <- x[rs1] << x[rs2][4:0]. -/
def execSll (rd rs1 rs2 : Reg) (s : State) : Host.Outcome State Fault Refusal :=
  aluShift aluSll rd rs1 (shiftAmount (s.getReg rs2)) s

/-- SLT (R144): x[rd] <- (signed(x[rs1]) < signed(x[rs2])) ? 1 : 0. -/
def execSlt (rd rs1 rs2 : Reg) (s : State) : Host.Outcome State Fault Refusal :=
  aluRegister aluSlt rd rs1 rs2 s

/-- SLTU (R145): x[rd] <- (unsigned(x[rs1]) < unsigned(x[rs2])) ? 1 : 0. -/
def execSltu (rd rs1 rs2 : Reg) (s : State) : Host.Outcome State Fault Refusal :=
  aluRegister aluSltu rd rs1 rs2 s

/-- XOR (R146). -/
def execXor (rd rs1 rs2 : Reg) (s : State) : Host.Outcome State Fault Refusal :=
  aluRegister aluXor rd rs1 rs2 s

/-- SRL (R147): x[rd] <- x[rs1] >>u x[rs2][4:0]. -/
def execSrl (rd rs1 rs2 : Reg) (s : State) : Host.Outcome State Fault Refusal :=
  aluShift aluSrl rd rs1 (shiftAmount (s.getReg rs2)) s

/-- SRA (R148): x[rd] <- x[rs1] >>s x[rs2][4:0]. -/
def execSra (rd rs1 rs2 : Reg) (s : State) : Host.Outcome State Fault Refusal :=
  aluShift aluSra rd rs1 (shiftAmount (s.getReg rs2)) s

/-- OR (R149). -/
def execOr (rd rs1 rs2 : Reg) (s : State) : Host.Outcome State Fault Refusal :=
  aluRegister aluOr rd rs1 rs2 s

/-- AND (R150). -/
def execAnd (rd rs1 rs2 : Reg) (s : State) : Host.Outcome State Fault Refusal :=
  aluRegister aluAnd rd rs1 rs2 s

end Sys2Proof.Machine
end

