-- ==== Sys2Proof/Machine/Branches.lean ====
section
/-! DEFINITION. The conditional branches (45_branches.md R200 to R207). -/

namespace Sys2Proof.Machine

/-- The shape of every branch (R200): `pc <- pc + immB` if the condition holds, else `pc <- pc + 4`. Nothing else is
written, and no target is an error here (R207). -/
def branch (taken : Bool) (offset : BitVec 13) (s : State) : Host.Outcome State Fault Refusal :=
  .next (if taken then s.setPc (branchTarget s offset) else s.advance)

/-- BEQ (R201). -/
def execBeq (rs1 rs2 : Reg) (offset : BitVec 13) (s : State) : Host.Outcome State Fault Refusal :=
  branch (s.getReg rs1 == s.getReg rs2) offset s

/-- BNE (R202). -/
def execBne (rs1 rs2 : Reg) (offset : BitVec 13) (s : State) : Host.Outcome State Fault Refusal :=
  branch (s.getReg rs1 != s.getReg rs2) offset s

/-- BLT (R203), signed. -/
def execBlt (rs1 rs2 : Reg) (offset : BitVec 13) (s : State) : Host.Outcome State Fault Refusal :=
  branch (lessSigned (s.getReg rs1) (s.getReg rs2)) offset s

/-- BGE (R204), signed: "exactly the negation of BLT". -/
def execBge (rs1 rs2 : Reg) (offset : BitVec 13) (s : State) : Host.Outcome State Fault Refusal :=
  branch (!lessSigned (s.getReg rs1) (s.getReg rs2)) offset s

/-- BLTU (R205), unsigned. -/
def execBltu (rs1 rs2 : Reg) (offset : BitVec 13) (s : State) : Host.Outcome State Fault Refusal :=
  branch (lessUnsigned (s.getReg rs1) (s.getReg rs2)) offset s

/-- BGEU (R206), unsigned. -/
def execBgeu (rs1 rs2 : Reg) (offset : BitVec 13) (s : State) : Host.Outcome State Fault Refusal :=
  branch (!lessUnsigned (s.getReg rs1) (s.getReg rs2)) offset s

end Sys2Proof.Machine
end

