-- ==== Sys2Proof/Machine/Jumps.lean ====
section
/-! DEFINITION. The unconditional jumps (47_jumps.md R220 to R223). -/

namespace Sys2Proof.Machine

/-- Link and jump: `x[rd] <- pc + 4`, `pc <- target`; the target is computed before `rd` is written (R221, R222). -/
def linkAndJump (rd : Reg) (target : Word) (s : State) : Host.Outcome State Fault Refusal :=
  .next ((s.setReg rd (s.pc + 4#32)).setPc target)

/-- JAL (R220). -/
def execJal (rd : Reg) (offset : BitVec 21) (s : State) : Host.Outcome State Fault Refusal :=
  linkAndJump rd (jalTarget s offset) s

/-- JALR (R221): the target uses the old x[rs1], also when rd = rs1 (D12). -/
def execJalr (rd rs1 : Reg) (imm : BitVec 12) (s : State) : Host.Outcome State Fault Refusal :=
  linkAndJump rd (jalrTarget s rs1 imm) s

end Sys2Proof.Machine
end

