-- ==== Sys2Proof/Machine/Loads.lean ====
section
/-! DEFINITION. The load instructions (43_loads.md R180 to R185). -/

namespace Sys2Proof.Machine

/-- The shape of every load (R180): `n` bytes at ea through the bus, extended, to x[rd]. The read happens once, also when
`rd` is x0 (40_execution_cycle.md R136). -/
def load (n : Nat) (extend : Word → Word) (rd rs1 : Reg) (imm : BitVec 12) (s : State) : Host.Outcome State Fault Refusal :=
  outcome do
    let (v, t) ← memRead (effectiveAddress s rs1 imm) n s
    return (t.setReg rd (extend v)).advance

/-- LB (R181): one byte, sign-extended. -/
def execLb (rd rs1 : Reg) (imm : BitVec 12) (s : State) : Host.Outcome State Fault Refusal :=
  load 1 sext8 rd rs1 imm s

/-- LH (R182): two bytes, sign-extended. -/
def execLh (rd rs1 : Reg) (imm : BitVec 12) (s : State) : Host.Outcome State Fault Refusal :=
  load 2 sext16 rd rs1 imm s

/-- LW (R183): four bytes. -/
def execLw (rd rs1 : Reg) (imm : BitVec 12) (s : State) : Host.Outcome State Fault Refusal :=
  load 4 id rd rs1 imm s

/-- LBU (R184): one byte, zero-extended. -/
def execLbu (rd rs1 : Reg) (imm : BitVec 12) (s : State) : Host.Outcome State Fault Refusal :=
  load 1 zext8 rd rs1 imm s

/-- LHU (R185): two bytes, zero-extended. -/
def execLhu (rd rs1 : Reg) (imm : BitVec 12) (s : State) : Host.Outcome State Fault Refusal :=
  load 2 zext16 rd rs1 imm s

end Sys2Proof.Machine
end

