-- ==== Sys2Proof/Machine/Stores.lean ====
section
/-! DEFINITION. The store instructions (44_stores.md R190 to R193). -/

namespace Sys2Proof.Machine

/-- The shape of every store (R190): the low `n` bytes of x[rs2] to ea through the bus. -/
def store (n : Nat) (rs2 rs1 : Reg) (imm : BitVec 12) (s : State) : Host.Outcome State Fault Refusal :=
  outcome do
    let t ← memWrite (effectiveAddress s rs1 imm) n (s.getReg rs2) s
    return t.advance

/-- SB (R191). -/
def execSb (rs2 rs1 : Reg) (imm : BitVec 12) (s : State) : Host.Outcome State Fault Refusal :=
  store 1 rs2 rs1 imm s

/-- SH (R192). -/
def execSh (rs2 rs1 : Reg) (imm : BitVec 12) (s : State) : Host.Outcome State Fault Refusal :=
  store 2 rs2 rs1 imm s

/-- SW (R193). -/
def execSw (rs2 rs1 : Reg) (imm : BitVec 12) (s : State) : Host.Outcome State Fault Refusal :=
  store 4 rs2 rs1 imm s

end Sys2Proof.Machine
end

