-- ==== Sys2Proof/Machine/Environment.lean ====
section
/-! DEFINITION. The environment oracle of the syscalls (60_exceptions.md R259): each function takes its answer from the
surroundings (the oldest answer set, else a free value: log 5), keeps the limits the spec sets on it, and records the
transaction. -/

namespace Sys2Proof.Machine

/-- `kbdPop() -> key or none` (R248). -/
def kbdPop (s : State) : Option Key × State :=
  let answer := draw s.inputs.keys (Config.kbdPop s.events)
  (answer.1, (s.setInputs { s.inputs with keys := answer.2 }).note (.kbdPop answer.1))

/-- The keys available to a pending `getline`, consumed in one poll (R258). -/
def pollKeys (p : PendingLine) (s : State) : LineInput × State :=
  let answer := draw s.inputs.lines (Config.lineInput s.events p)
  (answer.1, (s.setInputs { s.inputs with lines := answer.2 }).note (.line answer.1))

/-- `readSector(sector) -> 512 bytes or failure` (R250). -/
def readSector (sector : Word) (s : State) : Option Sector × State :=
  let answer := draw s.inputs.sectorReads (Config.readSector s.events sector)
  (answer.1, (s.setInputs { s.inputs with sectorReads := answer.2 }).note (.readSector sector answer.1))

/-- `writeSector(sector, 512 bytes) -> ok or failure` (R251). -/
def writeSector (sector : Word) (data : List Byte) (s : State) : Bool × State :=
  let answer := draw s.inputs.sectorWrites (Config.writeSector s.events sector data)
  (answer.1, (s.setInputs { s.inputs with sectorWrites := answer.2 }).note (.writeSector sector data answer.1))

/-- `fopen(name bytes, mode) -> handle or failure` (R253). -/
def fopen (name : List Byte) (mode : Word) (s : State) : Option Handle × State :=
  let answer := draw s.inputs.fopens (Config.fopen s.events name mode)
  (answer.1, (s.setInputs { s.inputs with fopens := answer.2 }).note (.fopen name mode answer.1))

/-- `fread(handle, max) -> byte string of length <= max, or failure` (R254): an answer longer than `max` counts as its
first `max` bytes. -/
def fread (handle max : Word) (s : State) : Option (List Byte) × State :=
  let answer := draw s.inputs.freads (Config.fread s.events handle max)
  let bytes := answer.1.map (List.take max.toNat)
  (bytes, (s.setInputs { s.inputs with freads := answer.2 }).note (.fread handle max bytes))

/-- `fwrite(handle, bytes) -> count or failure` (R255). -/
def fwrite (handle : Word) (data : List Byte) (s : State) : Option Word × State :=
  let answer := draw s.inputs.fwrites (Config.fwrite s.events handle data)
  (answer.1, (s.setInputs { s.inputs with fwrites := answer.2 }).note (.fwrite handle data answer.1))

/-- `fclose(handle) -> ok or failure` (R256). -/
def fclose (handle : Word) (s : State) : Bool × State :=
  let answer := draw s.inputs.fcloses (Config.fclose s.events handle)
  (answer.1, (s.setInputs { s.inputs with fcloses := answer.2 }).note (.fclose handle answer.1))

end Sys2Proof.Machine
end

