-- ==== Sys2Proof/Machine/Syscall.lean ====
section
/-! DEFINITION. The syscall dispatcher that ECALL drives (60_exceptions.md R243 to R258): the frame in x10 to x17, the
eleven syscalls, the return convention, and the blocked `getline`. Guest memory is reached through the bus, byte by
byte in ascending order (20_memory.md R79). -/

namespace Sys2Proof.Machine

/-- The syscalls of the table, numbers 0 to 10 (R246 to R256). -/
inductive Syscall where
  | exit
  | putchar
  | getchar
  | puts
  | readSector
  | writeSector
  | getline
  | fopen
  | fread
  | fwrite
  | fclose
deriving DecidableEq, Repr

/-- What the dispatcher tells ECALL (48_system_fence.md R230). -/
inductive SysResult where
  | ret   (value : Word)
  | exit  (code : Word)
  | block (pending : PendingLine)
deriving DecidableEq, Repr

/-- The syscall a number names: the full 32-bit value compared with 0 to 10 (R244, R245). -/
def syscallOf (number : Word) : Option Syscall :=
  match number.toNat with
  | 0 => some .exit
  | 1 => some .putchar
  | 2 => some .getchar
  | 3 => some .puts
  | 4 => some .readSector
  | 5 => some .writeSector
  | 6 => some .getline
  | 7 => some .fopen
  | 8 => some .fread
  | 9 => some .fwrite
  | 10 => some .fclose
  | _ => none

/-- The sentinel of failed and unknown syscalls (R245, R257). -/
def sentinel : Word := 0xFFFFFFFF#32

/-- The syscall number a7 and the arguments a0, a1, a2 (R244). -/
def callNumber (s : State) : Word := s.getReg 17#5
def arg0 (s : State) : Word := s.getReg 10#5
def arg1 (s : State) : Word := s.getReg 11#5
def arg2 (s : State) : Word := s.getReg 12#5

/-- A full turn of the address space, after which a scan is back at its first address. -/
def fullTurn : Nat := 2 ^ 32

/-- Read at most `fuel` bytes upward from an address until a zero byte, doing `each` with every byte before the next is
read: the bytes before the zero, and whether it was met. -/
def scanString (each : State → Byte → State) : Nat → Word → State → Except Stop (List Byte × Bool × State)
  | 0, _, s => .ok ([], false, s)
  | fuel + 1, a, s => do
    let (b, s) ← byteRead a s
    if b = 0#8 then return ([], true, s)
    else do
      let (bs, ended, s) ← scanString each fuel (a + 1#32) (each s b)
      return (b :: bs, ended, s)

/-- The same without a bound: the loop of R249 and R253 itself, from the bytes read `before`. It has no answer exactly where
the loop never ends. -/
def scanOn (each : State → Byte → State) (a : Word) (before : List Byte) (s : State) :
    Option (Except Stop (List Byte × State)) :=
  match byteRead a s with
  | .error e => some (.error e)
  | .ok (b, s) => if b = 0#8 then some (.ok (before, s)) else scanOn each (a + 1#32) (before ++ [b]) (each s b)
partial_fixpoint

/-- Read a string upward from an address until its zero byte, however many turns of the address space that takes (R249,
R253): one turn by `scanString`, which the kernel can evaluate, and what is left, back at the address, by `scanOn`. A loop
that never ends has no next state (log 9). -/
def readString (each : State → Byte → State) (a : Word) (s : State) : Except Stop (List Byte × State) := do
  let (bs, ended, s) ← scanString each fullTurn a s
  if ended then return (bs, s)
  else match scanOn each a bs s with
    | some result => result
    | none => .error (.fault .stepNeverReturns)

/-- putchar (R247): the low 8 bits of a0 to the console; returns 0. -/
def sysPutchar (s : State) : Except Stop (SysResult × State) :=
  .ok (.ret 0#32, s.consolePut ((arg0 s).setWidth 8))

/-- getchar (R248): the key, or the sentinel when none is buffered; it never blocks. -/
def sysGetchar (s : State) : Except Stop (SysResult × State) :=
  match kbdPop s with
  | (some key, t) => .ok (.ret (BitVec.ofNat 32 key.val), t)
  | (none, t) => .ok (.ret sentinel, t)

/-- puts (R249): each byte of the string at a0 to the console; returns their count. -/
def sysPuts (s : State) : Except Stop (SysResult × State) := do
  let (bs, t) ← readString State.consolePut (arg0 s) s
  return (.ret (BitVec.ofNat 32 bs.length), t)

/-- read_sector (R250): sector a0 into the 512 bytes at a1; returns 0, or the sentinel with no memory written. -/
def sysReadSector (s : State) : Except Stop (SysResult × State) :=
  match readSector (arg0 s) s with
  | (some data, t) => do
    let t ← writeBytes data.toList (arg1 s) t
    return (.ret 0#32, t)
  | (none, t) => .ok (.ret sentinel, t)

/-- write_sector (R251): the 512 bytes at a1 to sector a0; returns 0, or the sentinel. -/
def sysWriteSector (s : State) : Except Stop (SysResult × State) := do
  let (data, t) ← readBytes 512 (arg1 s) s
  match writeSector (arg0 s) data t with
  | (true, t) => return (.ret 0#32, t)
  | (false, t) => return (.ret sentinel, t)

/-- The characters accumulated after a poll: what is taken back, then what is added, without zero bytes and with room
for the terminating NUL below maxlen (R252, log 7). -/
def lineAfter (p : PendingLine) (i : LineInput) : PendingLine :=
  { p with
    chars := ((p.chars.take (p.chars.length - i.erased) ++ i.typed).filter (fun b => b != 0#8)).take (p.maxlen.toNat - 1) }

/-- One attempt at a `getline` (R252, R258): consume and echo the available keys; with a complete line, write it and a
NUL at the buffer and return its length, else block. maxlen 0 has no meaning (U6, log 8). -/
def getlineAttempt (p : PendingLine) (s : State) : Except Stop (SysResult × State) :=
  if p.maxlen = 0#32 then .error (.refused .getlineZeroMaxlen)
  else
    let (input, t) := pollKeys p s
    let t := t.consolePutAll input.echo
    let p := lineAfter p input
    if input.enter then do
      let t ← writeBytes (p.chars ++ [0#8]) p.buffer t
      return (.ret (BitVec.ofNat 32 p.chars.length), t)
    else .ok (.block p, t)

/-- getline (R252): buffer a0, maxlen a1, no character yet. -/
def sysGetline (s : State) : Except Stop (SysResult × State) :=
  getlineAttempt { buffer := arg0 s, maxlen := arg1 s, chars := [] } s

/-- fopen (R253): the name at a0, mode a1; returns the handle, or the sentinel. -/
def sysFopen (s : State) : Except Stop (SysResult × State) := do
  let (name, t) ← readString (fun u _ => u) (arg0 s) s
  match fopen name (arg1 s) t with
  | (some handle, t) => return (.ret (handle.setWidth 32), t)
  | (none, t) => return (.ret sentinel, t)

/-- fread (R254): at most a2 bytes of file a0 into memory at a1; returns their count, or the sentinel with no memory
written. -/
def sysFread (s : State) : Except Stop (SysResult × State) :=
  match fread (arg0 s) (arg2 s) s with
  | (some data, t) => do
    let t ← writeBytes data (arg1 s) t
    return (.ret (BitVec.ofNat 32 data.length), t)
  | (none, t) => .ok (.ret sentinel, t)

/-- fwrite (R255): a2 bytes at a1 into file a0; returns the count the file system took, or the sentinel. -/
def sysFwrite (s : State) : Except Stop (SysResult × State) := do
  let (data, t) ← readBytes (arg2 s).toNat (arg1 s) s
  match fwrite (arg0 s) data t with
  | (some count, t) => return (.ret count, t)
  | (none, t) => return (.ret sentinel, t)

/-- fclose (R256): returns 0, or the sentinel. -/
def sysFclose (s : State) : Except Stop (SysResult × State) :=
  match fclose (arg0 s) s with
  | (true, t) => .ok (.ret 0#32, t)
  | (false, t) => .ok (.ret sentinel, t)

/-- `Dispatch` (R245): the syscall that a7 names, or the sentinel for an unknown number. -/
def dispatch (s : State) : Except Stop (SysResult × State) :=
  match syscallOf (callNumber s) with
  | none => .ok (.ret sentinel, s)
  | some .exit => .ok (.exit (arg0 s), s)
  | some .putchar => sysPutchar s
  | some .getchar => sysGetchar s
  | some .puts => sysPuts s
  | some .readSector => sysReadSector s
  | some .writeSector => sysWriteSector s
  | some .getline => sysGetline s
  | some .fopen => sysFopen s
  | some .fread => sysFread s
  | some .fwrite => sysFwrite s
  | some .fclose => sysFclose s

/-- What ECALL does with the dispatcher's answer (48_system_fence.md R230): return to the next instruction with x10
written, halt with pc and x10 unchanged, or suspend. -/
def applyResult (r : SysResult) (s : State) : State :=
  match r with
  | .ret v => (s.setReg 10#5 v).advance
  | .exit code => halt .exit code s
  | .block p => s.setRunState (.suspended p)

end Sys2Proof.Machine
end

