-- ==== Sys2Proof/Machine/System.lean ====
section
/-! DEFINITION. ECALL, EBREAK and FENCE (48_system_fence.md R230 to R232). -/

namespace Sys2Proof.Machine

/-- ECALL (R230): the dispatcher's outcome. No mode changes, nothing is saved, no vector is taken (R243). -/
def execEcall (s : State) : Host.Outcome State Fault Refusal :=
  outcome do
    let (r, t) ← dispatch s
    return applyResult r t

/-- EBREAK (R231): the engine halts at the EBREAK, exitCode unchanged (D2). -/
def execEbreak (s : State) : Host.Outcome State Fault Refusal :=
  .next (halt .breakpoint s.exitCode s)

/-- FENCE (R232): every ordering already holds, so only `pc <- pc + 4` (D11). -/
def execFence (s : State) : Host.Outcome State Fault Refusal :=
  .next s.advance

end Sys2Proof.Machine
end

