-- ==== Sys2Proof/Machine/Upper.lean ====
section
/-! DEFINITION. The upper-immediate instructions (46_upper_immediate.md R215, R216). -/

namespace Sys2Proof.Machine

/-- LUI (R215): x[rd] <- immU. -/
def execLui (rd : Reg) (imm20 : BitVec 20) (s : State) : Host.Outcome State Fault Refusal :=
  writeResult rd (immU imm20) s

/-- AUIPC (R216): x[rd] <- pc + immU, pc the address of the AUIPC itself. -/
def execAuipc (rd : Reg) (imm20 : BitVec 20) (s : State) : Host.Outcome State Fault Refusal :=
  writeResult rd (s.pc + immU imm20) s

end Sys2Proof.Machine
end

