-- ==== Sys2Proof/Machine/Cycle.lean ====
section
/-! DEFINITION. The execution cycle (40_execution_cycle.md R130 to R138): fetch, decode, execute in Running; the
resumption of a blocked syscall in Suspended (60_exceptions.md R258). -/

namespace Sys2Proof.Machine

/-- Whether `pc` is "a multiple of 4 when read for fetch" (10_state.md R26). -/
def fetchAligned (pc : Word) : Bool := pc.extractLsb' 0 2 == 0#2

/-- Fetch (R131): an ordinary four-byte read at `pc` through the bus, with its read side effects. -/
def fetch (s : State) : Except Stop (Word × State) :=
  if fetchAligned s.pc then memRead s.pc 4 s else .error (.fault .misalignedFetch)

/-- Decode and execute a fetched word (R132); an illegal word is the fatal decode error (60_exceptions.md R240). -/
def executeWord (w : Word) (s : State) : Host.Outcome State Fault Refusal :=
  match decode w with
  | .ok i => exec i s
  | .error _ => .next (raiseDecodeError s)

/-- A step in Running (R130), the checks in the order of 60_exceptions.md R268. -/
def stepRunning (s : State) : Host.Outcome State Fault Refusal :=
  match fetch s with
  | .ok (w, t) => executeWord w t
  | .error (.fault f) => .fault f
  | .error (.refused r) => .refused r

/-- A step in Suspended (60_exceptions.md R258): another attempt at the pending `getline`; a complete line ends it as
its ECALL would have, in Running. Nothing is fetched. -/
def stepSuspended (p : PendingLine) (s : State) : Host.Outcome State Fault Refusal :=
  outcome do
    let (r, t) ← getlineAttempt p s
    return applyResult r (t.setRunState .running)

/-- Put bytes where reads at ascending addresses find them next: a RAM byte in RAM, a byte of a window as the next
answer of its device. -/
def placeBytes : List Byte → Word → State → State
  | [], _, s => s
  | b :: bs, a, s =>
    let t := placeBytes bs (a + 1#32) s
    match route t.windows a with
    | some _ => t.setInputs { t.inputs with devReads := b :: t.inputs.devReads }
    | none => t.setRam (t.ram.write a.toNat b)

/-- Put the four bytes of a word where the next fetch reads them, little-endian (20_memory.md R63). -/
def placeWord (s : State) (w : Nat) : State :=
  placeBytes (bytesOf 4 w) s.pc s

end Sys2Proof.Machine
end

