-- ==== Sys2Proof/Machine/Step.lean ====
section
/-! DEFINITION. `step()`, "the single transition function" (40_execution_cycle.md R130). -/

namespace Sys2Proof.Machine

/-- One step: nothing in Halted (R137), the pending syscall in Suspended, one instruction in Running. -/
def step (s : State) : Host.Outcome State Fault Refusal :=
  match s.runState with
  | .halted => .next s
  | .suspended p => stepSuspended p s
  | .running => stepRunning s

/-- `s` with the instruction `w` of `nbits` bits (the bits above them 0) at `pc`, where `step` fetches next.
It stands for the host's load of a program (20_memory.md R80, log 20). -/
def State.withFetchWord (s : State) (nbits w : Nat) : State :=
  placeWord s (w % 2 ^ nbits)

end Sys2Proof.Machine
end

