-- ==== Sys2Proof/Machine/HostInterface.lean ====
section
/-! DEFINITION. The host control interface (70_reset_and_hazards.md R308 to R313) beside construction
(`State.construct`) and `step`: load, set pc, set a register, run, inspect. -/

namespace Sys2Proof.Machine

/-- `loadProgram(bytes, atAddress)` (20_memory.md R80, R309): bytes to RAM offsets, no register and not pc; refused when
they do not fit. -/
def loadProgram (bytes : List Byte) (atAddress : Nat) (s : State) : Except Refusal State :=
  if atAddress + bytes.length ≤ s.ramSize then .ok (s.setRam (s.ram.writeList atAddress bytes))
  else .error .loadDoesNotFit

/-- `set pc` (R302, R310). -/
def hostSetPc (t : Word) (s : State) : State := s.setPc t

/-- The register file's `set(i, v)`, which the host may call between steps (R310). -/
def hostSetReg (r : Reg) (v : Word) (s : State) : State := s.setReg r v

/-- What arrives from outside between steps (R312): the answers the surroundings are set to give from now on. -/
def hostSupply (i : EnvInputs) (s : State) : State := s.setInputs i

/-- `run(maxSteps)` (40_execution_cycle.md R135): step until Halted or the budget is used. -/
def run : Nat → State → Host.Outcome State Fault Refusal
  | 0, s => .next s
  | n + 1, s =>
    if s.runState = .halted then .next s
    else match step s with
      | .next t => run n t
      | .fault f => .fault f
      | .refused r => .refused r

end Sys2Proof.Machine
end

