-- ==== Sys2Proof/Safety.lean ====
section
/-! DEFINITION. The terms claims are stated in: what is reachable through the bus, what a run keeps (the invariant), and
the frames, which say what an operation leaves unchanged. -/

namespace Sys2Proof.Machine

/-! ## Memory as claims read it -/

/-- The RAM byte at an offset. -/
def State.ramByte (s : State) (a : Nat) : Byte := s.ram.read a

/-- A byte access at `a` completes: a window holds it, or it is a RAM offset below the RAM size (20_memory.md R55, R56). -/
def State.Accessible (s : State) (a : Word) : Prop :=
  route s.windows a ≠ none ∨ a.toNat < s.ramSize

/-- A byte access at `a` reaches RAM, in range. -/
def State.InRam (s : State) (a : Word) : Prop :=
  route s.windows a = none ∧ a.toNat < s.ramSize

/-- The `i`-th byte address of an access at `a`, modulo 2^32 (20_memory.md R57). -/
def byteAddress (a : Word) (i : Nat) : Word := a + BitVec.ofNat 32 i

/-- Every byte of an access of `n` bytes at `a` completes. -/
def State.AccessibleRange (s : State) (a : Word) (n : Nat) : Prop :=
  ∀ i, i < n → s.Accessible (byteAddress a i)

/-- Every byte of an access of `n` bytes at `a` reaches RAM, in range. -/
def State.RamRange (s : State) (a : Word) (n : Nat) : Prop :=
  ∀ i, i < n → s.InRam (byteAddress a i)

/-- The `n` RAM bytes at ascending addresses from `a`. -/
def State.ramBytes (s : State) (a : Word) (n : Nat) : List Byte :=
  (List.range n).map fun i => s.ramByte (byteAddress a i).toNat

/-- The byte addresses of an access that reach a peripheral, ascending. -/
def State.deviceAddresses (s : State) (a : Word) (n : Nat) : List Word :=
  ((List.range n).map (byteAddress a)).filter fun b => route s.windows b ≠ none

/-! ## What an access finds and what it passes to a peripheral -/

/-- The transactions of reading one byte: in a window one `devRead8` with its answer, in RAM none (20_memory.md R56, R57). -/
def State.readEvent (s : State) (a : Word) (b : Byte) : List EnvEvent :=
  if route s.windows a = none then [] else [.devRead a b]

/-- The transactions of reading `n` bytes at ascending addresses from `a`. -/
def State.readEvents (s : State) (a : Word) (n : Nat) (byte : Nat → Byte) : List EnvEvent :=
  (List.range n).flatMap fun k => s.readEvent (byteAddress a k) (byte k)

/-- The transactions of writing one byte: in a window one `devWrite8`, in RAM none (20_memory.md R56, R58). -/
def State.writeEvent (s : State) (a : Word) (b : Byte) : List EnvEvent :=
  if route s.windows a = none then [] else [.devWrite a b]

/-- The transactions of writing bytes at ascending addresses from `a`. -/
def State.writeEvents (s : State) (a : Word) (bs : List Byte) : List EnvEvent :=
  (List.range bs.length).flatMap fun k => s.writeEvent (byteAddress a k) (bs.getD k 0#8)

/-- None of the `n` bytes from `a` is in the graphics window. -/
def State.AvoidsGraphics (s : State) (a : Word) (n : Nat) : Prop :=
  ∀ k, k < n → route s.windows (byteAddress a k) ≠ some .graphics

/-- The address of byte `j` of the cell of column `col`, row `row` in the text VRAM: `0x10001000 + 2*(80*r + c)` for the
character, one more for the attribute (20_memory.md R62; all but cell (0,0) is log 34). -/
def vramAddress (col : Fin 80) (row : Fin 25) (j : Fin 2) : Nat := 0x10001000 + 2 * (80 * row.val + col.val) + j.val

/-- Byte 0 of a cell is the character, byte 1 the attribute (20_memory.md R62). -/
def TextConsole.cellByte (c : TextConsole) (col : Fin 80) (row : Fin 25) (j : Fin 2) : Byte :=
  if j = 0 then (TextConsole.cellAt c col row).char else (TextConsole.cellAt c col row).attr

/-- Those of the `n` bytes from `a` that are in the graphics window are in its text VRAM. -/
def State.GraphicsOnlyInVram (s : State) (a : Word) (n : Nat) : Prop :=
  ∀ k, k < n → route s.windows (byteAddress a k) = some .graphics →
    ∃ col row j, (byteAddress a k).toNat = vramAddress col row j

/-- `d` is the console `c` with those of the bytes `bs`, written from `a` on, that reach the text VRAM in their places; no
other byte of a cell differs, nor the cursor (20_memory.md R62; log 34). -/
structure WritesVram (s : State) (a : Word) (bs : List Byte) (c d : TextConsole) : Prop where
  col     : d.col = c.col
  row     : d.row = c.row
  written : ∀ i (h : i < bs.length) col row j, route s.windows (byteAddress a i) = some .graphics →
    (byteAddress a i).toNat = vramAddress col row j → TextConsole.cellByte d col row j = bs[i]
  others  : ∀ col row j,
    (∀ i, i < bs.length → route s.windows (byteAddress a i) = some .graphics →
      (byteAddress a i).toNat ≠ vramAddress col row j) →
    TextConsole.cellByte d col row j = TextConsole.cellByte c col row j

/-- What writing `bs` from `a` on makes of the console `c`: the same where no byte reaches the graphics window; the cells
written where those that do reach it are in the text VRAM; free otherwise (20_memory.md R62; log 15, log 34). -/
structure ConsoleAfterWrites (s : State) (a : Word) (bs : List Byte) (c d : TextConsole) : Prop where
  same : s.AvoidsGraphics a bs.length → d = c
  vram : s.GraphicsOnlyInVram a bs.length → WritesVram s a bs c d

/-- `byte k` is what an access of `n` bytes at `a` finds at its `k`-th address: the RAM byte, or the device's answer, which
is the oldest one set that the bytes before it have not taken, else the free value at the history so far (20_memory.md
R57; log 5). -/
def State.Finds (s : State) (a : Word) (n : Nat) (byte : Nat → Byte) : Prop :=
  ∀ k, k < n → byte k =
    if route s.windows (byteAddress a k) = none then s.ramByte (byteAddress a k).toNat
    else (draw (s.inputs.devReads.drop (s.deviceAddresses a k).length)
      (Config.devRead8 (s.events ++ s.readEvents a k byte) (byteAddress a k))).1

/-- `u 0`, `u 1`, … are the states in which a string scan from `a` reads its bytes `byte 0`, `byte 1`, …; the first `n` are
not zero, and `each` is done with each of them before the next is read (60_exceptions.md R249, R253). -/
structure Scans (each : State → Byte → State) (a : Word) (n : Nat) (u : Nat → State) (byte : Nat → Byte) : Prop where
  nonzero : ∀ i, i < n → byte i ≠ 0#8
  reads   : ∀ i, i < n → ∃ v, byteRead (byteAddress a i) (u i) = .ok (byte i, v) ∧ u (i + 1) = each v (byte i)

/-- Byte `i` of a value: bits `8i+7` to `8i` (20_memory.md R58). -/
def byteOf (v : Word) (i : Nat) : Byte := BitVec.ofNat 8 (v.toNat / 256 ^ i)

/-! ## Frames -/

/-- No RAM byte differs. -/
def SameRam (s t : State) : Prop := ∀ a, t.ramByte a = s.ramByte a

/-- No register differs. -/
def SameRegs (s t : State) : Prop := ∀ r, t.getReg r = s.getReg r

/-- No register differs but perhaps `rd`. -/
def SameRegsBut (rd : Reg) (s t : State) : Prop := ∀ r, r ≠ rd → t.getReg r = s.getReg r

/-- The engine's state and its halt record are the same (10_state.md R27, R28). -/
structure SameEngine (s t : State) : Prop where
  runState  : t.runState = s.runState
  halted    : t.halted = s.halted
  exitCode  : t.exitCode = s.exitCode
  haltCause : t.haltCause = s.haltCause

/-- What construction fixed is the same (00_scope.md R7, 10_state.md R30). -/
structure SameMap (s t : State) : Prop where
  ramSize         : t.ramSize = s.ramSize
  windows         : t.windows = s.windows
  decodeErrorCode : t.decodeErrorCode = s.decodeErrorCode

/-- Nothing passed between CORE and its surroundings. -/
structure SameSurroundings (s t : State) : Prop where
  consoleOutput : t.consoleOutput = s.consoleOutput
  console       : t.console = s.console
  inputs        : t.inputs = s.inputs
  events        : t.events = s.events

/-- From `s` to `t` exactly `rd` and `pc` change: `rd` gets `v` (x0 keeps 0) and `pc` gets `next`. -/
structure WritesReg (rd : Reg) (v next : Word) (s t : State) : Prop where
  result       : t.getReg rd = if rd = 0#5 then 0#32 else v
  regs         : SameRegsBut rd s t
  pc           : t.pc = next
  ram          : SameRam s t
  engine       : SameEngine s t
  map          : SameMap s t
  surroundings : SameSurroundings s t

/-- From `s` to `t` exactly `pc` changes, to `next`. -/
structure MovesPc (next : Word) (s t : State) : Prop where
  pc           : t.pc = next
  regs         : SameRegs s t
  ram          : SameRam s t
  engine       : SameEngine s t
  map          : SameMap s t
  surroundings : SameSurroundings s t

/-- From `s` to `t` the engine halts with a cause and a code, and nothing else changes (00_scope.md R9). -/
structure Halts (cause : HaltCause) (code : Word) (s t : State) : Prop where
  runState     : t.runState = .halted
  halted       : t.halted = true
  haltCause    : t.haltCause = cause
  exitCode     : t.exitCode = code
  pc           : t.pc = s.pc
  regs         : SameRegs s t
  ram          : SameRam s t
  map          : SameMap s t
  surroundings : SameSurroundings s t

/-- An ECALL returned `v`: x10 and `pc` are written, no other register, the engine runs on (60_exceptions.md R245). -/
structure Returns (v : Word) (s t : State) : Prop where
  result : t.getReg 10#5 = v
  regs   : SameRegsBut 10#5 s t
  pc     : t.pc = s.pc + 4#32
  engine : SameEngine s t
  map    : SameMap s t

/-- `t` holds the bytes `bs` in RAM from address `a` on, and every other RAM byte is that of `s`. -/
structure StoresBytes (bs : List Byte) (a : Word) (s t : State) : Prop where
  stored : ∀ i (h : i < bs.length), t.ramByte (byteAddress a i).toNat = bs[i]
  others : ∀ b, (∀ i, i < bs.length → b ≠ (byteAddress a i).toNat) → t.ramByte b = s.ramByte b

/-- `t` holds those bytes of `bs`, written from address `a` on, whose addresses reach RAM; every other RAM byte is that of
`s`, also one at an offset that a window hides (20_memory.md R54, R58). -/
structure StoresThroughBus (bs : List Byte) (a : Word) (s t : State) : Prop where
  stored : ∀ i (h : i < bs.length), t.ramByte (byteAddress a i).toNat =
    if route s.windows (byteAddress a i) = none then bs[i] else s.ramByte (byteAddress a i).toNat
  others : ∀ b, (∀ i, i < bs.length → b ≠ (byteAddress a i).toNat) → t.ramByte b = s.ramByte b

/-! ## The invariant -/

/-- The constraints on the window lengths (20_memory.md R61). -/
def LegalWindows (windows : List Window) : Prop :=
  ∃ graphicsLen storageLen keyboardLen,
    windows = platformWindows graphicsLen storageLen keyboardLen ∧
    0x10000 < graphicsLen ∧ graphicsLen ≤ 0x10000000 ∧
    0x10000 < storageLen ∧ storageLen ≤ 0x10000000 ∧
    1 ≤ keyboardLen ∧ Config.keyboardBase + keyboardLen ≤ 2 ^ 32

/-- What construction establishes and every step keeps. -/
structure State.Inv (s : State) : Prop where
  /-- RAM is in canonical form. -/
  ramCanonical : Memory.wf s.ram
  /-- No byte is held at an offset RAM does not have (10_state.md R29). -/
  ramInside    : ∀ c ∈ s.ram, c.1 < s.ramSize
  /-- `0 < MEM_SIZE <= 2^32` (00_scope.md R7). -/
  ramSize      : 0 < s.ramSize ∧ s.ramSize ≤ 2 ^ 32
  /-- The windows are legal (20_memory.md R61). -/
  windows      : LegalWindows s.windows
  /-- The stored entry of x0 is 0 (10_state.md R21). -/
  x0           : s.regs[0] = 0#32
  /-- "`pc[0]` is always 0 if it was 0 at launch" (10_state.md R26). -/
  pcEven       : s.pc.getLsbD 0 = false
  /-- "`halted` is true exactly when `run_state = Halted`" (10_state.md R28). -/
  haltedFlag   : s.halted = true ↔ s.runState = .halted
  /-- The halt cause is None exactly when not halted (10_state.md R28). -/
  haltCause    : s.haltCause = .none ↔ s.halted = false
  /-- The exit code keeps its reset value until the engine halts (10_state.md R28). -/
  exitCode     : s.halted = false → s.exitCode = 0#32
  /-- A pending line fits below its maxlen with its NUL and holds no zero byte. That an unfinished line does so already is
  the model's choice (log 7, the spec's decision D24); 60_exceptions.md R252 says it of the completed line. -/
  pendingLine  : ∀ p, s.pending = some p → p.chars.length + 1 ≤ p.maxlen.toNat ∧ ∀ b ∈ p.chars, b ≠ 0#8

/-! ## Terms about decoding and about one step -/

/-- Every word with these fixed bits is read as `f` of it (30_encoding.md R104). -/
def DecodesAs (mask bits : Word) (f : Word → Instr) : Prop :=
  ∀ w, w &&& mask = bits → decode w = .ok (f w)

end Sys2Proof.Machine

namespace Sys2Proof

/-- The register an instruction's rule may write (10_state.md R23; an ECALL writes x10 at most, 60_exceptions.md R245). -/
def Instr.destination : Instr → Option Reg
  | .add rd _ _ => some rd
  | .sub rd _ _ => some rd
  | .sll rd _ _ => some rd
  | .slt rd _ _ => some rd
  | .sltu rd _ _ => some rd
  | .xor rd _ _ => some rd
  | .srl rd _ _ => some rd
  | .sra rd _ _ => some rd
  | .or rd _ _ => some rd
  | .and rd _ _ => some rd
  | .addi rd _ _ => some rd
  | .slti rd _ _ => some rd
  | .sltiu rd _ _ => some rd
  | .xori rd _ _ => some rd
  | .ori rd _ _ => some rd
  | .andi rd _ _ => some rd
  | .slli rd _ _ => some rd
  | .srli rd _ _ => some rd
  | .srai rd _ _ => some rd
  | .lb rd _ _ => some rd
  | .lh rd _ _ => some rd
  | .lw rd _ _ => some rd
  | .lbu rd _ _ => some rd
  | .lhu rd _ _ => some rd
  | .sb _ _ _ => none
  | .sh _ _ _ => none
  | .sw _ _ _ => none
  | .beq _ _ _ => none
  | .bne _ _ _ => none
  | .blt _ _ _ => none
  | .bge _ _ _ => none
  | .bltu _ _ _ => none
  | .bgeu _ _ _ => none
  | .lui rd _ => some rd
  | .auipc rd _ => some rd
  | .jal rd _ => some rd
  | .jalr rd _ _ => some rd
  | .ecall => some 10#5
  | .ebreak => none
  | .fence => none

/-- The instruction is a store (44_stores.md R190). -/
def Instr.IsStore (i : Instr) : Prop :=
  ∃ rs2 rs1 imm, i = .sb rs2 rs1 imm ∨ i = .sh rs2 rs1 imm ∨ i = .sw rs2 rs1 imm

/-- The instruction is a load (43_loads.md R180). -/
def Instr.IsLoad (i : Instr) : Prop :=
  ∃ rd rs1 imm, i = .lb rd rs1 imm ∨ i = .lh rd rs1 imm ∨ i = .lw rd rs1 imm ∨ i = .lbu rd rs1 imm ∨ i = .lhu rd rs1 imm

end Sys2Proof

namespace Sys2Proof.Machine

/-- The syscalls that write guest memory: read_sector, getline, fread (10_state.md R29). -/
def WritesGuestMemory (number : Word) : Prop := number = 4#32 ∨ number = 6#32 ∨ number = 8#32

/-- In `s`, which is Running, the step fetches a word that decodes to `i`; `t` is `s` after that fetch. -/
def Fetches (s : State) (i : Instr) (t : State) : Prop :=
  s.runState = .running ∧ ∃ w, fetch s = .ok (w, t) ∧ decode w = .ok i

end Sys2Proof.Machine
end

