-- ==== Sys2Proof/Certificates/Slice0/Obligations.lean ====
section
/-! DEFINITION. The statements about the model, for the provers. Each docstring names the rule of spec/ it formalises,
or says what choice it rests on. -/

open Sys2Proof Sys2Proof.Machine

/-! ## Reset and the invariant -/

/-- Every state that construction makes, with any parameters, has the reset values of 10_state.md R38 and the windows
of 20_memory.md R62. The zeros of x1 to x31, pc, RAM, exitCode and consoleOutput are the spec's decision D13 (log 4), and the
cursor at (0,0) is deduced (log 16). -/
def Obligations.ConstructionGivesResetValues : Prop :=
  ∀ memSize graphicsLen storageLen keyboardLen code,
    let s := State.construct memSize graphicsLen storageLen keyboardLen code
    (∀ r, s.getReg r = 0#32) ∧ s.pc = 0#32 ∧ s.runState = .running ∧ s.halted = false ∧ s.exitCode = 0#32 ∧
    s.haltCause = .none ∧ s.pending = none ∧ (∀ a, s.ramByte a = 0x00#8) ∧ s.ramSize = memSize ∧
    s.decodeErrorCode = code ∧ s.consoleOutput = [] ∧ s.console.col = 0 ∧ s.console.row = 0 ∧
    s.windows.map Window.base = [0x10000000, 0x20000000, 0x30000000] ∧
    s.windows.map Window.len = [graphicsLen, storageLen, keyboardLen] ∧
    s.windows.map Window.device = [.graphics, .storage, .keyboard]

/-- The invariant holds right after reset, and after construction with any legal parameters (R61, R7). -/
def Obligations.ConstructionMeetsInvariant : Prop :=
  State.reset.Inv ∧
  ∀ memSize graphicsLen storageLen keyboardLen code,
    0 < memSize → memSize ≤ 2 ^ 32 → LegalWindows (platformWindows graphicsLen storageLen keyboardLen) →
    (State.construct memSize graphicsLen storageLen keyboardLen code).Inv

/-- Every step keeps the invariant: canonical RAM inside the RAM size, legal windows, x0 zero, an even pc, and a halt
record that agrees with the engine's state (10_state.md R21, R26, R28, R29); and a pending line, not yet finished, that fits
below its maxlen with its NUL and holds no zero byte. The last is the model's choice (log 7, the spec's decision D24):
60_exceptions.md R252 says it of the completed line only. -/
def Obligations.StepKeepsInvariant : Prop :=
  ∀ s t, s.Inv → step s = .next t → t.Inv

/-! ## Encoding -/

/-- Decoding the encoding of a well-formed instruction gives it back, as a word and as bytes in memory order with any
bytes after them (30_encoding.md R90, R92). -/
def Obligations.DecodeOfEncodeGivesInstruction : Prop :=
  ∀ i : Instr, i.wellFormed = true →
    decode (encode i) = .ok i ∧
    ∀ rest, decodeBytes (bytesOf 4 (encode i).toNat ++ rest) = .ok (i, rest)

/-- A word that decodes to an instruction is that instruction's encoding, bit for bit, but for ECALL, EBREAK and FENCE,
whose other bits decode does not examine; and what a word decodes to is well-formed: branch and JAL offsets are even
(30_encoding.md R98, R100, R105). -/
def Obligations.EncodeOfDecodeGivesWord : Prop :=
  ∀ w i, decode w = .ok i →
    i.wellFormed = true ∧ (i ≠ .ecall → i ≠ .ebreak → i ≠ .fence → encode i = w)

/-- "An instruction word `w` is instruction M exactly when `(w & mask) = match`" (30_encoding.md R104). -/
def Obligations.DecodeAgreesWithOpcodeTable : Prop :=
  ∀ w row, row ∈ opcodeTable →
    (w &&& row.mask = row.bits ↔ ∃ i, decode w = .ok i ∧ i.mnemonic = row.mnemonic)

/-- Decoding rejects exactly the words no row of the table matches, and at most one row matches a word
(30_encoding.md R105). -/
def Obligations.DecodeRejectsExactlyUnmatchedWords : Prop :=
  ∀ w, ((∃ r, decode w = .error r) ↔ ∀ row ∈ opcodeTable, w &&& row.mask ≠ row.bits) ∧
    ∀ row ∈ opcodeTable, ∀ row' ∈ opcodeTable, w &&& row.mask = row.bits → w &&& row'.mask = row'.bits → row = row'

/-- The value of every immediate, as a sum of the instruction's bits (30_encoding.md R96 to R101): sign-extended I, S, B
and J, U above twelve zeros, the unsigned shift amount. -/
def Obligations.ImmediatesAreAssembledFromTheirBits : Prop :=
  ∀ w : Word,
    let sign : Int := (w.extractLsb' 31 1).toNat
    (imm12 (immIField w)).toInt = (w.extractLsb' 20 11).toNat - 2048 * sign ∧
    (imm12 (immSField w)).toInt = (w.extractLsb' 7 5).toNat + 32 * (w.extractLsb' 25 6).toNat - 2048 * sign ∧
    (immB (immBField w)).toInt = 2 * (w.extractLsb' 8 4).toNat + 32 * (w.extractLsb' 25 6).toNat
      + 2048 * (w.extractLsb' 7 1).toNat - 4096 * sign ∧
    immU (immUField w) = w &&& 0xFFFFF000#32 ∧
    (immJ (immJField w)).toInt = 2 * (w.extractLsb' 21 10).toNat + 2048 * (w.extractLsb' 20 1).toNat
      + 4096 * (w.extractLsb' 12 8).toNat - 1048576 * sign ∧
    (shamtField w).toNat = w.toNat / 2 ^ 20 % 32

/-- A few words written out from the encodings of 30_encoding.md R104 decode to the instructions they stand for (the
vectors D1 to D24 of 95_test_vectors.md). -/
def Obligations.SampleWordsDecode : Prop :=
  decode 0x002081B3 = .ok (.add 3 1 2) ∧ decode 0x4020D1B3 = .ok (.sra 3 1 2) ∧
  decode 0xFFF00093 = .ok (.addi 1 0 0xFFF) ∧ decode 0x41F0D193 = .ok (.srai 3 1 31) ∧
  decode 0x0080A183 = .ok (.lw 3 1 8) ∧ decode 0xFE20AE23 = .ok (.sw 2 1 0xFFC) ∧
  decode 0xFE209EE3 = .ok (.bne 1 2 0x1FFC) ∧ decode 0x123452B7 = .ok (.lui 5 0x12345) ∧
  decode 0xFF9FF06F = .ok (.jal 0 0x1FFFF8) ∧ decode 0x00408167 = .ok (.jalr 2 1 4) ∧
  decode 0x00000073 = .ok .ecall ∧ decode 0x00100073 = .ok .ebreak ∧ decode 0x0FF0000F = .ok .fence

/-! ## The execution cycle -/

/-- A step in Running executes the instruction that the word fetched at pc decodes to, in the state the fetch leaves;
with the four bytes in RAM the fetch changes nothing (40_execution_cycle.md R130, R131, R132). -/
def Obligations.StepRunsDecodedInstruction : Prop :=
  (∀ s i t, Fetches s i t → step s = exec i t) ∧
  (∀ s i, s.runState = .running → s.pc.toNat % 4 = 0 → s.RamRange s.pc 4 →
    decodeBytes (s.ramBytes s.pc 4) = .ok (i, []) → Fetches s i s ∧ step s = exec i s)

/-- "The instruction word is the little-endian word at `pc`" (30_encoding.md R90), whose low byte is the byte at pc. With its
four bytes in RAM the fetch changes nothing. Where bytes of it are in a window, each is read from its device, once, in
ascending order, as a load reads it, and nothing else changes but the console, where a byte is in the graphics window outside
the text VRAM (40_execution_cycle.md R131, 20_memory.md R68). Which answer a device gives, the oldest one set or else the
free value, is the model's choice (log 5); order and routing are the spec's decisions D5 and D6 (log 17); that a read of the
text VRAM leaves the console alone is deduced (log 34). -/
def Obligations.FetchReadsLittleEndianWordAtPc : Prop :=
  (∀ s, s.pc.toNat % 4 = 0 → s.RamRange s.pc 4 →
    ∃ w, fetch s = .ok (w, s) ∧ ∀ i, i < 4 → byteOf w i = s.ramByte (byteAddress s.pc i).toNat) ∧
  ∀ s, s.pc.toNat % 4 = 0 → s.AccessibleRange s.pc 4 →
    ∃ byte w t, s.Finds s.pc 4 byte ∧ fetch s = .ok (w, t) ∧ (∀ i, i < 4 → byteOf w i = byte i) ∧
      t.events = s.events ++ s.readEvents s.pc 4 byte ∧
      t.inputs = { s.inputs with devReads := s.inputs.devReads.drop (s.deviceAddresses s.pc 4).length } ∧
      t.pc = s.pc ∧ SameRegs s t ∧ SameRam s t ∧ SameEngine s t ∧ SameMap s t ∧ t.consoleOutput = s.consoleOutput ∧
      (s.GraphicsOnlyInVram s.pc 4 → t.console = s.console)

/-- A step in Running stops by name at a misaligned pc, before anything else, and at a fetch that touches an
out-of-range RAM byte (60_exceptions.md R268; the spec's decisions D3, D4 and D22: log 10, log 11, log 27). -/
def Obligations.FetchStopsByName : Prop :=
  ∀ s, s.runState = .running →
    (s.pc.toNat % 4 ≠ 0 → step s = .fault .misalignedFetch) ∧
    (s.pc.toNat % 4 = 0 → ¬ s.AccessibleRange s.pc 4 → step s = .fault .ramOutOfRange)

/-- A word that no instruction has halts the engine with cause DecodeError and the configured exit code; pc, registers
and RAM keep their values (60_exceptions.md R240; the spec's decisions D1 and D17: log 12). -/
def Obligations.IllegalWordHaltsEngine : Prop :=
  ∀ s w t r, s.runState = .running → fetch s = .ok (w, t) → decode w = .error r →
    ∃ u, step s = .next u ∧ Halts .decodeError s.decodeErrorCode t u ∧ u.pc = s.pc ∧ SameRegs s u ∧ SameRam s u

/-- "A step in Halted does nothing" (40_execution_cycle.md R137): no fetch, no bus access, no change. -/
def Obligations.StepInHaltedChangesNothing : Prop :=
  ∀ s, s.runState = .halted → step s = .next s ∧ ∀ n, run n s = .next s

/-- `run(maxSteps)` stops exactly at the budget or at Halted, whichever comes first (40_execution_cycle.md R135): what it
answers is reached by `k` steps, none of them from Halted, and `k` is the budget unless it has halted; and a run can be
cut in two. What counts as a step is the spec's decision D20 (log 29). -/
def Obligations.RunStopsAtBudgetOrHalt : Prop :=
  (∀ n s t, run n s = .next t → ∃ k, k ≤ n ∧ (k = n ∨ t.runState = .halted) ∧
    ∃ states : List State, states.length = k + 1 ∧ states.head? = some s ∧ states.getLast? = some t ∧
      ∀ j (h : j + 1 < states.length), states[j].runState ≠ .halted ∧ step states[j] = .next states[j + 1]) ∧
  (∀ m n s t, run m s = .next t → run (m + n) s = run n t)

/-! ## Register-register and immediate instructions -/

/-- ADD, SUB and ADDI write the sum or difference modulo 2^32 and change nothing else but pc; the words of R104 decode to
them (41_alu_register.md R141, R142, 42_alu_immediate.md R161). -/
def Obligations.AddAndSubtractResults : Prop :=
  DecodesAs 0xFE00707F 0x00000033 (fun w => .add (w.extractLsb' 7 5) (w.extractLsb' 15 5) (w.extractLsb' 20 5)) ∧
  DecodesAs 0xFE00707F 0x40000033 (fun w => .sub (w.extractLsb' 7 5) (w.extractLsb' 15 5) (w.extractLsb' 20 5)) ∧
  DecodesAs 0x0000707F 0x00000013 (fun w => .addi (w.extractLsb' 7 5) (w.extractLsb' 15 5) (w.extractLsb' 20 12)) ∧
  ∀ rd rs1 rs2 (imm : BitVec 12) s,
    (∃ t, exec (.add rd rs1 rs2) s = .next t ∧
      WritesReg rd (BitVec.ofNat 32 ((s.getReg rs1).toNat + (s.getReg rs2).toNat)) (s.pc + 4#32) s t) ∧
    (∃ t, exec (.sub rd rs1 rs2) s = .next t ∧
      WritesReg rd (BitVec.ofInt 32 ((s.getReg rs1).toInt - (s.getReg rs2).toInt)) (s.pc + 4#32) s t) ∧
    (∃ t, exec (.addi rd rs1 imm) s = .next t ∧
      WritesReg rd (BitVec.ofInt 32 ((s.getReg rs1).toInt + imm.toInt)) (s.pc + 4#32) s t)

/-- SLL, SRL, SRA, SLLI, SRLI and SRAI: multiplication by a power of two modulo 2^32, and floor division of the unsigned
or the signed value; a register's shift count is its low 5 bits (R143, R147, R148, R167, R168, R169). -/
def Obligations.ShiftResults : Prop :=
  DecodesAs 0xFE00707F 0x00001033 (fun w => .sll (w.extractLsb' 7 5) (w.extractLsb' 15 5) (w.extractLsb' 20 5)) ∧
  DecodesAs 0xFE00707F 0x00005033 (fun w => .srl (w.extractLsb' 7 5) (w.extractLsb' 15 5) (w.extractLsb' 20 5)) ∧
  DecodesAs 0xFE00707F 0x40005033 (fun w => .sra (w.extractLsb' 7 5) (w.extractLsb' 15 5) (w.extractLsb' 20 5)) ∧
  DecodesAs 0xFE00707F 0x00001013 (fun w => .slli (w.extractLsb' 7 5) (w.extractLsb' 15 5) (w.extractLsb' 20 5)) ∧
  DecodesAs 0xFE00707F 0x00005013 (fun w => .srli (w.extractLsb' 7 5) (w.extractLsb' 15 5) (w.extractLsb' 20 5)) ∧
  DecodesAs 0xFE00707F 0x40005013 (fun w => .srai (w.extractLsb' 7 5) (w.extractLsb' 15 5) (w.extractLsb' 20 5)) ∧
  ∀ rd rs1 rs2 (shamt : BitVec 5) s,
    let a := s.getReg rs1
    let count := (s.getReg rs2).toNat % 32
    (∃ t, exec (.sll rd rs1 rs2) s = .next t ∧
      WritesReg rd (BitVec.ofNat 32 (a.toNat * 2 ^ count)) (s.pc + 4#32) s t) ∧
    (∃ t, exec (.srl rd rs1 rs2) s = .next t ∧
      WritesReg rd (BitVec.ofNat 32 (a.toNat / 2 ^ count)) (s.pc + 4#32) s t) ∧
    (∃ t, exec (.sra rd rs1 rs2) s = .next t ∧
      WritesReg rd (BitVec.ofInt 32 (a.toInt / 2 ^ count)) (s.pc + 4#32) s t) ∧
    (∃ t, exec (.slli rd rs1 shamt) s = .next t ∧
      WritesReg rd (BitVec.ofNat 32 (a.toNat * 2 ^ shamt.toNat)) (s.pc + 4#32) s t) ∧
    (∃ t, exec (.srli rd rs1 shamt) s = .next t ∧
      WritesReg rd (BitVec.ofNat 32 (a.toNat / 2 ^ shamt.toNat)) (s.pc + 4#32) s t) ∧
    (∃ t, exec (.srai rd rs1 shamt) s = .next t ∧
      WritesReg rd (BitVec.ofInt 32 (a.toInt / 2 ^ shamt.toNat)) (s.pc + 4#32) s t)

/-- SLT, SLTU and SLTI write 1 or 0: the signed, the unsigned and the signed comparison (R144, R145, R162). -/
def Obligations.ComparisonResults : Prop :=
  DecodesAs 0xFE00707F 0x00002033 (fun w => .slt (w.extractLsb' 7 5) (w.extractLsb' 15 5) (w.extractLsb' 20 5)) ∧
  DecodesAs 0xFE00707F 0x00003033 (fun w => .sltu (w.extractLsb' 7 5) (w.extractLsb' 15 5) (w.extractLsb' 20 5)) ∧
  DecodesAs 0x0000707F 0x00002013 (fun w => .slti (w.extractLsb' 7 5) (w.extractLsb' 15 5) (w.extractLsb' 20 12)) ∧
  ∀ rd rs1 rs2 (imm : BitVec 12) s,
    (∃ t, exec (.slt rd rs1 rs2) s = .next t ∧
      WritesReg rd (if (s.getReg rs1).toInt < (s.getReg rs2).toInt then 1#32 else 0#32) (s.pc + 4#32) s t) ∧
    (∃ t, exec (.sltu rd rs1 rs2) s = .next t ∧
      WritesReg rd (if (s.getReg rs1).toNat < (s.getReg rs2).toNat then 1#32 else 0#32) (s.pc + 4#32) s t) ∧
    (∃ t, exec (.slti rd rs1 imm) s = .next t ∧
      WritesReg rd (if (s.getReg rs1).toInt < imm.toInt then 1#32 else 0#32) (s.pc + 4#32) s t)

/-- SLTIU compares unsigned with the immediate sign-extended to 32 bits first: a negative immediate stands for
2^32 plus its value (42_alu_immediate.md R163; the spec's decision D8: log 23). -/
def Obligations.SltiuComparesWithSignExtendedImmediate : Prop :=
  DecodesAs 0x0000707F 0x00003013 (fun w => .sltiu (w.extractLsb' 7 5) (w.extractLsb' 15 5) (w.extractLsb' 20 12)) ∧
  ∀ rd rs1 (imm : BitVec 12) s, ∃ t, exec (.sltiu rd rs1 imm) s = .next t ∧
    WritesReg rd
      (if ((s.getReg rs1).toNat : Int) < (if imm.toInt < 0 then 2 ^ 32 + imm.toInt else imm.toInt) then 1#32 else 0#32)
      (s.pc + 4#32) s t

/-- XOR, OR, AND and their immediate forms, bit by bit; the immediate's bit 11 stands for every bit above it
(R146, R149, R150, R164, R165, R166). -/
def Obligations.BitwiseResults : Prop :=
  DecodesAs 0xFE00707F 0x00004033 (fun w => .xor (w.extractLsb' 7 5) (w.extractLsb' 15 5) (w.extractLsb' 20 5)) ∧
  DecodesAs 0xFE00707F 0x00006033 (fun w => .or (w.extractLsb' 7 5) (w.extractLsb' 15 5) (w.extractLsb' 20 5)) ∧
  DecodesAs 0xFE00707F 0x00007033 (fun w => .and (w.extractLsb' 7 5) (w.extractLsb' 15 5) (w.extractLsb' 20 5)) ∧
  DecodesAs 0x0000707F 0x00004013 (fun w => .xori (w.extractLsb' 7 5) (w.extractLsb' 15 5) (w.extractLsb' 20 12)) ∧
  DecodesAs 0x0000707F 0x00006013 (fun w => .ori (w.extractLsb' 7 5) (w.extractLsb' 15 5) (w.extractLsb' 20 12)) ∧
  DecodesAs 0x0000707F 0x00007013 (fun w => .andi (w.extractLsb' 7 5) (w.extractLsb' 15 5) (w.extractLsb' 20 12)) ∧
  ∀ rd rs1 rs2 (imm : BitVec 12) s,
    let a := s.getReg rs1
    let b := s.getReg rs2
    (∃ t v, exec (.xor rd rs1 rs2) s = .next t ∧ WritesReg rd v (s.pc + 4#32) s t ∧
      ∀ k, k < 32 → v.getLsbD k = (a.getLsbD k ^^ b.getLsbD k)) ∧
    (∃ t v, exec (.or rd rs1 rs2) s = .next t ∧ WritesReg rd v (s.pc + 4#32) s t ∧
      ∀ k, k < 32 → v.getLsbD k = (a.getLsbD k || b.getLsbD k)) ∧
    (∃ t v, exec (.and rd rs1 rs2) s = .next t ∧ WritesReg rd v (s.pc + 4#32) s t ∧
      ∀ k, k < 32 → v.getLsbD k = (a.getLsbD k && b.getLsbD k)) ∧
    (∃ t v, exec (.xori rd rs1 imm) s = .next t ∧ WritesReg rd v (s.pc + 4#32) s t ∧
      ∀ k, k < 32 → v.getLsbD k = (a.getLsbD k ^^ imm.getLsbD (min k 11))) ∧
    (∃ t v, exec (.ori rd rs1 imm) s = .next t ∧ WritesReg rd v (s.pc + 4#32) s t ∧
      ∀ k, k < 32 → v.getLsbD k = (a.getLsbD k || imm.getLsbD (min k 11))) ∧
    (∃ t v, exec (.andi rd rs1 imm) s = .next t ∧ WritesReg rd v (s.pc + 4#32) s t ∧
      ∀ k, k < 32 → v.getLsbD k = (a.getLsbD k && imm.getLsbD (min k 11)))

/-- LUI writes its 20 bits above twelve zeros; AUIPC adds that to the address of the AUIPC, modulo 2^32
(46_upper_immediate.md R215, R216). -/
def Obligations.UpperImmediateResults : Prop :=
  DecodesAs 0x0000007F 0x00000037 (fun w => .lui (w.extractLsb' 7 5) (w.extractLsb' 12 20)) ∧
  DecodesAs 0x0000007F 0x00000017 (fun w => .auipc (w.extractLsb' 7 5) (w.extractLsb' 12 20)) ∧
  ∀ rd (imm20 : BitVec 20) s,
    (∃ t, exec (.lui rd imm20) s = .next t ∧
      WritesReg rd (BitVec.ofNat 32 (imm20.toNat * 4096)) (s.pc + 4#32) s t) ∧
    (∃ t, exec (.auipc rd imm20) s = .next t ∧
      WritesReg rd (BitVec.ofNat 32 (s.pc.toNat + imm20.toNat * 4096)) (s.pc + 4#32) s t)

/-! ## Jumps and branches -/

/-- JAL links `pc + 4` and jumps to the offset from itself, whatever the target; a link to x0 is discarded and the jump
still happens (47_jumps.md R220). -/
def Obligations.JalLinksAndJumps : Prop :=
  DecodesAs 0x0000007F 0x0000006F (fun w => .jal (w.extractLsb' 7 5)
    (w.extractLsb' 31 1 ++ w.extractLsb' 12 8 ++ w.extractLsb' 20 1 ++ w.extractLsb' 21 10 ++ 0#1)) ∧
  ∀ rd (offset : BitVec 21) s, ∃ t, exec (.jal rd offset) s = .next t ∧
    WritesReg rd (s.pc + 4#32) (BitVec.ofInt 32 (s.pc.toInt + offset.toInt)) s t

/-- JALR links `pc + 4` and jumps to the sum of the OLD x[rs1] and the immediate with bit 0 cleared, also when rd = rs1
(47_jumps.md R221; the old value is the spec's decision D12: log 23). -/
def Obligations.JalrLinksAndJumpsThroughOldRegister : Prop :=
  DecodesAs 0x0000707F 0x00000067 (fun w => .jalr (w.extractLsb' 7 5) (w.extractLsb' 15 5) (w.extractLsb' 20 12)) ∧
  ∀ rd rs1 (imm : BitVec 12) s,
    let sum := BitVec.ofInt 32 ((s.getReg rs1).toInt + imm.toInt)
    ∃ t, exec (.jalr rd rs1 imm) s = .next t ∧
      WritesReg rd (s.pc + 4#32) (BitVec.ofNat 32 (2 * (sum.toNat / 2))) s t

/-- BEQ and BNE: the offset from the branch itself is taken exactly when the patterns are equal, unequal; nothing but pc
changes (45_branches.md R201, R202). -/
def Obligations.EqualityBranches : Prop :=
  DecodesAs 0x0000707F 0x00000063 (fun w => .beq (w.extractLsb' 15 5) (w.extractLsb' 20 5)
    (w.extractLsb' 31 1 ++ w.extractLsb' 7 1 ++ w.extractLsb' 25 6 ++ w.extractLsb' 8 4 ++ 0#1)) ∧
  DecodesAs 0x0000707F 0x00001063 (fun w => .bne (w.extractLsb' 15 5) (w.extractLsb' 20 5)
    (w.extractLsb' 31 1 ++ w.extractLsb' 7 1 ++ w.extractLsb' 25 6 ++ w.extractLsb' 8 4 ++ 0#1)) ∧
  ∀ rs1 rs2 (offset : BitVec 13) s,
    let target := BitVec.ofInt 32 (s.pc.toInt + offset.toInt)
    (∃ t, exec (.beq rs1 rs2 offset) s = .next t ∧
      MovesPc (if (s.getReg rs1).toNat = (s.getReg rs2).toNat then target else s.pc + 4#32) s t) ∧
    (∃ t, exec (.bne rs1 rs2 offset) s = .next t ∧
      MovesPc (if (s.getReg rs1).toNat = (s.getReg rs2).toNat then s.pc + 4#32 else target) s t)

/-- BLT and BGE compare the signed readings (45_branches.md R203, R204). -/
def Obligations.SignedBranches : Prop :=
  DecodesAs 0x0000707F 0x00004063 (fun w => .blt (w.extractLsb' 15 5) (w.extractLsb' 20 5)
    (w.extractLsb' 31 1 ++ w.extractLsb' 7 1 ++ w.extractLsb' 25 6 ++ w.extractLsb' 8 4 ++ 0#1)) ∧
  DecodesAs 0x0000707F 0x00005063 (fun w => .bge (w.extractLsb' 15 5) (w.extractLsb' 20 5)
    (w.extractLsb' 31 1 ++ w.extractLsb' 7 1 ++ w.extractLsb' 25 6 ++ w.extractLsb' 8 4 ++ 0#1)) ∧
  ∀ rs1 rs2 (offset : BitVec 13) s,
    let target := BitVec.ofInt 32 (s.pc.toInt + offset.toInt)
    (∃ t, exec (.blt rs1 rs2 offset) s = .next t ∧
      MovesPc (if (s.getReg rs1).toInt < (s.getReg rs2).toInt then target else s.pc + 4#32) s t) ∧
    (∃ t, exec (.bge rs1 rs2 offset) s = .next t ∧
      MovesPc (if (s.getReg rs2).toInt ≤ (s.getReg rs1).toInt then target else s.pc + 4#32) s t)

/-- BLTU and BGEU compare the unsigned readings (45_branches.md R205, R206). -/
def Obligations.UnsignedBranches : Prop :=
  DecodesAs 0x0000707F 0x00006063 (fun w => .bltu (w.extractLsb' 15 5) (w.extractLsb' 20 5)
    (w.extractLsb' 31 1 ++ w.extractLsb' 7 1 ++ w.extractLsb' 25 6 ++ w.extractLsb' 8 4 ++ 0#1)) ∧
  DecodesAs 0x0000707F 0x00007063 (fun w => .bgeu (w.extractLsb' 15 5) (w.extractLsb' 20 5)
    (w.extractLsb' 31 1 ++ w.extractLsb' 7 1 ++ w.extractLsb' 25 6 ++ w.extractLsb' 8 4 ++ 0#1)) ∧
  ∀ rs1 rs2 (offset : BitVec 13) s,
    let target := BitVec.ofInt 32 (s.pc.toInt + offset.toInt)
    (∃ t, exec (.bltu rs1 rs2 offset) s = .next t ∧
      MovesPc (if (s.getReg rs1).toNat < (s.getReg rs2).toNat then target else s.pc + 4#32) s t) ∧
    (∃ t, exec (.bgeu rs1 rs2 offset) s = .next t ∧
      MovesPc (if (s.getReg rs2).toNat ≤ (s.getReg rs1).toNat then target else s.pc + 4#32) s t)

/-! ## The bus, loads and stores -/

/-- Routing over the platform's windows: an address in a window reaches its device, any other is RAM; the order in which
the windows are scanned cannot be observed (20_memory.md R52, R53, R54). -/
def Obligations.RouteFindsTheWindowOfAnAddress : Prop :=
  ∀ graphicsLen storageLen keyboardLen, LegalWindows (platformWindows graphicsLen storageLen keyboardLen) →
    ∀ a : Word,
      (route (platformWindows graphicsLen storageLen keyboardLen) a = some .graphics ↔
        0x10000000 ≤ a.toNat ∧ a.toNat < 0x10000000 + graphicsLen) ∧
      (route (platformWindows graphicsLen storageLen keyboardLen) a = some .storage ↔
        0x20000000 ≤ a.toNat ∧ a.toNat < 0x20000000 + storageLen) ∧
      (route (platformWindows graphicsLen storageLen keyboardLen) a = some .keyboard ↔
        0x30000000 ≤ a.toNat ∧ a.toNat < 0x30000000 + keyboardLen) ∧
      ∀ windows, windows.Perm (platformWindows graphicsLen storageLen keyboardLen) →
        route windows a = route (platformWindows graphicsLen storageLen keyboardLen) a

/-- The loads read RAM little-endian at `ea = x[rs1] + imm` modulo 2^32, at any alignment, extend the value (LB and LH by
sign, LBU and LHU by zeros), write x[rd] and change nothing else but pc (43_loads.md R181 to R185). -/
def Obligations.LoadsFromRam : Prop :=
  DecodesAs 0x0000707F 0x00000003 (fun w => .lb (w.extractLsb' 7 5) (w.extractLsb' 15 5) (w.extractLsb' 20 12)) ∧
  DecodesAs 0x0000707F 0x00001003 (fun w => .lh (w.extractLsb' 7 5) (w.extractLsb' 15 5) (w.extractLsb' 20 12)) ∧
  DecodesAs 0x0000707F 0x00002003 (fun w => .lw (w.extractLsb' 7 5) (w.extractLsb' 15 5) (w.extractLsb' 20 12)) ∧
  DecodesAs 0x0000707F 0x00004003 (fun w => .lbu (w.extractLsb' 7 5) (w.extractLsb' 15 5) (w.extractLsb' 20 12)) ∧
  DecodesAs 0x0000707F 0x00005003 (fun w => .lhu (w.extractLsb' 7 5) (w.extractLsb' 15 5) (w.extractLsb' 20 12)) ∧
  ∀ rd rs1 (imm : BitVec 12) s,
    let ea := BitVec.ofInt 32 ((s.getReg rs1).toInt + imm.toInt)
    let b0 := s.ramByte ea.toNat
    let b1 := s.ramByte (byteAddress ea 1).toNat
    let b2 := s.ramByte (byteAddress ea 2).toNat
    let b3 := s.ramByte (byteAddress ea 3).toNat
    (s.RamRange ea 1 → ∃ t, exec (.lb rd rs1 imm) s = .next t ∧
      WritesReg rd (BitVec.ofInt 32 b0.toInt) (s.pc + 4#32) s t) ∧
    (s.RamRange ea 1 → ∃ t, exec (.lbu rd rs1 imm) s = .next t ∧
      WritesReg rd (BitVec.ofNat 32 b0.toNat) (s.pc + 4#32) s t) ∧
    (s.RamRange ea 2 → ∃ t, exec (.lh rd rs1 imm) s = .next t ∧
      WritesReg rd (BitVec.ofInt 32 (b0.toNat + 256 * b1.toInt)) (s.pc + 4#32) s t) ∧
    (s.RamRange ea 2 → ∃ t, exec (.lhu rd rs1 imm) s = .next t ∧
      WritesReg rd (BitVec.ofNat 32 (b0.toNat + 256 * b1.toNat)) (s.pc + 4#32) s t) ∧
    (s.RamRange ea 4 → ∃ t, exec (.lw rd rs1 imm) s = .next t ∧
      WritesReg rd (BitVec.ofNat 32 (b0.toNat + 256 * b1.toNat + 65536 * b2.toNat + 16777216 * b3.toNat))
        (s.pc + 4#32) s t)

/-- A load completes wherever every byte of it is in a window or in RAM. No byte of RAM and no register but rd changes,
and its accesses to peripherals are exactly one read of each of its window bytes, in ascending order, also when rd is x0;
the console is free only where a byte is read from the graphics window outside the text VRAM (43_loads.md R180, 20_memory.md
R57, R68; the ascending order is the spec's decision D6: log 17; that a read of the text VRAM leaves the console alone is
deduced: log 34). -/
def Obligations.LoadsReadEachDeviceByteOnce : Prop :=
  ∀ rd rs1 (imm : BitVec 12) s,
    let completes := fun (n : Nat) (i : Instr) =>
      s.AccessibleRange (effectiveAddress s rs1 imm) n → ∃ t, ∃ reads : List (Word × Byte), exec i s = .next t ∧
        SameRegsBut rd s t ∧ t.pc = s.pc + 4#32 ∧ SameRam s t ∧ SameEngine s t ∧ SameMap s t ∧
        t.consoleOutput = s.consoleOutput ∧ t.events = s.events ++ reads.map (fun r => .devRead r.1 r.2) ∧
        reads.map Prod.fst = s.deviceAddresses (effectiveAddress s rs1 imm) n ∧
        t.inputs = { s.inputs with devReads := s.inputs.devReads.drop reads.length } ∧
        (s.GraphicsOnlyInVram (effectiveAddress s rs1 imm) n → t.console = s.console)
    completes 1 (.lb rd rs1 imm) ∧ completes 1 (.lbu rd rs1 imm) ∧ completes 2 (.lh rd rs1 imm) ∧
    completes 2 (.lhu rd rs1 imm) ∧ completes 4 (.lw rd rs1 imm)

/-- What the loads write where their bytes are in windows, in RAM, or on both sides of a window's edge: each byte is what the
access finds at its own address, least significant byte lowest, extended into rd; the bytes in a window are one `devRead8`
each, in ascending order (43_loads.md R180, 20_memory.md R56, R57, R60, R63). Which answer a device gives, the oldest one
set or else the free value, is the model's choice (log 5); order and routing of the bytes are the spec's decisions D5 and D6
(log 17). -/
def Obligations.LoadsTakeAnswersOfDevices : Prop :=
  ∀ rd rs1 (imm : BitVec 12) s,
    let ea := effectiveAddress s rs1 imm
    let loads := fun (n : Nat) (i : Instr) (value : (Nat → Byte) → Word) =>
      s.AccessibleRange ea n → ∃ byte t, s.Finds ea n byte ∧ exec i s = .next t ∧
        t.getReg rd = (if rd = 0#5 then 0#32 else value byte) ∧
        t.events = s.events ++ s.readEvents ea n byte ∧
        t.inputs = { s.inputs with devReads := s.inputs.devReads.drop (s.deviceAddresses ea n).length }
    loads 1 (.lb rd rs1 imm) (fun byte => BitVec.ofInt 32 (byte 0).toInt) ∧
    loads 1 (.lbu rd rs1 imm) (fun byte => BitVec.ofNat 32 (byte 0).toNat) ∧
    loads 2 (.lh rd rs1 imm) (fun byte => BitVec.ofInt 32 ((byte 0).toNat + 256 * (byte 1).toInt)) ∧
    loads 2 (.lhu rd rs1 imm) (fun byte => BitVec.ofNat 32 ((byte 0).toNat + 256 * (byte 1).toNat)) ∧
    loads 4 (.lw rd rs1 imm) (fun byte => BitVec.ofNat 32
      ((byte 0).toNat + 256 * (byte 1).toNat + 65536 * (byte 2).toNat + 16777216 * (byte 3).toNat))

/-- The stores write the low bytes of x[rs2] at `ea = x[rs1] + imm` modulo 2^32, least significant byte lowest, each byte
routed by its own address: a RAM byte is stored, a window byte is one `devWrite8`, in ascending order. No other byte of
RAM and no register changes (44_stores.md R191, R192, R193; order, wrap and per-byte routing are the spec's decisions D5, D6,
D7: log 17). A byte that reaches the text VRAM is the character or the attribute of its cell, and the console is free only
where a byte reaches the graphics window elsewhere (20_memory.md R62; the places of the cells but (0,0) are the spec's general
knowledge, and that nothing else of the console changes is deduced: log 34). -/
def Obligations.StoresRouteEachByte : Prop :=
  DecodesAs 0x0000707F 0x00000023
    (fun w => .sb (w.extractLsb' 20 5) (w.extractLsb' 15 5) (w.extractLsb' 25 7 ++ w.extractLsb' 7 5)) ∧
  DecodesAs 0x0000707F 0x00001023
    (fun w => .sh (w.extractLsb' 20 5) (w.extractLsb' 15 5) (w.extractLsb' 25 7 ++ w.extractLsb' 7 5)) ∧
  DecodesAs 0x0000707F 0x00002023
    (fun w => .sw (w.extractLsb' 20 5) (w.extractLsb' 15 5) (w.extractLsb' 25 7 ++ w.extractLsb' 7 5)) ∧
  (∀ s rs1 (imm : BitVec 12), effectiveAddress s rs1 imm = BitVec.ofInt 32 ((s.getReg rs1).toInt + imm.toInt)) ∧
  ∀ rs2 rs1 (imm : BitVec 12) s, Memory.wf s.ram →
    let ea := effectiveAddress s rs1 imm
    let stores := fun (n : Nat) (i : Instr) =>
      s.AccessibleRange ea n → ∃ t, exec i s = .next t ∧
        SameRegs s t ∧ t.pc = s.pc + 4#32 ∧ SameEngine s t ∧ SameMap s t ∧ t.consoleOutput = s.consoleOutput ∧
        t.inputs = s.inputs ∧
        (∀ k, k < n → route s.windows (byteAddress ea k) = none →
          t.ramByte (byteAddress ea k).toNat = byteOf (s.getReg rs2) k) ∧
        (∀ a, (∀ k, k < n → a ≠ (byteAddress ea k).toNat) → t.ramByte a = s.ramByte a) ∧
        (∀ k, k < n → route s.windows (byteAddress ea k) ≠ none →
          t.ramByte (byteAddress ea k).toNat = s.ramByte (byteAddress ea k).toNat) ∧
        t.events = s.events ++ (((List.range n).filter fun k => route s.windows (byteAddress ea k) ≠ none).map
          fun k => .devWrite (byteAddress ea k) (byteOf (s.getReg rs2) k)) ∧
        ConsoleAfterWrites s ea ((List.range n).map (byteOf (s.getReg rs2))) s.console t.console
    stores 1 (.sb rs2 rs1 imm) ∧ stores 2 (.sh rs2 rs1 imm) ∧ stores 4 (.sw rs2 rs1 imm)

/-- A load or store any byte of which is a RAM offset not below the RAM size stops by name, as a whole
(20_memory.md R55, R59; the spec's decision D4: log 10). -/
def Obligations.OutOfRangeAccessStopsByName : Prop :=
  ∀ rd rs1 rs2 (imm : BitVec 12) s,
    let stops := fun (n : Nat) (i : Instr) =>
      ¬ s.AccessibleRange (effectiveAddress s rs1 imm) n → exec i s = .fault .ramOutOfRange
    stops 1 (.lb rd rs1 imm) ∧ stops 1 (.lbu rd rs1 imm) ∧ stops 2 (.lh rd rs1 imm) ∧ stops 2 (.lhu rd rs1 imm) ∧
    stops 4 (.lw rd rs1 imm) ∧ stops 1 (.sb rs2 rs1 imm) ∧ stops 2 (.sh rs2 rs1 imm) ∧ stops 4 (.sw rs2 rs1 imm)

/-- The round trip of 20_memory.md R69: "after `MemWrite(addr, n, v)`, `MemRead(addr, n) = v[8n-1:0]`" where all the bytes
are in RAM, for each width of the bus (R51); and a narrower access sees the bytes a word write left, least significant
byte at the lowest address (R63). -/
def Obligations.MemReadAfterMemWrite : Prop :=
  (∀ (n : Nat) a v s, n = 1 ∨ n = 2 ∨ n = 4 → Memory.wf s.ram → s.RamRange a n →
    ∃ t, memWrite a n v s = .ok t ∧ memRead a n t = .ok (BitVec.ofNat 32 (v.toNat % 2 ^ (8 * n)), t)) ∧
  (∀ a v s, Memory.wf s.ram → s.RamRange a 4 →
    ∃ t, memWrite a 4 v s = .ok t ∧
      (∀ k, k < 4 → memRead (byteAddress a k) 1 t = .ok (BitVec.ofNat 32 (v.toNat / 256 ^ k % 256), t)) ∧
      (∀ k, k < 3 → memRead (byteAddress a k) 2 t = .ok (BitVec.ofNat 32 (v.toNat / 256 ^ k % 65536), t)))

/-- A store is seen by the very next instruction fetch from its address, without any fence (20_memory.md R75): after an SW
to a word the fetch of that word gives the value stored; and after an SB, SH or SW to any address the fetch of any word of RAM
gives, byte for byte, the byte stored where the store reached it and the byte held before elsewhere. -/
def Obligations.FetchSeesEarlierStore : Prop :=
  ∀ rs2 rs1 (imm : BitVec 12) s, Memory.wf s.ram →
    let ea := effectiveAddress s rs1 imm
    let sees := fun (n : Nat) (i : Instr) => s.AccessibleRange ea n → ∃ t, exec i s = .next t ∧
      ∀ p : Word, p.toNat % 4 = 0 → s.RamRange p 4 → ∃ w, fetch (t.setPc p) = .ok (w, t.setPc p) ∧
        ∀ k, k < 4 →
          (∀ j, j < n → byteAddress p k = byteAddress ea j → byteOf w k = byteOf (s.getReg rs2) j) ∧
          ((∀ j, j < n → byteAddress p k ≠ byteAddress ea j) → byteOf w k = s.ramByte (byteAddress p k).toNat)
    (s.RamRange ea 4 → ea.toNat % 4 = 0 → ∃ t, exec (.sw rs2 rs1 imm) s = .next t ∧
      fetch (t.setPc ea) = .ok (s.getReg rs2, t.setPc ea)) ∧
    sees 1 (.sb rs2 rs1 imm) ∧ sees 2 (.sh rs2 rs1 imm) ∧ sees 4 (.sw rs2 rs1 imm)

/-! ## System instructions -/

/-- FENCE advances pc by 4 and does nothing else, whatever its other bits are (48_system_fence.md R232). That its
other bits are ignored is the spec's decision D11 (30_encoding.md R113), the model's choice: log 14; that it advances pc
only: log 13. -/
def Obligations.FenceOnlyAdvancesPc : Prop :=
  DecodesAs 0x0000707F 0x0000000F (fun _ => .fence) ∧
  ∀ s, ∃ t, exec .fence s = .next t ∧ MovesPc (s.pc + 4#32) s t

/-- EBREAK halts the engine with cause Breakpoint at its own address, exitCode and registers unchanged
(48_system_fence.md R231; the spec's decision D2: log 13). That the word decodes to EBREAK whatever its rd and rs1 fields
hold is the spec's decision D10 (30_encoding.md R104, R112), the model's choice for the non-canonical words: log 14. -/
def Obligations.EbreakHaltsWithBreakpoint : Prop :=
  DecodesAs 0xFFF0707F 0x00100073 (fun _ => .ebreak) ∧
  ∀ s, ∃ t, exec .ebreak s = .next t ∧ Halts .breakpoint s.exitCode s t

/-- ECALL with a7 = 0 halts the engine with cause Exit and the code in a0; a0 and pc keep their values
(60_exceptions.md R246; pc and a0 are the spec's decision D17: log 12). That the word decodes to ECALL (48_system_fence.md
R230) whatever its rd and rs1 fields hold is the spec's decision D10 (30_encoding.md R104, R112), the model's choice for
the non-canonical words: log 14. -/
def Obligations.ExitHaltsWithCodeFromA0 : Prop :=
  DecodesAs 0xFFF0707F 0x00000073 (fun _ => .ecall) ∧
  ∀ s, s.getReg 17#5 = 0#32 → ∃ t, exec .ecall s = .next t ∧ Halts .exit (s.getReg 10#5) s t

/-- "An unknown syscall number returns `0xFFFFFFFF` in a0 and execution continues (the engine is not halted)"
(60_exceptions.md R245): every number above 10, with nothing but a0 and pc changed. -/
def Obligations.UnknownSyscallReturnsSentinel : Prop :=
  ∀ s, 10 < (s.getReg 17#5).toNat → ∃ t, exec .ecall s = .next t ∧
    WritesReg 10#5 0xFFFFFFFF#32 (s.pc + 4#32) s t

/-- putchar passes the low 8 bits of a0 to the console and returns 0 (60_exceptions.md R247; the truncation is the spec's
decision D18: log 18); the byte goes through the console discipline, and it is appended to consoleOutput, as the spec's
decision D24 defines that (R266). -/
def Obligations.PutcharWritesOneByte : Prop :=
  ∀ s, s.getReg 17#5 = 1#32 → ∃ t, exec .ecall s = .next t ∧ Returns 0#32 s t ∧ SameRam s t ∧
    t.consoleOutput = s.consoleOutput ++ [byteOf (s.getReg 10#5) 0] ∧
    t.console = TextConsole.put s.events s.console (byteOf (s.getReg 10#5) 0) ∧ t.inputs = s.inputs ∧
    t.events = s.events ++ [.consolePut (byteOf (s.getReg 10#5) 0)]

/-- getchar pops one key: it returns the key code, which is not the sentinel, or `0xFFFFFFFF` when none is buffered; it
never blocks (60_exceptions.md R248). That the oldest key answer set, if there is one, is the one taken is the model's choice
(log 5). -/
def Obligations.GetcharReturnsKeyOrSentinel : Prop :=
  ∀ s, s.getReg 17#5 = 2#32 → ∃ t answer, exec .ecall s = .next t ∧
    Returns (match answer with | some k => BitVec.ofNat 32 k.val | none => 0xFFFFFFFF#32) s t ∧
    (∀ k : Key, answer = some k → BitVec.ofNat 32 k.val ≠ 0xFFFFFFFF#32) ∧
    (∀ a rest, s.inputs.keys = a :: rest → answer = a) ∧
    SameRam s t ∧ t.consoleOutput = s.consoleOutput ∧ t.console = s.console ∧
    t.inputs = { s.inputs with keys := s.inputs.keys.tail } ∧ t.events = s.events ++ [.kbdPop answer]

/-- puts writes each byte of the NUL-terminated string at a0 to the console, in order, and returns their count modulo 2^32,
in the step of its ECALL, however long the string is (60_exceptions.md R243, R249). First for a string in RAM; then for any
string, whose bytes may be in windows and which may go around the address space: `u` and `byte` are the states and the bytes
of its scan. A string with a byte out of range before its NUL stops by name; a loop that never meets a NUL never returns, and
the model answers no next state. That consoleOutput holds these bytes is the spec's decision D24 (R266). Reading through the
bus is the spec's decision D16 (log 33); what a device answers is log 5; the two stops are the model's (log 10, log 9). -/
def Obligations.PutsWritesStringAndReturnsLength : Prop :=
  (∀ s n, s.getReg 17#5 = 3#32 → n < 2 ^ 32 →
    (∀ i, i < n → s.InRam (byteAddress (s.getReg 10#5) i) ∧ s.ramByte (byteAddress (s.getReg 10#5) i).toNat ≠ 0#8) →
    (s.InRam (byteAddress (s.getReg 10#5) n) → s.ramByte (byteAddress (s.getReg 10#5) n).toNat = 0#8 →
      ∃ t, exec .ecall s = .next t ∧ Returns (BitVec.ofNat 32 n) s t ∧ SameRam s t ∧
        t.consoleOutput = s.consoleOutput ++ s.ramBytes (s.getReg 10#5) n ∧
        t.console = (s.consolePutAll (s.ramBytes (s.getReg 10#5) n)).console ∧ t.inputs = s.inputs ∧
        t.events = s.events ++ (s.ramBytes (s.getReg 10#5) n).map .consolePut) ∧
    (¬ s.Accessible (byteAddress (s.getReg 10#5) n) → exec .ecall s = .fault .ramOutOfRange)) ∧
  (∀ s n u byte, s.getReg 17#5 = 3#32 → u 0 = s → Scans State.consolePut (s.getReg 10#5) n u byte →
    (∀ v, byteRead (byteAddress (s.getReg 10#5) n) (u n) = .ok (0#8, v) →
      ∃ t, exec .ecall s = .next t ∧ Returns (BitVec.ofNat 32 n) s t ∧ SameRam s t ∧
        t.consoleOutput = s.consoleOutput ++ (List.range n).map byte ∧ t.console = v.console ∧
        t.inputs = { s.inputs with
          devReads := s.inputs.devReads.drop (s.deviceAddresses (s.getReg 10#5) (n + 1)).length } ∧
        t.events = s.events ++
          (List.range n).flatMap
            (fun i => s.readEvent (byteAddress (s.getReg 10#5) i) (byte i) ++ [.consolePut (byte i)]) ++
          s.readEvent (byteAddress (s.getReg 10#5) n) 0#8) ∧
    (¬ s.Accessible (byteAddress (s.getReg 10#5) n) → exec .ecall s = .fault .ramOutOfRange)) ∧
  ∀ s u byte, s.getReg 17#5 = 3#32 → u 0 = s → (∀ n, Scans State.consolePut (s.getReg 10#5) n u byte) →
    exec .ecall s = .fault .stepNeverReturns

/-- read_sector writes the 512 bytes of the sector named by a0 at a1 and returns 0; on failure it writes no memory and
returns the sentinel (60_exceptions.md R250; D19, D26: log 24). That the oldest answer set, if there is one, is taken is the
model's choice (log 5). -/
def Obligations.ReadSectorFillsBuffer : Prop :=
  ∀ s, Memory.wf s.ram → s.getReg 17#5 = 4#32 → s.RamRange (s.getReg 11#5) 512 →
    ∃ t answer, exec .ecall s = .next t ∧ (∀ a rest, s.inputs.sectorReads = a :: rest → answer = a) ∧
      t.events = s.events ++ [.readSector (s.getReg 10#5) answer] ∧
      t.inputs = { s.inputs with sectorReads := s.inputs.sectorReads.tail } ∧
      t.consoleOutput = s.consoleOutput ∧ t.console = s.console ∧
      match answer with
      | some data => Returns 0#32 s t ∧ StoresBytes data.toList (s.getReg 11#5) s t
      | none => Returns 0xFFFFFFFF#32 s t ∧ SameRam s t

/-- write_sector hands the 512 bytes at a1, ascending, and the sector number a0 to the block device, and returns 0, or the
sentinel on failure; no guest memory is written (60_exceptions.md R251; D19: log 24). That the oldest answer set, if there is
one, is taken is the model's choice (log 5). -/
def Obligations.WriteSectorHandsOverBuffer : Prop :=
  ∀ s, s.getReg 17#5 = 5#32 → s.RamRange (s.getReg 11#5) 512 →
    ∃ t ok, exec .ecall s = .next t ∧ (∀ a rest, s.inputs.sectorWrites = a :: rest → ok = a) ∧
      Returns (if ok then 0#32 else 0xFFFFFFFF#32) s t ∧ SameRam s t ∧
      t.consoleOutput = s.consoleOutput ∧ t.console = s.console ∧
      t.inputs = { s.inputs with sectorWrites := s.inputs.sectorWrites.tail } ∧
      t.events = s.events ++ [.writeSector (s.getReg 10#5) (s.ramBytes (s.getReg 11#5) 512) ok]

/-- ECALL getline, maxlen not 0: the keys available are consumed and echoed. Without Enter among them the engine suspends at
the ECALL, with registers, pc and memory as they were and the record of buffer, maxlen and characters; with Enter the line
and a NUL are written at the buffer and its length is returned, or the call stops by name where a byte of them is out of
range. The line is the bytes typed, no zero byte, cut to maxlen - 1 (60_exceptions.md R252, R258; D24: log 7). What the keys
amount to is the oracle's answer, the oldest one set or else the free value (log 5); the buffer is written through the bus
(D16: log 33), into cells where it is in the text VRAM (log 34); that consoleOutput holds the echo is D24 (R266); the stop is
log 10. -/
def Obligations.GetlineSuspendsOrReturnsLine : Prop :=
  ∀ s, s.getReg 17#5 = 6#32 → s.getReg 11#5 ≠ 0#32 →
    let request : PendingLine := { buffer := s.getReg 10#5, maxlen := s.getReg 11#5, chars := [] }
    let input := (pollKeys request s).1
    let line := (input.typed.filter fun b => b != 0#8).take ((s.getReg 11#5).toNat - 1)
    let surroundings := fun (written : List Byte) (t : State) =>
      t.inputs = { s.inputs with lines := s.inputs.lines.tail } ∧
      t.events = s.events ++ (.line input :: input.echo.map .consolePut) ++ s.writeEvents (s.getReg 10#5) written ∧
      t.consoleOutput = s.consoleOutput ++ input.echo ∧
      ConsoleAfterWrites s (s.getReg 10#5) written ((pollKeys request s).2.consolePutAll input.echo).console t.console
    (∀ a rest, s.inputs.lines = a :: rest → input = a) ∧
    (input.enter = false → ∃ t, exec .ecall s = .next t ∧
      t.pending = some { request with chars := line } ∧ t.pc = s.pc ∧ SameRegs s t ∧ SameRam s t ∧ SameMap s t ∧
      t.halted = s.halted ∧ t.exitCode = s.exitCode ∧ t.haltCause = s.haltCause ∧ surroundings [] t) ∧
    (input.enter = true → Memory.wf s.ram → s.AccessibleRange (s.getReg 10#5) (line.length + 1) →
      ∃ t, exec .ecall s = .next t ∧ Returns (BitVec.ofNat 32 line.length) s t ∧
        StoresThroughBus (line ++ [0#8]) (s.getReg 10#5) s t ∧ surroundings (line ++ [0#8]) t) ∧
    (input.enter = true → ¬ s.AccessibleRange (s.getReg 10#5) (line.length + 1) →
      exec .ecall s = .fault .ramOutOfRange)

/-- A step in Suspended fetches nothing. The keys available take back and add characters; with Enter among them the line and
a NUL are written at the buffer, its length is in a0 and the engine runs on at the instruction after the ECALL, or the step
stops by name where a byte of them is out of range; without, it stays Suspended. The line holds no zero byte and fits in
maxlen with its NUL; a record with maxlen 0 is refused (60_exceptions.md R252, R258; D24, U6: log 7, log 8). What the keys
amount to is the oracle's answer, the oldest one set or else the free value (log 5); the buffer is written through the bus
(D16: log 33), into cells where it is in the text VRAM (log 34); that consoleOutput holds the echo is D24 (R266); the stop is
log 10. -/
def Obligations.SuspendedStepCompletesLine : Prop :=
  ∀ s p, s.runState = .suspended p →
    let input := (pollKeys p s).1
    let line := ((p.chars.take (p.chars.length - input.erased) ++ input.typed).filter fun b => b != 0#8).take
      (p.maxlen.toNat - 1)
    let surroundings := fun (written : List Byte) (t : State) =>
      t.halted = s.halted ∧ t.exitCode = s.exitCode ∧ t.haltCause = s.haltCause ∧ SameMap s t ∧
      t.inputs = { s.inputs with lines := s.inputs.lines.tail } ∧
      t.events = s.events ++ (.line input :: input.echo.map .consolePut) ++ s.writeEvents p.buffer written ∧
      t.consoleOutput = s.consoleOutput ++ input.echo ∧
      ConsoleAfterWrites s p.buffer written ((pollKeys p s).2.consolePutAll input.echo).console t.console
    (p.maxlen = 0#32 → step s = .refused .getlineZeroMaxlen) ∧
    (∀ a rest, s.inputs.lines = a :: rest → input = a) ∧
    (p.maxlen ≠ 0#32 →
      (line.length + 1 ≤ p.maxlen.toNat ∧ ∀ b ∈ line, b ≠ 0#8) ∧
      (input.enter = true → Memory.wf s.ram → s.AccessibleRange p.buffer (line.length + 1) →
        ∃ t, step s = .next t ∧ StoresThroughBus (line ++ [0#8]) p.buffer s t ∧
          t.getReg 10#5 = BitVec.ofNat 32 line.length ∧ SameRegsBut 10#5 s t ∧
          t.pc = s.pc + 4#32 ∧ t.runState = .running ∧ surroundings (line ++ [0#8]) t) ∧
      (input.enter = true → ¬ s.AccessibleRange p.buffer (line.length + 1) → step s = .fault .ramOutOfRange) ∧
      (input.enter = false →
        ∃ t, step s = .next t ∧ t.runState = .suspended { p with chars := line } ∧
          t.pc = s.pc ∧ SameRegs s t ∧ SameRam s t ∧ surroundings [] t))

/-- fopen reads the NUL-terminated name at a0 and returns the file system's handle, a value below 2^31, or the sentinel, in
the step of its ECALL, however long the name is; no guest memory is written (60_exceptions.md R243, R253). First for a name in
RAM; then for any name, whose bytes may be in windows and which may go around the address space: `u` and `byte` are the states
and the bytes of its scan. A name with a byte out of range before its NUL stops by name; a loop that never meets a NUL never
returns, and the model answers no next state. That the oldest answer set, if there is one, is taken, and what a device
answers, is the model's choice (log 5); reading through the bus is the spec's decision D16 (log 33); the two stops are the
model's (log 10, log 9). -/
def Obligations.FopenReturnsHandleOrSentinel : Prop :=
  let opens := fun (s t : State) (name : List Byte) (reads : List EnvEvent) (answer : Option Handle) =>
    (∀ a rest, s.inputs.fopens = a :: rest → answer = a) ∧
    Returns (match answer with | some h => BitVec.ofNat 32 h.toNat | none => 0xFFFFFFFF#32) s t ∧ SameRam s t ∧
    t.consoleOutput = s.consoleOutput ∧ t.events = s.events ++ reads ++ [.fopen name (s.getReg 11#5) answer]
  (∀ s n, s.getReg 17#5 = 7#32 → n < 2 ^ 32 →
    (∀ i, i < n → s.InRam (byteAddress (s.getReg 10#5) i) ∧ s.ramByte (byteAddress (s.getReg 10#5) i).toNat ≠ 0#8) →
    s.InRam (byteAddress (s.getReg 10#5) n) → s.ramByte (byteAddress (s.getReg 10#5) n).toNat = 0#8 →
    ∃ t answer, exec .ecall s = .next t ∧ opens s t (s.ramBytes (s.getReg 10#5) n) [] answer ∧
      t.console = s.console ∧ t.inputs = { s.inputs with fopens := s.inputs.fopens.tail }) ∧
  (∀ s n u byte, s.getReg 17#5 = 7#32 → u 0 = s → Scans (fun v _ => v) (s.getReg 10#5) n u byte →
    (∀ v, byteRead (byteAddress (s.getReg 10#5) n) (u n) = .ok (0#8, v) →
      ∃ t answer, exec .ecall s = .next t ∧
        opens s t ((List.range n).map byte)
          ((List.range n).flatMap (fun i => s.readEvent (byteAddress (s.getReg 10#5) i) (byte i)) ++
            s.readEvent (byteAddress (s.getReg 10#5) n) 0#8) answer ∧
        t.console = v.console ∧
        t.inputs = { s.inputs with
          fopens := s.inputs.fopens.tail
          devReads := s.inputs.devReads.drop (s.deviceAddresses (s.getReg 10#5) (n + 1)).length }) ∧
    (¬ s.Accessible (byteAddress (s.getReg 10#5) n) → exec .ecall s = .fault .ramOutOfRange)) ∧
  ∀ s u byte, s.getReg 17#5 = 7#32 → u 0 = s → (∀ n, Scans (fun v _ => v) (s.getReg 10#5) n u byte) →
    exec .ecall s = .fault .stepNeverReturns

/-- fread writes the bytes the file system gives, at most a2 of them, at a1 and returns their count; on failure it writes
no memory and returns the sentinel (60_exceptions.md R254). That the oldest answer set, if there is one, is taken is the
model's choice (log 5), and so is that an answer longer than a2 counts as its first a2 bytes (log 22). -/
def Obligations.FreadStoresAtMostMaxCount : Prop :=
  ∀ s, Memory.wf s.ram → s.getReg 17#5 = 8#32 → s.RamRange (s.getReg 11#5) (s.getReg 12#5).toNat →
    ∃ t answer, exec .ecall s = .next t ∧
      (∀ a rest, s.inputs.freads = a :: rest → answer = a.map (List.take (s.getReg 12#5).toNat)) ∧
      t.events = s.events ++ [.fread (s.getReg 10#5) (s.getReg 12#5) answer] ∧
      t.inputs = { s.inputs with freads := s.inputs.freads.tail } ∧
      t.consoleOutput = s.consoleOutput ∧ t.console = s.console ∧
      match answer with
      | some data => data.length ≤ (s.getReg 12#5).toNat ∧ Returns (BitVec.ofNat 32 data.length) s t ∧
          StoresBytes data (s.getReg 11#5) s t
      | none => Returns 0xFFFFFFFF#32 s t ∧ SameRam s t

/-- fwrite hands the a2 bytes at a1, ascending, to the file system and returns the count it took, or the sentinel; no
guest memory is written (60_exceptions.md R255). That the oldest answer set, if there is one, is taken is the model's choice
(log 5). -/
def Obligations.FwriteHandsOverBytes : Prop :=
  ∀ s, s.getReg 17#5 = 9#32 → s.RamRange (s.getReg 11#5) (s.getReg 12#5).toNat →
    ∃ t answer, exec .ecall s = .next t ∧ (∀ a rest, s.inputs.fwrites = a :: rest → answer = a) ∧
      Returns (match answer with | some count => count | none => 0xFFFFFFFF#32) s t ∧ SameRam s t ∧
      t.consoleOutput = s.consoleOutput ∧ t.console = s.console ∧
      t.inputs = { s.inputs with fwrites := s.inputs.fwrites.tail } ∧
      t.events = s.events ++
        [.fwrite (s.getReg 10#5) (s.ramBytes (s.getReg 11#5) (s.getReg 12#5).toNat) answer]

/-- fclose returns 0 on success and the sentinel on failure; no guest memory is read or written (60_exceptions.md R256).
That the oldest answer set, if there is one, is taken is the model's choice (log 5). -/
def Obligations.FcloseReturnsZeroOrSentinel : Prop :=
  ∀ s, s.getReg 17#5 = 10#32 → ∃ t ok, exec .ecall s = .next t ∧
    (∀ a rest, s.inputs.fcloses = a :: rest → ok = a) ∧ Returns (if ok then 0#32 else 0xFFFFFFFF#32) s t ∧
    SameRam s t ∧ t.consoleOutput = s.consoleOutput ∧ t.console = s.console ∧
    t.inputs = { s.inputs with fcloses := s.inputs.fcloses.tail } ∧ t.events = s.events ++ [.fclose (s.getReg 10#5) ok]

/-- The buffers of read_sector, write_sector, fread and fwrite are reached byte by byte through the bus, like a load or a
store. A buffer that is filled: each byte in RAM is stored, each byte in a window is one `devWrite8`, in ascending order,
after the device or the file system has answered. A buffer that is handed over: each byte is what the access finds at its
address, each byte in a window is one `devRead8`, in ascending order, before the answer. The call completes when every byte
of the buffer is in a window or in RAM and stops by name otherwise; a failed read reaches no byte of the buffer
(20_memory.md R79, R55, 60_exceptions.md R250, R251, R254, R255; the bus and the order are the spec's decision D16: log 33;
failure is D19: log 24; what the devices, the block device and the file system answer is log 5, and the cut of an fread
answer log 22; the stop is log 10; what reaches the text VRAM is log 34). -/
def Obligations.SyscallBuffersUseTheBus : Prop :=
  ∀ s, let a := s.getReg 11#5
    let fills := fun (data : List Byte) (v : Word) (answered : EnvEvent) (left : EnvInputs) =>
      (Memory.wf s.ram → s.AccessibleRange a data.length → ∃ t, exec .ecall s = .next t ∧ Returns v s t ∧
        StoresThroughBus data a s t ∧ t.events = s.events ++ [answered] ++ s.writeEvents a data ∧
        t.consoleOutput = s.consoleOutput ∧ t.inputs = left ∧
        ConsoleAfterWrites s a data s.console t.console) ∧
      (¬ s.AccessibleRange a data.length → exec .ecall s = .fault .ramOutOfRange)
    let fails := fun (answered : EnvEvent) (left : EnvInputs) =>
      ∃ t, exec .ecall s = .next t ∧ Returns 0xFFFFFFFF#32 s t ∧ SameRam s t ∧ t.events = s.events ++ [answered] ∧
        t.consoleOutput = s.consoleOutput ∧ t.inputs = left ∧ t.console = s.console
    let hands := fun (n : Nat) (left : EnvInputs) (answers : List Byte → EnvEvent → Word → Prop) =>
      (s.AccessibleRange a n → ∃ t byte answered v, s.Finds a n byte ∧ answers ((List.range n).map byte) answered v ∧
        exec .ecall s = .next t ∧ Returns v s t ∧ SameRam s t ∧
        t.events = s.events ++ s.readEvents a n byte ++ [answered] ∧ t.consoleOutput = s.consoleOutput ∧
        t.inputs = { left with devReads := s.inputs.devReads.drop (s.deviceAddresses a n).length } ∧
        (s.GraphicsOnlyInVram a n → t.console = s.console)) ∧
      (¬ s.AccessibleRange a n → exec .ecall s = .fault .ramOutOfRange)
    let readLeft := { s.inputs with sectorReads := s.inputs.sectorReads.tail }
    let fileLeft := { s.inputs with freads := s.inputs.freads.tail }
    (∀ x rest, s.inputs.sectorReads = x :: rest → (readSector (s.getReg 10#5) s).1 = x) ∧
    (s.getReg 17#5 = 4#32 → match (readSector (s.getReg 10#5) s).1 with
      | some data => fills data.toList 0#32 (.readSector (s.getReg 10#5) (some data)) readLeft
      | none => fails (.readSector (s.getReg 10#5) none) readLeft) ∧
    (s.getReg 17#5 = 5#32 → hands 512 { s.inputs with sectorWrites := s.inputs.sectorWrites.tail }
      fun data answered v => ∃ ok, (∀ x rest, s.inputs.sectorWrites = x :: rest → ok = x) ∧
        answered = .writeSector (s.getReg 10#5) data ok ∧ v = if ok then 0#32 else 0xFFFFFFFF#32) ∧
    (∀ x rest, s.inputs.freads = x :: rest →
      (fread (s.getReg 10#5) (s.getReg 12#5) s).1 = x.map (List.take (s.getReg 12#5).toNat)) ∧
    (s.getReg 17#5 = 8#32 → match (fread (s.getReg 10#5) (s.getReg 12#5) s).1 with
      | some data => data.length ≤ (s.getReg 12#5).toNat ∧
          fills data (BitVec.ofNat 32 data.length) (.fread (s.getReg 10#5) (s.getReg 12#5) (some data)) fileLeft
      | none => fails (.fread (s.getReg 10#5) (s.getReg 12#5) none) fileLeft) ∧
    (s.getReg 17#5 = 9#32 → hands (s.getReg 12#5).toNat { s.inputs with fwrites := s.inputs.fwrites.tail }
      fun data answered v => ∃ answer, (∀ x rest, s.inputs.fwrites = x :: rest → answer = x) ∧
        answered = .fwrite (s.getReg 10#5) data answer ∧ v = answer.getD 0xFFFFFFFF#32)

/-! ## Whole-machine rules -/

/-- No step changes the RAM size, the address-space map or the decode-error exit code (10_state.md R30, 00_scope.md R7). -/
def Obligations.StepNeverChangesAddressMap : Prop :=
  ∀ s t, step s = .next t → SameMap s t

/-- No register changes in a step but the destination of the instruction fetched, and x10 when a pending getline completes
(10_state.md R23, 60_exceptions.md R245). -/
def Obligations.OnlyDestinationRegisterChanges : Prop :=
  ∀ s t, step s = .next t → ∀ r, t.getReg r ≠ s.getReg r →
    (∃ i u, Fetches s i u ∧ i.destination = some r) ∨ (s.pending ≠ none ∧ r = 10#5)

/-- "A RAM byte is written only by: a store instruction routed to RAM, a syscall that writes guest memory" (10_state.md
R29): in a step, besides, by the completion of a pending getline, which is such a syscall. -/
def Obligations.OnlyStoresAndReadingSyscallsWriteRam : Prop :=
  ∀ s t, step s = .next t → ∀ a, t.ramByte a ≠ s.ramByte a →
    (∃ i u, Fetches s i u ∧ (i.IsStore ∨ (i = .ecall ∧ WritesGuestMemory (s.getReg 17#5)))) ∨ s.pending ≠ none

/-- What leaves Running: a step halts only by an exit syscall, a decode error or a breakpoint, each with its own cause and
exit code, at the address of the halting instruction, and suspends only at a getline; Suspended never becomes Halted
(10_state.md R27, R28, 60_exceptions.md R241, R258; EBREAK is the spec's decision D2, the pc D17: log 12, log 13). -/
def Obligations.OnlyNamedEventsLeaveRunning : Prop :=
  ∀ s t, step s = .next t →
    (s.runState ≠ .halted → t.runState = .halted →
      t.pc = s.pc ∧ t.halted = true ∧
      ((∃ u, Fetches s .ecall u ∧ s.getReg 17#5 = 0#32 ∧ t.haltCause = .exit ∧ t.exitCode = s.getReg 10#5) ∨
       (∃ u, Fetches s .ebreak u ∧ t.haltCause = .breakpoint ∧ t.exitCode = s.exitCode) ∨
       (s.runState = .running ∧ (∃ w u r, fetch s = .ok (w, u) ∧ decode w = .error r) ∧
          t.haltCause = .decodeError ∧ t.exitCode = s.decodeErrorCode))) ∧
    (s.runState = .running → t.pending ≠ none → ∃ u, Fetches s .ecall u ∧ s.getReg 17#5 = 6#32 ∧ t.pc = s.pc)

/-- consoleOutput is append-only (60_exceptions.md R266; what it holds is the spec's decision D24), and so is the model's own
record of transactions with the surroundings (log 6). -/
def Obligations.OutputOnlyGrows : Prop :=
  ∀ s t, step s = .next t → s.consoleOutput <+: t.consoleOutput ∧ s.events <+: t.events

/-- An instruction is refused exactly when it is an ECALL getline with maxlen 0, and none faults but a load, a store or an
ECALL: every ALU instruction, branch, jump, upper-immediate instruction, FENCE and EBREAK completes in every state
(60_exceptions.md R252, 93_implementation_defined.md U6, 40_execution_cycle.md R138; the stops are log 8, 9 and 10). -/
def Obligations.OnlyMemoryInstructionsStop : Prop :=
  ∀ i s,
    (∀ r, exec i s = .refused r ↔
      i = .ecall ∧ s.getReg 17#5 = 6#32 ∧ s.getReg 11#5 = 0#32 ∧ r = .getlineZeroMaxlen) ∧
    (∀ f, exec i s = .fault f → i.IsLoad ∨ i.IsStore ∨ i = .ecall)

/-! ## Registers, host operations, console -/

/-- "`set(0, _)` is a no-op; `get(0)` always returns 0" (10_state.md R21), and any other register holds what was last
written to it. -/
def Obligations.RegisterFileReadsLastWrite : Prop :=
  ∀ (s : State) r q v, s.getReg 0#5 = 0#32 ∧ s.setReg 0#5 v = s ∧
    (s.setReg r v).getReg q = if q = r ∧ r ≠ 0#5 then v else s.getReg q

/-- loadProgram copies the bytes to consecutive RAM offsets and changes nothing else; a load that does not fit below the
RAM size is refused (20_memory.md R80, 70_reset_and_hazards.md R309; the refusal is the spec's decision D23: log 28). -/
def Obligations.LoadProgramCopiesBytes : Prop :=
  ∀ bytes a s, Memory.wf s.ram →
    (a + bytes.length ≤ s.ramSize → ∃ t, loadProgram bytes a s = .ok t ∧
      (∀ i (h : i < bytes.length), t.ramByte (a + i) = bytes[i]) ∧
      (∀ b, b < a ∨ a + bytes.length ≤ b → t.ramByte b = s.ramByte b) ∧
      SameRegs s t ∧ t.pc = s.pc ∧ SameEngine s t ∧ SameMap s t ∧ SameSurroundings s t) ∧
    (s.ramSize < a + bytes.length → loadProgram bytes a s = .error .loadDoesNotFit)

/-- "CR (0x0D) and LF (0x0A) both move to column 0 of the next row"; past row 24 the grid is shifted up by one row and the
cursor stays on the last row (60_exceptions.md R262, R265). -/
def Obligations.LineEndsMoveToNextRowOrScroll : Prop :=
  ∀ h (c : TextConsole) b, b = 0x0D#8 ∨ b = 0x0A#8 →
    let d := TextConsole.put h c b
    d.col.val = 0 ∧
    (c.row.val < 24 → d.row.val = c.row.val + 1 ∧ d.cells = c.cells) ∧
    (c.row.val = 24 → d.row.val = 24 ∧
      ∀ (r : Fin 25) (next : r.val + 1 < 25) col,
        TextConsole.cellAt d col r = TextConsole.cellAt c col ⟨r.val + 1, next⟩)

/-- The other control codes and the printable bytes: backspace goes back one column, never past column 0; tab goes to the
next multiple of 8 below column 80; every other byte is written at the cursor and advances one column, column 79 to column
0 of the next row; no other cell changes unless the grid scrolls, which a byte written in the last cell makes it do: each row
then holds the row below it, with that byte at the end of the last but one (60_exceptions.md R261, R263, R264, R265; which
bytes are printable is the spec's decision D27: log 15). -/
def Obligations.OtherBytesMoveCursor : Prop :=
  ∀ h (c : TextConsole),
    (let d := TextConsole.put h c 0x08#8
     d.col.val = c.col.val - 1 ∧ d.row = c.row ∧
       ∀ col row, row ≠ c.row ∨ (col ≠ c.col ∧ col.val + 1 ≠ c.col.val) →
         TextConsole.cellAt d col row = TextConsole.cellAt c col row) ∧
    (c.col.val < 72 →
      let d := TextConsole.put h c 0x09#8
      d.col.val = 8 * (c.col.val / 8 + 1) ∧ d.row = c.row ∧ d.cells = c.cells) ∧
    ∀ b, b ≠ 0x08#8 → b ≠ 0x09#8 → b ≠ 0x0A#8 → b ≠ 0x0D#8 →
      let d := TextConsole.put h c b
      (c.col.val < 79 → d.col.val = c.col.val + 1 ∧ d.row = c.row) ∧
      (c.col.val = 79 → d.col.val = 0 ∧ d.row.val = min (c.row.val + 1) 24) ∧
      (c.col.val < 79 ∨ c.row.val < 24 → (TextConsole.cellAt d c.col c.row).char = b ∧
        ∀ col row, col ≠ c.col ∨ row ≠ c.row → TextConsole.cellAt d col row = TextConsole.cellAt c col row) ∧
      (c.col.val = 79 → c.row.val = 24 → ∀ (r : Fin 25) (next : r.val + 1 < 25) (col : Fin 80),
        (col.val = 79 ∧ r.val = 23 → (TextConsole.cellAt d col r).char = b) ∧
        (col.val ≠ 79 ∨ r.val ≠ 23 → TextConsole.cellAt d col r = TextConsole.cellAt c col ⟨r.val + 1, next⟩))
end

