-- ==== Sys2Proof/Laws/Console.lean ====
section
/-! SUPPORT. What the console's operations do to its cells, and what an access to one byte of the graphics window does to
the console. -/

namespace Sys2Proof.Machine

/-! ## Cells -/

/-- The cell read after one is set. -/
theorem cellAt_setCell (c : TextConsole) (col col' : Fin 80) (row row' : Fin 25) (cell : TextCell) :
    TextConsole.cellAt (TextConsole.setCell c col row cell) col' row' =
      if col' = col ∧ row' = row then cell else TextConsole.cellAt c col' row' := by
  have get : ∀ {α : Type} {n : Nat} (v : Vector α n) (i j : Fin n) (x : α),
      (v.set i.val x).get j = if j = i then x else v.get j := by
    intro α n v i j x
    simp only [Vector.get_eq_getElem, Vector.getElem_set, Fin.ext_iff]
    simp only [eq_comm]
  simp only [TextConsole.cellAt, TextConsole.setCell, get]
  by_cases hr : row' = row <;> by_cases hc : col' = col <;> simp [hr, hc, get]

@[simp] theorem setCell_col (c : TextConsole) (col : Fin 80) (row : Fin 25) (cell : TextCell) :
    (TextConsole.setCell c col row cell).col = c.col := rfl

@[simp] theorem setCell_row (c : TextConsole) (col : Fin 80) (row : Fin 25) (cell : TextCell) :
    (TextConsole.setCell c col row cell).row = c.row := rfl

/-- The cells after a scroll (60_exceptions.md R265). -/
theorem cellAt_scrolled (h : List EnvEvent) (c : TextConsole) (col : Fin 80) (r : Fin 25) (next : r.val + 1 < 25) :
    ((TextConsole.scrolled h c).get r).get col = TextConsole.cellAt c col ⟨r.val + 1, next⟩ := by
  simp [TextConsole.scrolled, Vector.get_eq_getElem, next, TextConsole.cellAt]

/-! ## The text VRAM -/

/-- The bytes of the cells have addresses of their own (20_memory.md R62). -/
theorem vramAddress_inj {col col' : Fin 80} {row row' : Fin 25} {j j' : Fin 2}
    (h : vramAddress col row j = vramAddress col' row' j') : col = col' ∧ row = row' ∧ j = j' := by
  simp only [vramAddress] at h
  refine ⟨Fin.ext ?_, Fin.ext ?_, Fin.ext ?_⟩ <;> omega

/-- Every address of the text VRAM is that of a cell's byte. -/
theorem exists_vramAddress {a : Word} (low : 0x10001000 ≤ a.toNat) (high : a.toNat < 0x10001FA0) :
    ∃ col row j, a.toNat = vramAddress col row j :=
  ⟨⟨(a.toNat - 0x10001000) / 2 % 80, by omega⟩, ⟨(a.toNat - 0x10001000) / 2 / 80, by omega⟩,
    ⟨(a.toNat - 0x10001000) % 2, by omega⟩, by simp only [vramAddress]; omega⟩

/-- The offset of a cell's byte. -/
theorem vramOffset_vramAddress {a : Word} {col : Fin 80} {row : Fin 25} {j : Fin 2}
    (h : a.toNat = vramAddress col row j) :
    ∃ offset, vramOffset a = some offset ∧ offset.val = 2 * (80 * row.val + col.val) + j.val := by
  have inside : textVramBase ≤ a.toNat ∧ a.toNat - textVramBase < 2 * (80 * 25) := by
    simp only [vramAddress] at h
    simp only [textVramBase]
    omega
  refine ⟨⟨_, inside.2⟩, by rw [vramOffset, dif_pos inside], ?_⟩
  simp only [vramAddress] at h
  simp only [textVramBase]
  omega

/-- Writing a cell's byte changes that byte and nothing else (20_memory.md R62). -/
theorem cellByte_writeVram (c : TextConsole) (b : Byte) {offset : Fin (2 * (80 * 25))} {col : Fin 80} {row : Fin 25}
    {j : Fin 2} (h : offset.val = 2 * (80 * row.val + col.val) + j.val) (col' : Fin 80) (row' : Fin 25) (j' : Fin 2) :
    TextConsole.cellByte (TextConsole.writeVram c offset b) col' row' j' =
      if col' = col ∧ row' = row ∧ j' = j then b else TextConsole.cellByte c col' row' j' := by
  have hcol : (⟨offset.val / 2 % 80, Nat.mod_lt _ (by decide)⟩ : Fin 80) = col := Fin.ext (by simp only; omega)
  have hrow : (⟨offset.val / 2 / 80, by omega⟩ : Fin 25) = row := Fin.ext (by simp only; omega)
  have hj : offset.val % 2 = j.val := by omega
  simp only [TextConsole.writeVram, hcol, hrow, hj, TextConsole.cellByte, cellAt_setCell, TextCell.setByte]
  by_cases hc : col' = col ∧ row' = row
  · obtain ⟨rfl, rfl⟩ := hc
    match j, j' with
    | 0, 0 => simp
    | 0, 1 => simp
    | 1, 0 => simp
    | 1, 1 => simp
  · have : ¬ (col' = col ∧ row' = row ∧ j' = j) := fun k => hc ⟨k.1, k.2.1⟩
    simp [hc, this]

@[simp] theorem writeVram_col (c : TextConsole) (offset : Fin (2 * (80 * 25))) (b : Byte) :
    (TextConsole.writeVram c offset b).col = c.col := rfl

@[simp] theorem writeVram_row (c : TextConsole) (offset : Fin (2 * (80 * 25))) (b : Byte) :
    (TextConsole.writeVram c offset b).row = c.row := rfl

/-- A read of the text VRAM leaves the console alone. -/
theorem access_read_vram (h : List EnvEvent) (c : TextConsole) {a : Word} {col : Fin 80} {row : Fin 25} {j : Fin 2}
    (ha : a.toNat = vramAddress col row j) : TextConsole.access h c a none = c := by
  obtain ⟨offset, ho, -⟩ := vramOffset_vramAddress ha
  simp [TextConsole.access, ho]

/-- A write to the text VRAM sets its byte of its cell. -/
theorem access_write_vram (h : List EnvEvent) (c : TextConsole) (b : Byte) {a : Word} {col : Fin 80} {row : Fin 25}
    {j : Fin 2} (ha : a.toNat = vramAddress col row j) :
    ∃ offset : Fin (2 * (80 * 25)), TextConsole.access h c a (some b) = TextConsole.writeVram c offset b ∧
      offset.val = 2 * (80 * row.val + col.val) + j.val := by
  obtain ⟨offset, ho, hv⟩ := vramOffset_vramAddress ha
  exact ⟨offset, by simp [TextConsole.access, ho], hv⟩

end Sys2Proof.Machine
end

