-- ==== Sys2Proof/Laws/State.lean ====
section
/-! SUPPORT. What each update of State does to each field, so that no later proof unfolds a record update; and the
register file's read-after-write law. -/

namespace Sys2Proof.Machine

variable (s : State)

/-! ## setReg -/

@[simp] theorem setReg_pc (r : Reg) (v : Word) : (s.setReg r v).pc = s.pc := by unfold State.setReg; split <;> rfl
@[simp] theorem setReg_runState (r : Reg) (v : Word) : (s.setReg r v).runState = s.runState := by unfold State.setReg; split <;> rfl
@[simp] theorem setReg_halted (r : Reg) (v : Word) : (s.setReg r v).halted = s.halted := by unfold State.setReg; split <;> rfl
@[simp] theorem setReg_exitCode (r : Reg) (v : Word) : (s.setReg r v).exitCode = s.exitCode := by unfold State.setReg; split <;> rfl
@[simp] theorem setReg_haltCause (r : Reg) (v : Word) : (s.setReg r v).haltCause = s.haltCause := by unfold State.setReg; split <;> rfl
@[simp] theorem setReg_ramSize (r : Reg) (v : Word) : (s.setReg r v).ramSize = s.ramSize := by unfold State.setReg; split <;> rfl
@[simp] theorem setReg_ram (r : Reg) (v : Word) : (s.setReg r v).ram = s.ram := by unfold State.setReg; split <;> rfl
@[simp] theorem setReg_windows (r : Reg) (v : Word) : (s.setReg r v).windows = s.windows := by unfold State.setReg; split <;> rfl
@[simp] theorem setReg_decodeErrorCode (r : Reg) (v : Word) : (s.setReg r v).decodeErrorCode = s.decodeErrorCode := by unfold State.setReg; split <;> rfl
@[simp] theorem setReg_consoleOutput (r : Reg) (v : Word) : (s.setReg r v).consoleOutput = s.consoleOutput := by unfold State.setReg; split <;> rfl
@[simp] theorem setReg_console (r : Reg) (v : Word) : (s.setReg r v).console = s.console := by unfold State.setReg; split <;> rfl
@[simp] theorem setReg_inputs (r : Reg) (v : Word) : (s.setReg r v).inputs = s.inputs := by unfold State.setReg; split <;> rfl
@[simp] theorem setReg_events (r : Reg) (v : Word) : (s.setReg r v).events = s.events := by unfold State.setReg; split <;> rfl

/-! ## setPc -/

@[simp] theorem setPc_regs (t : Word) : (s.setPc t).regs = s.regs := rfl
@[simp] theorem setPc_pc (t : Word) : (s.setPc t).pc = t := rfl
@[simp] theorem setPc_runState (t : Word) : (s.setPc t).runState = s.runState := rfl
@[simp] theorem setPc_halted (t : Word) : (s.setPc t).halted = s.halted := rfl
@[simp] theorem setPc_exitCode (t : Word) : (s.setPc t).exitCode = s.exitCode := rfl
@[simp] theorem setPc_haltCause (t : Word) : (s.setPc t).haltCause = s.haltCause := rfl
@[simp] theorem setPc_ramSize (t : Word) : (s.setPc t).ramSize = s.ramSize := rfl
@[simp] theorem setPc_ram (t : Word) : (s.setPc t).ram = s.ram := rfl
@[simp] theorem setPc_windows (t : Word) : (s.setPc t).windows = s.windows := rfl
@[simp] theorem setPc_decodeErrorCode (t : Word) : (s.setPc t).decodeErrorCode = s.decodeErrorCode := rfl
@[simp] theorem setPc_consoleOutput (t : Word) : (s.setPc t).consoleOutput = s.consoleOutput := rfl
@[simp] theorem setPc_console (t : Word) : (s.setPc t).console = s.console := rfl
@[simp] theorem setPc_inputs (t : Word) : (s.setPc t).inputs = s.inputs := rfl
@[simp] theorem setPc_events (t : Word) : (s.setPc t).events = s.events := rfl

/-! ## advance -/

@[simp] theorem advance_regs : s.advance.regs = s.regs := rfl
@[simp] theorem advance_pc : s.advance.pc = s.pc + 4#32 := rfl
@[simp] theorem advance_runState : s.advance.runState = s.runState := rfl
@[simp] theorem advance_halted : s.advance.halted = s.halted := rfl
@[simp] theorem advance_exitCode : s.advance.exitCode = s.exitCode := rfl
@[simp] theorem advance_haltCause : s.advance.haltCause = s.haltCause := rfl
@[simp] theorem advance_ramSize : s.advance.ramSize = s.ramSize := rfl
@[simp] theorem advance_ram : s.advance.ram = s.ram := rfl
@[simp] theorem advance_windows : s.advance.windows = s.windows := rfl
@[simp] theorem advance_decodeErrorCode : s.advance.decodeErrorCode = s.decodeErrorCode := rfl
@[simp] theorem advance_consoleOutput : s.advance.consoleOutput = s.consoleOutput := rfl
@[simp] theorem advance_console : s.advance.console = s.console := rfl
@[simp] theorem advance_inputs : s.advance.inputs = s.inputs := rfl
@[simp] theorem advance_events : s.advance.events = s.events := rfl

/-! ## setRunState -/

@[simp] theorem setRunState_regs (r : RunState) : (s.setRunState r).regs = s.regs := rfl
@[simp] theorem setRunState_pc (r : RunState) : (s.setRunState r).pc = s.pc := rfl
@[simp] theorem setRunState_runState (r : RunState) : (s.setRunState r).runState = r := rfl
@[simp] theorem setRunState_halted (r : RunState) : (s.setRunState r).halted = s.halted := rfl
@[simp] theorem setRunState_exitCode (r : RunState) : (s.setRunState r).exitCode = s.exitCode := rfl
@[simp] theorem setRunState_haltCause (r : RunState) : (s.setRunState r).haltCause = s.haltCause := rfl
@[simp] theorem setRunState_ramSize (r : RunState) : (s.setRunState r).ramSize = s.ramSize := rfl
@[simp] theorem setRunState_ram (r : RunState) : (s.setRunState r).ram = s.ram := rfl
@[simp] theorem setRunState_windows (r : RunState) : (s.setRunState r).windows = s.windows := rfl
@[simp] theorem setRunState_decodeErrorCode (r : RunState) : (s.setRunState r).decodeErrorCode = s.decodeErrorCode := rfl
@[simp] theorem setRunState_consoleOutput (r : RunState) : (s.setRunState r).consoleOutput = s.consoleOutput := rfl
@[simp] theorem setRunState_console (r : RunState) : (s.setRunState r).console = s.console := rfl
@[simp] theorem setRunState_inputs (r : RunState) : (s.setRunState r).inputs = s.inputs := rfl
@[simp] theorem setRunState_events (r : RunState) : (s.setRunState r).events = s.events := rfl

/-! ## halt -/

@[simp] theorem halt_regs (c : HaltCause) (v : Word) : (halt c v s).regs = s.regs := rfl
@[simp] theorem halt_pc (c : HaltCause) (v : Word) : (halt c v s).pc = s.pc := rfl
@[simp] theorem halt_runState (c : HaltCause) (v : Word) : (halt c v s).runState = .halted := rfl
@[simp] theorem halt_halted (c : HaltCause) (v : Word) : (halt c v s).halted = true := rfl
@[simp] theorem halt_exitCode (c : HaltCause) (v : Word) : (halt c v s).exitCode = v := rfl
@[simp] theorem halt_haltCause (c : HaltCause) (v : Word) : (halt c v s).haltCause = c := rfl
@[simp] theorem halt_ramSize (c : HaltCause) (v : Word) : (halt c v s).ramSize = s.ramSize := rfl
@[simp] theorem halt_ram (c : HaltCause) (v : Word) : (halt c v s).ram = s.ram := rfl
@[simp] theorem halt_windows (c : HaltCause) (v : Word) : (halt c v s).windows = s.windows := rfl
@[simp] theorem halt_decodeErrorCode (c : HaltCause) (v : Word) : (halt c v s).decodeErrorCode = s.decodeErrorCode := rfl
@[simp] theorem halt_consoleOutput (c : HaltCause) (v : Word) : (halt c v s).consoleOutput = s.consoleOutput := rfl
@[simp] theorem halt_console (c : HaltCause) (v : Word) : (halt c v s).console = s.console := rfl
@[simp] theorem halt_inputs (c : HaltCause) (v : Word) : (halt c v s).inputs = s.inputs := rfl
@[simp] theorem halt_events (c : HaltCause) (v : Word) : (halt c v s).events = s.events := rfl

/-! ## raiseDecodeError -/

@[simp] theorem raiseDecodeError_regs : (raiseDecodeError s).regs = s.regs := rfl
@[simp] theorem raiseDecodeError_pc : (raiseDecodeError s).pc = s.pc := rfl
@[simp] theorem raiseDecodeError_runState : (raiseDecodeError s).runState = .halted := rfl
@[simp] theorem raiseDecodeError_halted : (raiseDecodeError s).halted = true := rfl
@[simp] theorem raiseDecodeError_exitCode : (raiseDecodeError s).exitCode = s.decodeErrorCode := rfl
@[simp] theorem raiseDecodeError_haltCause : (raiseDecodeError s).haltCause = .decodeError := rfl
@[simp] theorem raiseDecodeError_ramSize : (raiseDecodeError s).ramSize = s.ramSize := rfl
@[simp] theorem raiseDecodeError_ram : (raiseDecodeError s).ram = s.ram := rfl
@[simp] theorem raiseDecodeError_windows : (raiseDecodeError s).windows = s.windows := rfl
@[simp] theorem raiseDecodeError_decodeErrorCode : (raiseDecodeError s).decodeErrorCode = s.decodeErrorCode := rfl
@[simp] theorem raiseDecodeError_consoleOutput : (raiseDecodeError s).consoleOutput = s.consoleOutput := rfl
@[simp] theorem raiseDecodeError_console : (raiseDecodeError s).console = s.console := rfl
@[simp] theorem raiseDecodeError_inputs : (raiseDecodeError s).inputs = s.inputs := rfl
@[simp] theorem raiseDecodeError_events : (raiseDecodeError s).events = s.events := rfl

/-! ## note -/

@[simp] theorem note_regs (e : EnvEvent) : (s.note e).regs = s.regs := rfl
@[simp] theorem note_pc (e : EnvEvent) : (s.note e).pc = s.pc := rfl
@[simp] theorem note_runState (e : EnvEvent) : (s.note e).runState = s.runState := rfl
@[simp] theorem note_halted (e : EnvEvent) : (s.note e).halted = s.halted := rfl
@[simp] theorem note_exitCode (e : EnvEvent) : (s.note e).exitCode = s.exitCode := rfl
@[simp] theorem note_haltCause (e : EnvEvent) : (s.note e).haltCause = s.haltCause := rfl
@[simp] theorem note_ramSize (e : EnvEvent) : (s.note e).ramSize = s.ramSize := rfl
@[simp] theorem note_ram (e : EnvEvent) : (s.note e).ram = s.ram := rfl
@[simp] theorem note_windows (e : EnvEvent) : (s.note e).windows = s.windows := rfl
@[simp] theorem note_decodeErrorCode (e : EnvEvent) : (s.note e).decodeErrorCode = s.decodeErrorCode := rfl
@[simp] theorem note_consoleOutput (e : EnvEvent) : (s.note e).consoleOutput = s.consoleOutput := rfl
@[simp] theorem note_console (e : EnvEvent) : (s.note e).console = s.console := rfl
@[simp] theorem note_inputs (e : EnvEvent) : (s.note e).inputs = s.inputs := rfl
@[simp] theorem note_events (e : EnvEvent) : (s.note e).events = s.events ++ [e] := rfl

/-! ## setInputs -/

@[simp] theorem setInputs_regs (i : EnvInputs) : (s.setInputs i).regs = s.regs := rfl
@[simp] theorem setInputs_pc (i : EnvInputs) : (s.setInputs i).pc = s.pc := rfl
@[simp] theorem setInputs_runState (i : EnvInputs) : (s.setInputs i).runState = s.runState := rfl
@[simp] theorem setInputs_halted (i : EnvInputs) : (s.setInputs i).halted = s.halted := rfl
@[simp] theorem setInputs_exitCode (i : EnvInputs) : (s.setInputs i).exitCode = s.exitCode := rfl
@[simp] theorem setInputs_haltCause (i : EnvInputs) : (s.setInputs i).haltCause = s.haltCause := rfl
@[simp] theorem setInputs_ramSize (i : EnvInputs) : (s.setInputs i).ramSize = s.ramSize := rfl
@[simp] theorem setInputs_ram (i : EnvInputs) : (s.setInputs i).ram = s.ram := rfl
@[simp] theorem setInputs_windows (i : EnvInputs) : (s.setInputs i).windows = s.windows := rfl
@[simp] theorem setInputs_decodeErrorCode (i : EnvInputs) : (s.setInputs i).decodeErrorCode = s.decodeErrorCode := rfl
@[simp] theorem setInputs_consoleOutput (i : EnvInputs) : (s.setInputs i).consoleOutput = s.consoleOutput := rfl
@[simp] theorem setInputs_console (i : EnvInputs) : (s.setInputs i).console = s.console := rfl
@[simp] theorem setInputs_inputs (i : EnvInputs) : (s.setInputs i).inputs = i := rfl
@[simp] theorem setInputs_events (i : EnvInputs) : (s.setInputs i).events = s.events := rfl

/-! ## setConsole -/

@[simp] theorem setConsole_regs (c : TextConsole) : (s.setConsole c).regs = s.regs := rfl
@[simp] theorem setConsole_pc (c : TextConsole) : (s.setConsole c).pc = s.pc := rfl
@[simp] theorem setConsole_runState (c : TextConsole) : (s.setConsole c).runState = s.runState := rfl
@[simp] theorem setConsole_halted (c : TextConsole) : (s.setConsole c).halted = s.halted := rfl
@[simp] theorem setConsole_exitCode (c : TextConsole) : (s.setConsole c).exitCode = s.exitCode := rfl
@[simp] theorem setConsole_haltCause (c : TextConsole) : (s.setConsole c).haltCause = s.haltCause := rfl
@[simp] theorem setConsole_ramSize (c : TextConsole) : (s.setConsole c).ramSize = s.ramSize := rfl
@[simp] theorem setConsole_ram (c : TextConsole) : (s.setConsole c).ram = s.ram := rfl
@[simp] theorem setConsole_windows (c : TextConsole) : (s.setConsole c).windows = s.windows := rfl
@[simp] theorem setConsole_decodeErrorCode (c : TextConsole) : (s.setConsole c).decodeErrorCode = s.decodeErrorCode := rfl
@[simp] theorem setConsole_consoleOutput (c : TextConsole) : (s.setConsole c).consoleOutput = s.consoleOutput := rfl
@[simp] theorem setConsole_console (c : TextConsole) : (s.setConsole c).console = c := rfl
@[simp] theorem setConsole_inputs (c : TextConsole) : (s.setConsole c).inputs = s.inputs := rfl
@[simp] theorem setConsole_events (c : TextConsole) : (s.setConsole c).events = s.events := rfl

/-! ## setRam -/

@[simp] theorem setRam_regs (m : Memory) : (s.setRam m).regs = s.regs := rfl
@[simp] theorem setRam_pc (m : Memory) : (s.setRam m).pc = s.pc := rfl
@[simp] theorem setRam_runState (m : Memory) : (s.setRam m).runState = s.runState := rfl
@[simp] theorem setRam_halted (m : Memory) : (s.setRam m).halted = s.halted := rfl
@[simp] theorem setRam_exitCode (m : Memory) : (s.setRam m).exitCode = s.exitCode := rfl
@[simp] theorem setRam_haltCause (m : Memory) : (s.setRam m).haltCause = s.haltCause := rfl
@[simp] theorem setRam_ramSize (m : Memory) : (s.setRam m).ramSize = s.ramSize := rfl
@[simp] theorem setRam_ram (m : Memory) : (s.setRam m).ram = m := rfl
@[simp] theorem setRam_windows (m : Memory) : (s.setRam m).windows = s.windows := rfl
@[simp] theorem setRam_decodeErrorCode (m : Memory) : (s.setRam m).decodeErrorCode = s.decodeErrorCode := rfl
@[simp] theorem setRam_consoleOutput (m : Memory) : (s.setRam m).consoleOutput = s.consoleOutput := rfl
@[simp] theorem setRam_console (m : Memory) : (s.setRam m).console = s.console := rfl
@[simp] theorem setRam_inputs (m : Memory) : (s.setRam m).inputs = s.inputs := rfl
@[simp] theorem setRam_events (m : Memory) : (s.setRam m).events = s.events := rfl

/-! ## consolePut -/

@[simp] theorem consolePut_regs (b : Byte) : (s.consolePut b).regs = s.regs := rfl
@[simp] theorem consolePut_pc (b : Byte) : (s.consolePut b).pc = s.pc := rfl
@[simp] theorem consolePut_runState (b : Byte) : (s.consolePut b).runState = s.runState := rfl
@[simp] theorem consolePut_halted (b : Byte) : (s.consolePut b).halted = s.halted := rfl
@[simp] theorem consolePut_exitCode (b : Byte) : (s.consolePut b).exitCode = s.exitCode := rfl
@[simp] theorem consolePut_haltCause (b : Byte) : (s.consolePut b).haltCause = s.haltCause := rfl
@[simp] theorem consolePut_ramSize (b : Byte) : (s.consolePut b).ramSize = s.ramSize := rfl
@[simp] theorem consolePut_ram (b : Byte) : (s.consolePut b).ram = s.ram := rfl
@[simp] theorem consolePut_windows (b : Byte) : (s.consolePut b).windows = s.windows := rfl
@[simp] theorem consolePut_decodeErrorCode (b : Byte) : (s.consolePut b).decodeErrorCode = s.decodeErrorCode := rfl
@[simp] theorem consolePut_consoleOutput (b : Byte) : (s.consolePut b).consoleOutput = s.consoleOutput ++ [b] := rfl
@[simp] theorem consolePut_console (b : Byte) : (s.consolePut b).console = TextConsole.put s.events s.console b := rfl
@[simp] theorem consolePut_inputs (b : Byte) : (s.consolePut b).inputs = s.inputs := rfl
@[simp] theorem consolePut_events (b : Byte) : (s.consolePut b).events = s.events ++ [.consolePut b] := rfl

/-! ## afterAccess -/

@[simp] theorem afterAccess_regs (d : Device) (a : Word) (written : Option Byte) : (s.afterAccess d a written).regs = s.regs := by cases d <;> rfl
@[simp] theorem afterAccess_pc (d : Device) (a : Word) (written : Option Byte) : (s.afterAccess d a written).pc = s.pc := by cases d <;> rfl
@[simp] theorem afterAccess_runState (d : Device) (a : Word) (written : Option Byte) : (s.afterAccess d a written).runState = s.runState := by cases d <;> rfl
@[simp] theorem afterAccess_halted (d : Device) (a : Word) (written : Option Byte) : (s.afterAccess d a written).halted = s.halted := by cases d <;> rfl
@[simp] theorem afterAccess_exitCode (d : Device) (a : Word) (written : Option Byte) : (s.afterAccess d a written).exitCode = s.exitCode := by cases d <;> rfl
@[simp] theorem afterAccess_haltCause (d : Device) (a : Word) (written : Option Byte) : (s.afterAccess d a written).haltCause = s.haltCause := by cases d <;> rfl
@[simp] theorem afterAccess_ramSize (d : Device) (a : Word) (written : Option Byte) : (s.afterAccess d a written).ramSize = s.ramSize := by cases d <;> rfl
@[simp] theorem afterAccess_ram (d : Device) (a : Word) (written : Option Byte) : (s.afterAccess d a written).ram = s.ram := by cases d <;> rfl
@[simp] theorem afterAccess_windows (d : Device) (a : Word) (written : Option Byte) : (s.afterAccess d a written).windows = s.windows := by cases d <;> rfl
@[simp] theorem afterAccess_decodeErrorCode (d : Device) (a : Word) (written : Option Byte) : (s.afterAccess d a written).decodeErrorCode = s.decodeErrorCode := by cases d <;> rfl
@[simp] theorem afterAccess_consoleOutput (d : Device) (a : Word) (written : Option Byte) : (s.afterAccess d a written).consoleOutput = s.consoleOutput := by cases d <;> rfl
@[simp] theorem afterAccess_inputs (d : Device) (a : Word) (written : Option Byte) : (s.afterAccess d a written).inputs = s.inputs := by cases d <;> rfl
@[simp] theorem afterAccess_events (d : Device) (a : Word) (written : Option Byte) : (s.afterAccess d a written).events = s.events := by cases d <;> rfl

/-! ## Registers -/

/-- The register read depends on the register file alone. -/
theorem getReg_congr {s t : State} (h : t.regs = s.regs) (r : Reg) : t.getReg r = s.getReg r := by
  simp only [State.getReg, h]

@[simp] theorem getReg_zero : s.getReg 0#5 = 0#32 := rfl

/-- Read after write (10_state.md R21). -/
theorem getReg_setReg (r q : Reg) (v : Word) :
    (s.setReg r v).getReg q = if q = r ∧ r ≠ 0#5 then v else s.getReg q := by
  by_cases hr : r = 0#5
  · simp [State.setReg, hr]
  · by_cases hq : q = r
    · subst hq
      simp [State.setReg, State.getReg, hr]
    · have hn : r.toNat ≠ q.toNat := fun h => hq (BitVec.eq_of_toNat_eq h).symm
      simp [State.setReg, State.getReg, hr, hq, hn]

@[simp] theorem getReg_setReg_same (r : Reg) (v : Word) : (s.setReg r v).getReg r = if r = 0#5 then 0#32 else v := by
  rw [getReg_setReg]
  by_cases h : r = 0#5 <;> simp [h]

theorem getReg_setReg_ne {r q : Reg} (v : Word) (h : q ≠ r) : (s.setReg r v).getReg q = s.getReg q := by
  simp [getReg_setReg, h]

@[simp] theorem getReg_setPc (t : Word) (q : Reg) : (s.setPc t).getReg q = s.getReg q := getReg_congr (by simp) q
@[simp] theorem getReg_advance (q : Reg) : s.advance.getReg q = s.getReg q := getReg_congr (by simp) q
@[simp] theorem getReg_setRunState (r : RunState) (q : Reg) : (s.setRunState r).getReg q = s.getReg q := getReg_congr (by simp) q
@[simp] theorem getReg_halt (c : HaltCause) (v : Word) (q : Reg) : (halt c v s).getReg q = s.getReg q := getReg_congr (by simp) q
@[simp] theorem getReg_raiseDecodeError (q : Reg) : (raiseDecodeError s).getReg q = s.getReg q := getReg_congr (by simp) q
@[simp] theorem getReg_note (e : EnvEvent) (q : Reg) : (s.note e).getReg q = s.getReg q := getReg_congr (by simp) q
@[simp] theorem getReg_setInputs (i : EnvInputs) (q : Reg) : (s.setInputs i).getReg q = s.getReg q := getReg_congr (by simp) q
@[simp] theorem getReg_setConsole (c : TextConsole) (q : Reg) : (s.setConsole c).getReg q = s.getReg q := getReg_congr (by simp) q
@[simp] theorem getReg_setRam (m : Memory) (q : Reg) : (s.setRam m).getReg q = s.getReg q := getReg_congr (by simp) q
@[simp] theorem getReg_consolePut (b : Byte) (q : Reg) : (s.consolePut b).getReg q = s.getReg q := getReg_congr (by simp) q
@[simp] theorem getReg_afterAccess (d : Device) (a : Word) (written : Option Byte) (q : Reg) : (s.afterAccess d a written).getReg q = s.getReg q := getReg_congr (by simp) q

/-! ## RAM bytes -/

@[simp] theorem ramByte_setReg (r : Reg) (v : Word) (a : Nat) : (s.setReg r v).ramByte a = s.ramByte a := by simp [State.ramByte]
@[simp] theorem ramByte_setPc (t : Word) (a : Nat) : (s.setPc t).ramByte a = s.ramByte a := by simp [State.ramByte]
@[simp] theorem ramByte_advance (a : Nat) : s.advance.ramByte a = s.ramByte a := by simp [State.ramByte]
@[simp] theorem ramByte_setRunState (r : RunState) (a : Nat) : (s.setRunState r).ramByte a = s.ramByte a := by simp [State.ramByte]
@[simp] theorem ramByte_halt (c : HaltCause) (v : Word) (a : Nat) : (halt c v s).ramByte a = s.ramByte a := by simp [State.ramByte]
@[simp] theorem ramByte_raiseDecodeError (a : Nat) : (raiseDecodeError s).ramByte a = s.ramByte a := by simp [State.ramByte]
@[simp] theorem ramByte_note (e : EnvEvent) (a : Nat) : (s.note e).ramByte a = s.ramByte a := by simp [State.ramByte]
@[simp] theorem ramByte_setInputs (i : EnvInputs) (a : Nat) : (s.setInputs i).ramByte a = s.ramByte a := by simp [State.ramByte]
@[simp] theorem ramByte_setConsole (c : TextConsole) (a : Nat) : (s.setConsole c).ramByte a = s.ramByte a := by simp [State.ramByte]
@[simp] theorem ramByte_consolePut (b : Byte) (a : Nat) : (s.consolePut b).ramByte a = s.ramByte a := by simp [State.ramByte]
@[simp] theorem ramByte_afterAccess (d : Device) (a : Word) (written : Option Byte) (k : Nat) :
    (s.afterAccess d a written).ramByte k = s.ramByte k := by simp [State.ramByte]

@[simp] theorem ramByte_setRam (m : Memory) (a : Nat) : (s.setRam m).ramByte a = Memory.read m a := rfl

/-! ## consolePutAll -/

@[simp] theorem consolePutAll_regs (bs : List Byte) : (s.consolePutAll bs).regs = s.regs := by
  induction bs generalizing s with
  | nil => rfl
  | cons b bs ih => simp [State.consolePutAll, ih]
@[simp] theorem consolePutAll_pc (bs : List Byte) : (s.consolePutAll bs).pc = s.pc := by
  induction bs generalizing s with
  | nil => rfl
  | cons b bs ih => simp [State.consolePutAll, ih]
@[simp] theorem consolePutAll_runState (bs : List Byte) : (s.consolePutAll bs).runState = s.runState := by
  induction bs generalizing s with
  | nil => rfl
  | cons b bs ih => simp [State.consolePutAll, ih]
@[simp] theorem consolePutAll_halted (bs : List Byte) : (s.consolePutAll bs).halted = s.halted := by
  induction bs generalizing s with
  | nil => rfl
  | cons b bs ih => simp [State.consolePutAll, ih]
@[simp] theorem consolePutAll_exitCode (bs : List Byte) : (s.consolePutAll bs).exitCode = s.exitCode := by
  induction bs generalizing s with
  | nil => rfl
  | cons b bs ih => simp [State.consolePutAll, ih]
@[simp] theorem consolePutAll_haltCause (bs : List Byte) : (s.consolePutAll bs).haltCause = s.haltCause := by
  induction bs generalizing s with
  | nil => rfl
  | cons b bs ih => simp [State.consolePutAll, ih]
@[simp] theorem consolePutAll_ramSize (bs : List Byte) : (s.consolePutAll bs).ramSize = s.ramSize := by
  induction bs generalizing s with
  | nil => rfl
  | cons b bs ih => simp [State.consolePutAll, ih]
@[simp] theorem consolePutAll_ram (bs : List Byte) : (s.consolePutAll bs).ram = s.ram := by
  induction bs generalizing s with
  | nil => rfl
  | cons b bs ih => simp [State.consolePutAll, ih]
@[simp] theorem consolePutAll_windows (bs : List Byte) : (s.consolePutAll bs).windows = s.windows := by
  induction bs generalizing s with
  | nil => rfl
  | cons b bs ih => simp [State.consolePutAll, ih]
@[simp] theorem consolePutAll_decodeErrorCode (bs : List Byte) : (s.consolePutAll bs).decodeErrorCode = s.decodeErrorCode := by
  induction bs generalizing s with
  | nil => rfl
  | cons b bs ih => simp [State.consolePutAll, ih]
@[simp] theorem consolePutAll_inputs (bs : List Byte) : (s.consolePutAll bs).inputs = s.inputs := by
  induction bs generalizing s with
  | nil => rfl
  | cons b bs ih => simp [State.consolePutAll, ih]
@[simp] theorem consolePutAll_consoleOutput (bs : List Byte) :
    (s.consolePutAll bs).consoleOutput = s.consoleOutput ++ bs := by
  induction bs generalizing s with
  | nil => simp [State.consolePutAll]
  | cons b bs ih => simp [State.consolePutAll, ih]
@[simp] theorem consolePutAll_events (bs : List Byte) :
    (s.consolePutAll bs).events = s.events ++ bs.map .consolePut := by
  induction bs generalizing s with
  | nil => simp [State.consolePutAll]
  | cons b bs ih => simp [State.consolePutAll, ih]
@[simp] theorem getReg_consolePutAll (bs : List Byte) (q : Reg) : (s.consolePutAll bs).getReg q = s.getReg q :=
  getReg_congr (by simp) q
@[simp] theorem ramByte_consolePutAll (bs : List Byte) (a : Nat) : (s.consolePutAll bs).ramByte a = s.ramByte a := by
  simp [State.ramByte]

end Sys2Proof.Machine
end

