-- ==== Sys2Proof/Laws/Bus.lean ====
section
/-! SUPPORT. What the bus operations do: one frame for all of them (`BusFrame`), when they complete, what they answer, and
what they leave in RAM. -/

namespace Sys2Proof.Machine

/-! ## Routing -/

/-- Below the graphics window every address is RAM (20_memory.md R54, R62). -/
theorem route_below {graphicsLen storageLen keyboardLen : Nat} {a : Word} (h : a.toNat < 0x10000000) :
    route (platformWindows graphicsLen storageLen keyboardLen) a = none := by
  simp only [route, platformWindows, Option.map_eq_none_iff, List.find?_eq_none, List.mem_cons, List.not_mem_nil, or_false]
  rintro w (rfl | rfl | rfl) hw <;>
  · have base := of_decide_eq_true (Bool.and_eq_true_iff.mp hw).1
    simp only [Config.graphicsBase, Config.storageBase, Config.keyboardBase] at base
    omega

/-! ## Byte addresses -/

@[simp] theorem byteAddress_zero (a : Word) : byteAddress a 0 = a := by simp [byteAddress]

theorem byteAddress_succ (a : Word) (i : Nat) : byteAddress (a + 1#32) i = byteAddress a (i + 1) := by
  apply BitVec.eq_of_toNat_eq
  simp only [byteAddress, BitVec.toNat_add, BitVec.toNat_ofNat]
  omega

theorem byteAddress_add (a : Word) (i j : Nat) : byteAddress (byteAddress a i) j = byteAddress a (i + j) := by
  apply BitVec.eq_of_toNat_eq
  simp only [byteAddress, BitVec.toNat_add, BitVec.toNat_ofNat]
  omega

theorem byteAddress_toNat (a : Word) (i : Nat) : (byteAddress a i).toNat = (a.toNat + i) % 2 ^ 32 := by
  simp [byteAddress]

/-- The byte addresses of an access that is no longer than the address space differ. -/
theorem byteAddress_inj {a : Word} {i j : Nat} (hi : i < 2 ^ 32) (hj : j < 2 ^ 32)
    (h : (byteAddress a i).toNat = (byteAddress a j).toNat) : i = j := by
  simp only [byteAddress_toNat] at h
  have := a.isLt
  omega

theorem accessibleRange_succ {s : State} {a : Word} {n : Nat} :
    s.AccessibleRange a (n + 1) ↔ s.Accessible a ∧ s.AccessibleRange (a + 1#32) n := by
  constructor
  · intro h
    refine ⟨by simpa using h 0 (Nat.succ_pos n), fun i hi => ?_⟩
    rw [byteAddress_succ]
    exact h (i + 1) (Nat.succ_lt_succ hi)
  · rintro ⟨h0, h⟩ i hi
    cases i with
    | zero => simpa using h0
    | succ i => exact byteAddress_succ a i ▸ h i (Nat.lt_of_succ_lt_succ hi)

theorem ramRange_succ {s : State} {a : Word} {n : Nat} :
    s.RamRange a (n + 1) ↔ s.InRam a ∧ s.RamRange (a + 1#32) n := by
  constructor
  · intro h
    refine ⟨by simpa using h 0 (Nat.succ_pos n), fun i hi => ?_⟩
    rw [byteAddress_succ]
    exact h (i + 1) (Nat.succ_lt_succ hi)
  · rintro ⟨h0, h⟩ i hi
    cases i with
    | zero => simpa using h0
    | succ i => exact byteAddress_succ a i ▸ h i (Nat.lt_of_succ_lt_succ hi)

theorem accessibleRange_of_ramRange {s : State} {a : Word} {n : Nat} (h : s.RamRange a n) : s.AccessibleRange a n :=
  fun i hi => .inr (h i hi).2

theorem ramRange_mono {s : State} {a : Word} {m n : Nat} (h : s.RamRange a n) (hm : m ≤ n) : s.RamRange a m :=
  fun i hi => h i (Nat.lt_of_lt_of_le hi hm)

theorem ramBytes_succ (s : State) (a : Word) (n : Nat) :
    s.ramBytes a (n + 1) = s.ramByte a.toNat :: s.ramBytes (a + 1#32) n := by
  simp only [State.ramBytes, List.range_succ_eq_map, List.map_cons, List.map_map, byteAddress_zero]
  congr 1
  refine List.map_congr_left fun i _ => ?_
  simp [byteAddress_succ]

theorem ramBytes_length (s : State) (a : Word) (n : Nat) : (s.ramBytes a n).length = n := by simp [State.ramBytes]

/-- Being reachable does not depend on anything but the map and the RAM size. -/
theorem accessible_congr {s t : State} (hw : t.windows = s.windows) (hr : t.ramSize = s.ramSize) (a : Word) :
    t.Accessible a ↔ s.Accessible a := by simp [State.Accessible, hw, hr]

theorem inRam_congr {s t : State} (hw : t.windows = s.windows) (hr : t.ramSize = s.ramSize) (a : Word) :
    t.InRam a ↔ s.InRam a := by simp [State.InRam, hw, hr]

/-! ## The frame -/

/-- What no bus access changes, and what it keeps. -/
structure BusFrame (s t : State) : Prop where
  regs            : t.regs = s.regs
  pc              : t.pc = s.pc
  runState        : t.runState = s.runState
  halted          : t.halted = s.halted
  exitCode        : t.exitCode = s.exitCode
  haltCause       : t.haltCause = s.haltCause
  ramSize         : t.ramSize = s.ramSize
  windows         : t.windows = s.windows
  decodeErrorCode : t.decodeErrorCode = s.decodeErrorCode
  consoleOutput   : t.consoleOutput = s.consoleOutput
  events          : s.events <+: t.events
  ramCanonical    : Memory.wf s.ram → Memory.wf t.ram
  ramInside       : (∀ c ∈ s.ram, c.1 < s.ramSize) → ∀ c ∈ t.ram, c.1 < t.ramSize

theorem BusFrame.refl (s : State) : BusFrame s s :=
  ⟨rfl, rfl, rfl, rfl, rfl, rfl, rfl, rfl, rfl, rfl, List.prefix_refl _, id, id⟩

theorem BusFrame.trans {s t u : State} (h : BusFrame s t) (k : BusFrame t u) : BusFrame s u where
  regs := k.regs.trans h.regs
  pc := k.pc.trans h.pc
  runState := k.runState.trans h.runState
  halted := k.halted.trans h.halted
  exitCode := k.exitCode.trans h.exitCode
  haltCause := k.haltCause.trans h.haltCause
  ramSize := k.ramSize.trans h.ramSize
  windows := k.windows.trans h.windows
  decodeErrorCode := k.decodeErrorCode.trans h.decodeErrorCode
  consoleOutput := k.consoleOutput.trans h.consoleOutput
  events := h.events.trans k.events
  ramCanonical := k.ramCanonical ∘ h.ramCanonical
  ramInside := k.ramInside ∘ h.ramInside

theorem BusFrame.getReg {s t : State} (h : BusFrame s t) (r : Reg) : t.getReg r = s.getReg r := by
  simp [State.getReg, h.regs]

theorem BusFrame.sameRegs {s t : State} (h : BusFrame s t) : SameRegs s t := h.getReg

theorem BusFrame.sameEngine {s t : State} (h : BusFrame s t) : SameEngine s t :=
  ⟨h.runState, h.halted, h.exitCode, h.haltCause⟩

theorem BusFrame.sameMap {s t : State} (h : BusFrame s t) : SameMap s t :=
  ⟨h.ramSize, h.windows, h.decodeErrorCode⟩

/-! ## One byte -/

/-- The device operations keep the frame and RAM. -/
theorem devRead_frame (d : Device) (a : Word) (s : State) :
    BusFrame s (devRead d a s).2 ∧ (devRead d a s).2.ram = s.ram := by
  refine ⟨?_, by simp [devRead]⟩
  constructor <;> simp [devRead]

theorem devWrite_frame (d : Device) (a : Word) (b : Byte) (s : State) :
    BusFrame s (devWrite d a b s) ∧ (devWrite d a b s).ram = s.ram := by
  refine ⟨?_, by simp [devWrite]⟩
  constructor <;> simp [devWrite]

/-- A byte read in RAM is the RAM byte and changes nothing (20_memory.md R68). -/
theorem byteRead_inRam {s : State} {a : Word} (h : s.InRam a) : byteRead a s = .ok (s.ramByte a.toNat, s) := by
  simp [byteRead, h.1, h.2, State.ramByte]

/-- A byte read in a window is one device read. -/
theorem byteRead_window {s : State} {a : Word} {d : Device} (h : route s.windows a = some d) :
    byteRead a s = .ok (devRead d a s) := by
  simp [byteRead, h]

theorem byteRead_frame {s t : State} {a : Word} {b : Byte} (h : byteRead a s = .ok (b, t)) :
    BusFrame s t ∧ t.ram = s.ram := by
  unfold byteRead at h
  split at h
  · rename_i d hd
    cases h
    exact devRead_frame d a s
  · split at h
    · cases h
      exact ⟨.refl s, rfl⟩
    · cases h

theorem byteRead_completes {s : State} {a : Word} (h : s.Accessible a) : ∃ b t, byteRead a s = .ok (b, t) := by
  unfold byteRead
  split
  · exact ⟨_, _, rfl⟩
  · rename_i hr
    rw [if_pos (h.resolve_left fun h => h hr)]
    exact ⟨_, _, rfl⟩

theorem byteRead_outOfRange {s : State} {a : Word} (h : ¬ s.Accessible a) :
    byteRead a s = .error (.fault .ramOutOfRange) := by
  have h1 : route s.windows a = none := by
    by_contra hr
    exact h (.inl hr)
  have h2 : ¬ a.toNat < s.ramSize := fun hr => h (.inr hr)
  simp [byteRead, h1, h2]

theorem byteWrite_inRam {s : State} {a : Word} (b : Byte) (h : s.InRam a) :
    byteWrite a b s = .ok (s.setRam (s.ram.write a.toNat b)) := by
  simp [byteWrite, h.1, h.2]

theorem byteWrite_window {s : State} {a : Word} (b : Byte) {d : Device} (h : route s.windows a = some d) :
    byteWrite a b s = .ok (devWrite d a b s) := by
  simp [byteWrite, h]

/-- What a byte write that completes did (20_memory.md R56, R58): in RAM it stored the byte, in a window it delivered it. -/
theorem byteWrite_cases {s t : State} {a : Word} {b : Byte} (h : byteWrite a b s = .ok t) :
    (s.InRam a ∧ t = s.setRam (s.ram.write a.toNat b)) ∨ (∃ d, route s.windows a = some d ∧ t = devWrite d a b s) := by
  unfold byteWrite at h
  split at h
  · rename_i d hd
    cases h
    exact .inr ⟨d, hd, rfl⟩
  · rename_i hr
    split at h
    · rename_i hlt
      cases h
      exact .inl ⟨⟨hr, hlt⟩, rfl⟩
    · cases h

theorem byteWrite_frame {s t : State} {a : Word} {b : Byte} (h : byteWrite a b s = .ok t) : BusFrame s t := by
  rcases byteWrite_cases h with ⟨hin, rfl⟩ | ⟨d, -, rfl⟩
  · constructor <;> simp
    · exact fun h1 h2 => Memory.wf_write a.toNat b ⟨h1, fun c hc => h2 c.1 c.2 hc⟩
    · exact fun h1 => fun k v hc => Memory.inside_write b hin.2 (fun c hc => h1 c.1 c.2 hc) (k, v) hc
  · exact (devWrite_frame d a b s).1

theorem byteWrite_completes {s : State} {a : Word} (b : Byte) (h : s.Accessible a) : ∃ t, byteWrite a b s = .ok t := by
  unfold byteWrite
  split
  · exact ⟨_, rfl⟩
  · rename_i hr
    rw [if_pos (h.resolve_left fun h => h hr)]
    exact ⟨_, rfl⟩

theorem byteWrite_outOfRange {s : State} {a : Word} (b : Byte) (h : ¬ s.Accessible a) :
    byteWrite a b s = .error (.fault .ramOutOfRange) := by
  have h1 : route s.windows a = none := by
    by_contra hr
    exact h (.inl hr)
  have h2 : ¬ a.toNat < s.ramSize := fun hr => h (.inr hr)
  simp [byteWrite, h1, h2]

/-! ## Several bytes, read -/

/-- `n` bytes read from RAM are the RAM bytes, and nothing changes. -/
theorem readBytes_ram {s : State} {a : Word} {n : Nat} (h : s.RamRange a n) :
    readBytes n a s = .ok (s.ramBytes a n, s) := by
  induction n generalizing a with
  | zero => rfl
  | succ n ih =>
    obtain ⟨h0, h⟩ := ramRange_succ.mp h
    simp only [readBytes, byteRead_inRam h0, ramBytes_succ, bind, Except.bind, ih h]
    rfl

/-- A read that completes: the bytes read, the frame, RAM kept. -/
theorem readBytes_frame {s t : State} {a : Word} {n : Nat} {bs : List Byte} (h : readBytes n a s = .ok (bs, t)) :
    BusFrame s t ∧ t.ram = s.ram ∧ bs.length = n := by
  induction n generalizing a s bs with
  | zero => cases h; exact ⟨.refl _, rfl, rfl⟩
  | succ n ih =>
    rw [readBytes] at h
    cases h1 : byteRead a s with
    | error e => rw [h1] at h; cases h
    | ok p =>
      obtain ⟨b, u⟩ := p
      rw [h1] at h
      cases h2 : readBytes n (a + 1#32) u with
      | error e => simp only [bind, Except.bind, h2] at h; cases h
      | ok q =>
        obtain ⟨cs, v⟩ := q
        simp only [bind, Except.bind, h2] at h
        cases h
        obtain ⟨f1, m1⟩ := byteRead_frame h1
        obtain ⟨f2, m2, l2⟩ := ih h2
        exact ⟨f1.trans f2, m2.trans m1, by simp [l2]⟩

/-- A read completes exactly where every byte is reachable; otherwise it stops by name. -/
theorem readBytes_completes {s : State} {a : Word} {n : Nat} (h : s.AccessibleRange a n) :
    ∃ bs t, readBytes n a s = .ok (bs, t) := by
  induction n generalizing a s with
  | zero => exact ⟨[], s, rfl⟩
  | succ n ih =>
    obtain ⟨h0, h⟩ := accessibleRange_succ.mp h
    obtain ⟨b, u, h1⟩ := byteRead_completes h0
    have f := (byteRead_frame h1).1
    obtain ⟨bs, t, h2⟩ := ih (s := u) (a := a + 1#32)
      fun i hi => (accessible_congr f.windows f.ramSize _).mpr (h i hi)
    exact ⟨b :: bs, t, by simp only [readBytes, h1, bind, Except.bind, h2]; rfl⟩

theorem readBytes_outOfRange {s : State} {a : Word} {n : Nat} (h : ¬ s.AccessibleRange a n) :
    readBytes n a s = .error (.fault .ramOutOfRange) := by
  induction n generalizing a s with
  | zero => exact absurd (fun i hi => absurd hi (Nat.not_lt_zero i)) h
  | succ n ih =>
    rw [accessibleRange_succ] at h
    by_cases h0 : s.Accessible a
    · obtain ⟨b, u, h1⟩ := byteRead_completes h0
      have f := (byteRead_frame h1).1
      have := ih (s := u) (a := a + 1#32) fun k =>
        h ⟨h0, fun i hi => (accessible_congr f.windows f.ramSize _).mp (k i hi)⟩
      simp only [readBytes, h1, bind, Except.bind, this]
    · simp only [readBytes, byteRead_outOfRange h0]
      rfl

/-- A read's only error. -/
theorem readBytes_error {s : State} {a : Word} {n : Nat} {e : Stop} (h : readBytes n a s = .error e) :
    e = .fault .ramOutOfRange := by
  by_cases k : s.AccessibleRange a n
  · obtain ⟨bs, t, h1⟩ := readBytes_completes k
    rw [h1] at h
    cases h
  · rw [readBytes_outOfRange k] at h
    cases h
    rfl

/-! ## Several bytes, written -/

theorem writeBytes_frame {s t : State} {a : Word} {bs : List Byte} (h : writeBytes bs a s = .ok t) : BusFrame s t := by
  induction bs generalizing a s with
  | nil => cases h; exact .refl _
  | cons b bs ih =>
    rw [writeBytes] at h
    cases h1 : byteWrite a b s with
    | error e => rw [h1] at h; cases h
    | ok u =>
      rw [h1] at h
      exact (byteWrite_frame h1).trans (ih h)

theorem writeBytes_completes {s : State} {a : Word} {bs : List Byte} (h : s.AccessibleRange a bs.length) :
    ∃ t, writeBytes bs a s = .ok t := by
  induction bs generalizing a s with
  | nil => exact ⟨s, rfl⟩
  | cons b bs ih =>
    obtain ⟨h0, h⟩ := accessibleRange_succ.mp h
    obtain ⟨u, h1⟩ := byteWrite_completes b h0
    have f := byteWrite_frame h1
    obtain ⟨t, h2⟩ := ih (s := u) (a := a + 1#32)
      fun i hi => (accessible_congr f.windows f.ramSize _).mpr (h i hi)
    exact ⟨t, by simp only [writeBytes, h1, bind, Except.bind, h2]⟩

theorem writeBytes_outOfRange {s : State} {a : Word} {bs : List Byte} (h : ¬ s.AccessibleRange a bs.length) :
    writeBytes bs a s = .error (.fault .ramOutOfRange) := by
  induction bs generalizing a s with
  | nil => exact absurd (fun i hi => absurd hi (Nat.not_lt_zero i)) h
  | cons b bs ih =>
    rw [List.length_cons, accessibleRange_succ] at h
    by_cases h0 : s.Accessible a
    · obtain ⟨u, h1⟩ := byteWrite_completes b h0
      have f := byteWrite_frame h1
      have := ih (s := u) (a := a + 1#32) fun k =>
        h ⟨h0, fun i hi => (accessible_congr f.windows f.ramSize _).mp (k i hi)⟩
      simp only [writeBytes, h1, bind, Except.bind, this]
    · simp only [writeBytes, byteWrite_outOfRange b h0]
      rfl

/-- A write's only error. -/
theorem writeBytes_error {s : State} {a : Word} {bs : List Byte} {e : Stop} (h : writeBytes bs a s = .error e) :
    e = .fault .ramOutOfRange := by
  by_cases k : s.AccessibleRange a bs.length
  · obtain ⟨t, h1⟩ := writeBytes_completes k
    rw [h1] at h
    cases h
  · rw [writeBytes_outOfRange k] at h
    cases h
    rfl

/-- A byte write leaves every RAM byte at another offset alone. -/
theorem byteWrite_others {s t : State} {a : Word} {b : Byte} (h : byteWrite a b s = .ok t) {k : Nat} (hk : k ≠ a.toNat) :
    t.ramByte k = s.ramByte k := by
  rcases byteWrite_cases h with ⟨-, rfl⟩ | ⟨d, -, rfl⟩
  · simpa [State.ramByte] using Memory.read_write_ne b hk
  · simp [State.ramByte, (devWrite_frame d a b s).2]

/-- A write changes no RAM byte but at the addresses it writes. -/
theorem writeBytes_others {s t : State} {a : Word} {bs : List Byte} (h : writeBytes bs a s = .ok t) {k : Nat}
    (hk : ∀ i, i < bs.length → k ≠ (byteAddress a i).toNat) : t.ramByte k = s.ramByte k := by
  induction bs generalizing a s with
  | nil => cases h; rfl
  | cons b bs ih =>
    rw [writeBytes] at h
    cases h1 : byteWrite a b s with
    | error e => rw [h1] at h; cases h
    | ok u =>
      rw [h1] at h
      rw [ih h fun i hi => ?_, byteWrite_others h1]
      · simpa using hk 0 (by simp)
      · rw [byteAddress_succ]
        exact hk (i + 1) (by simpa using hi)

/-- A write leaves each of its bytes in RAM, where the byte is in RAM; a RAM offset under a window keeps its byte. -/
theorem writeBytes_stored {s t : State} {a : Word} {bs : List Byte} (h : writeBytes bs a s = .ok t)
    (hl : bs.length ≤ 2 ^ 32) (hm : Memory.wf s.ram) (i : Nat) (hi : i < bs.length) :
    t.ramByte (byteAddress a i).toNat =
      if route s.windows (byteAddress a i) = none then bs[i] else s.ramByte (byteAddress a i).toNat := by
  induction bs generalizing a s i with
  | nil => simp at hi
  | cons b bs ih =>
    rw [writeBytes] at h
    cases h1 : byteWrite a b s with
    | error e => rw [h1] at h; cases h
    | ok u =>
      rw [h1] at h
      have hlen : bs.length + 1 ≤ 2 ^ 32 := by simpa using hl
      cases i with
      | zero =>
        have hne : ∀ j, j < bs.length → (byteAddress a 0).toNat ≠ (byteAddress (a + 1#32) j).toNat := by
          intro j hj he
          rw [byteAddress_succ] at he
          have := byteAddress_inj (by omega) (by omega) he
          omega
        rw [writeBytes_others h hne]
        simp only [byteAddress_zero, List.getElem_cons_zero]
        rcases byteWrite_cases h1 with ⟨hin, rfl⟩ | ⟨d, hd, rfl⟩
        · rw [if_pos hin.1]
          simpa [State.ramByte] using Memory.read_write_same a.toNat b hm
        · rw [if_neg (by simp [hd])]
          simp [State.ramByte, (devWrite_frame d a b s).2]
      | succ j =>
        have hj : j < bs.length := by simpa using hi
        have f := byteWrite_frame h1
        have := ih h (by omega) (f.ramCanonical hm) j hj
        rw [byteAddress_succ, f.windows] at this
        rw [this, List.getElem_cons_succ]
        split
        · rfl
        · refine byteWrite_others h1 fun he => ?_
          have := byteAddress_inj (a := a) (i := j + 1) (j := 0) (by omega) (by omega) (by simpa using he)
          omega

/-- A write in RAM passes nothing to the surroundings. -/
theorem writeBytes_ram {s t : State} {a : Word} {bs : List Byte} (h : s.RamRange a bs.length)
    (k : writeBytes bs a s = .ok t) :
    t.console = s.console ∧ t.inputs = s.inputs ∧ t.events = s.events := by
  induction bs generalizing a s with
  | nil => cases k; exact ⟨rfl, rfl, rfl⟩
  | cons b bs ih =>
    obtain ⟨h0, h⟩ := ramRange_succ.mp h
    simp only [writeBytes, byteWrite_inRam b h0, bind, Except.bind] at k
    have := ih (s := s.setRam (s.ram.write a.toNat b)) (fun i hi => by simpa [State.InRam] using h i hi) k
    simpa using this

/-- A write in RAM stores its bytes and changes no other. -/
theorem writeBytes_ram_stores {s t : State} {a : Word} {bs : List Byte} (h : s.RamRange a bs.length)
    (hl : bs.length ≤ 2 ^ 32) (hm : Memory.wf s.ram) (k : writeBytes bs a s = .ok t) : StoresBytes bs a s t := by
  refine ⟨fun i hi => ?_, fun b hb => writeBytes_others k hb⟩
  rw [writeBytes_stored k hl hm i hi, if_pos (h i hi).1]

/-- A write stores its bytes in RAM where they reach RAM, and changes no other RAM byte. -/
theorem writeBytes_stores {s t : State} {a : Word} {bs : List Byte} (hl : bs.length ≤ 2 ^ 32) (hm : Memory.wf s.ram)
    (k : writeBytes bs a s = .ok t) : StoresThroughBus bs a s t :=
  ⟨fun i hi => writeBytes_stored k hl hm i hi, fun _ hb => writeBytes_others k hb⟩

/-! ## Transactions -/

theorem readEvent_congr {s t : State} (h : t.windows = s.windows) : t.readEvent = s.readEvent := by
  funext a b
  simp [State.readEvent, h]

theorem readEvents_congr {s t : State} (h : t.windows = s.windows) : t.readEvents = s.readEvents := by
  funext a n byte
  simp [State.readEvents, readEvent_congr h]

theorem writeEvents_congr {s t : State} (h : t.windows = s.windows) : t.writeEvents = s.writeEvents := by
  funext a bs
  simp [State.writeEvents, State.writeEvent, h]

theorem deviceAddresses_congr {s t : State} (h : t.windows = s.windows) : t.deviceAddresses = s.deviceAddresses := by
  funext a n
  simp [State.deviceAddresses, h]

theorem readEvents_cons (s : State) (a : Word) (n : Nat) (byte : Nat → Byte) :
    s.readEvents a (n + 1) byte = s.readEvent a (byte 0) ++ s.readEvents (a + 1#32) n (fun k => byte (k + 1)) := by
  simp [State.readEvents, List.range_succ_eq_map, List.flatMap_map, byteAddress_succ]

theorem writeEvents_cons (s : State) (a : Word) (b : Byte) (bs : List Byte) :
    s.writeEvents a (b :: bs) = s.writeEvent a b ++ s.writeEvents (a + 1#32) bs := by
  simp [State.writeEvents, List.range_succ_eq_map, List.flatMap_map, byteAddress_succ]

theorem deviceAddresses_cons (s : State) (a : Word) (n : Nat) :
    s.deviceAddresses a (n + 1) =
      (if route s.windows a = none then [] else [a]) ++ s.deviceAddresses (a + 1#32) n := by
  have : byteAddress a ∘ Nat.succ = byteAddress (a + 1#32) := by
    funext i
    simp [byteAddress_succ]
  by_cases h : route s.windows a = none <;>
    simp [State.deviceAddresses, List.range_succ_eq_map, this, h]

theorem deviceAddresses_snoc (s : State) (a : Word) (n : Nat) :
    s.deviceAddresses a (n + 1) =
      s.deviceAddresses a n ++ (if route s.windows (byteAddress a n) = none then [] else [byteAddress a n]) := by
  by_cases h : route s.windows (byteAddress a n) = none <;>
    simp [State.deviceAddresses, List.range_succ, h]

theorem avoidsGraphics_succ {s : State} {a : Word} {n : Nat} (h : s.AvoidsGraphics a (n + 1)) :
    route s.windows a ≠ some .graphics ∧ s.AvoidsGraphics (a + 1#32) n := by
  refine ⟨by simpa using h 0 (Nat.succ_pos n), fun k hk => ?_⟩
  rw [byteAddress_succ]
  exact h (k + 1) (Nat.succ_lt_succ hk)

theorem graphicsOnlyInVram_succ {s : State} {a : Word} {n : Nat} (h : s.GraphicsOnlyInVram a (n + 1)) :
    (route s.windows a = some .graphics → ∃ col row j, a.toNat = vramAddress col row j) ∧
      s.GraphicsOnlyInVram (a + 1#32) n := by
  refine ⟨by simpa using h 0 (Nat.succ_pos n), fun k hk => ?_⟩
  rw [byteAddress_succ]
  exact h (k + 1) (Nat.succ_lt_succ hk)

/-- What a byte read finds, and what it passes to and takes from the surroundings. -/
theorem byteRead_finds {s t : State} {a : Word} {b : Byte} (h : byteRead a s = .ok (b, t)) :
    (b = if route s.windows a = none then s.ramByte a.toNat
      else (draw s.inputs.devReads (Config.devRead8 s.events a)).1) ∧
    t.events = s.events ++ s.readEvent a b ∧
    t.inputs = { s.inputs with
      devReads := s.inputs.devReads.drop (if route s.windows a = none then ([] : List Word) else [a]).length } ∧
    ((route s.windows a = some .graphics → ∃ col row j, a.toNat = vramAddress col row j) → t.console = s.console) := by
  unfold byteRead at h
  split at h
  · rename_i d hd
    cases h
    refine ⟨by simp [hd], by simp [hd, State.readEvent], ?_, fun hg => ?_⟩
    · have : (draw s.inputs.devReads (Config.devRead8 s.events a)).2 = s.inputs.devReads.tail := by
        cases s.inputs.devReads <;> rfl
      simp [hd, this]
    · cases d with
      | graphics =>
        obtain ⟨col, row, j, ha⟩ := hg hd
        exact access_read_vram _ _ ha
      | storage => rfl
      | keyboard => rfl
  · rename_i hd
    split at h
    · cases h
      simp [hd, State.readEvent, State.ramByte]
    · cases h

/-- Everything a read of several bytes does: what it finds, the transactions, the answers taken. -/
theorem readBytes_finds {s t : State} {a : Word} {n : Nat} {bs : List Byte} (h : readBytes n a s = .ok (bs, t)) :
    s.Finds a n (fun k => bs.getD k 0#8) ∧
    t.events = s.events ++ s.readEvents a n (fun k => bs.getD k 0#8) ∧
    t.inputs = { s.inputs with devReads := s.inputs.devReads.drop (s.deviceAddresses a n).length } ∧
    (s.GraphicsOnlyInVram a n → t.console = s.console) := by
  induction n generalizing a s bs with
  | zero =>
    cases h
    exact ⟨fun k hk => absurd hk (Nat.not_lt_zero k), by simp [State.readEvents], by simp [State.deviceAddresses],
      fun _ => rfl⟩
  | succ n ih =>
    rw [readBytes] at h
    cases h1 : byteRead a s with
    | error e => rw [h1] at h; cases h
    | ok p =>
      obtain ⟨b, u⟩ := p
      rw [h1] at h
      cases h2 : readBytes n (a + 1#32) u with
      | error e => simp only [bind, Except.bind, h2] at h; cases h
      | ok q =>
        obtain ⟨cs, v⟩ := q
        simp only [bind, Except.bind, h2] at h
        cases h
        obtain ⟨f, m⟩ := byteRead_frame h1
        obtain ⟨b1, b2, b3, b4⟩ := byteRead_finds h1
        obtain ⟨i1, i2, i3, i4⟩ := ih h2
        have hr : u.ramByte = s.ramByte := by
          funext k
          simp [State.ramByte, m]
        refine ⟨fun k hk => ?_, ?_, ?_, fun hg => ?_⟩
        · cases k with
          | zero => simpa [State.deviceAddresses, State.readEvents] using b1
          | succ k =>
            have := i1 k (by omega)
            simp only [f.windows, hr, byteAddress_succ, b2, b3, readEvents_congr f.windows,
              deviceAddresses_congr f.windows, List.drop_drop] at this
            simp only [List.getD_cons_succ, deviceAddresses_cons, readEvents_cons, List.length_append, List.getD_cons_zero,
              ← List.append_assoc]
            exact this
        · rw [i2, b2, readEvents_congr f.windows, readEvents_cons]
          simp
        · rw [i3, b3, deviceAddresses_congr f.windows, deviceAddresses_cons, List.length_append, List.drop_drop]
        · obtain ⟨g0, g1⟩ := graphicsOnlyInVram_succ hg
          rw [i4 fun k hk => by rw [f.windows]; exact g1 k hk, b4 g0]

/-- What a byte write passes to the surroundings. -/
theorem byteWrite_transactions {s t : State} {a : Word} {b : Byte} (h : byteWrite a b s = .ok t) :
    t.events = s.events ++ s.writeEvent a b ∧ t.inputs = s.inputs ∧
    (route s.windows a ≠ some .graphics → t.console = s.console) ∧
    ∀ col row j, route s.windows a = some .graphics → a.toNat = vramAddress col row j →
      ∃ offset : Fin (2 * (80 * 25)), t.console = TextConsole.writeVram s.console offset b ∧
        offset.val = 2 * (80 * row.val + col.val) + j.val := by
  rcases byteWrite_cases h with ⟨hin, rfl⟩ | ⟨d, hd, rfl⟩
  · exact ⟨by simp [State.writeEvent, hin.1], rfl, fun _ => rfl, fun _ _ _ hg => by simp [hin.1] at hg⟩
  · refine ⟨by simp [State.writeEvent, hd, devWrite], by simp [devWrite], fun hg => ?_, fun col row j hg ha => ?_⟩
    · rw [hd] at hg
      cases d <;> first | rfl | exact absurd rfl hg
    · obtain rfl : d = .graphics := by simpa [hd] using hg
      exact access_write_vram _ _ b ha

/-- What a write of several bytes passes to the surroundings. -/
theorem writeBytes_transactions {s t : State} {a : Word} {bs : List Byte} (h : writeBytes bs a s = .ok t) :
    t.events = s.events ++ s.writeEvents a bs ∧ t.inputs = s.inputs ∧
    (s.AvoidsGraphics a bs.length → t.console = s.console) := by
  induction bs generalizing a s with
  | nil => cases h; exact ⟨by simp [State.writeEvents], rfl, fun _ => rfl⟩
  | cons b bs ih =>
    rw [writeBytes] at h
    cases h1 : byteWrite a b s with
    | error e => rw [h1] at h; cases h
    | ok u =>
      rw [h1] at h
      have f := byteWrite_frame h1
      obtain ⟨b1, b2, b3, -⟩ := byteWrite_transactions h1
      obtain ⟨i1, i2, i3⟩ := ih h
      refine ⟨by rw [i1, b1, writeEvents_congr f.windows, writeEvents_cons, List.append_assoc], i2.trans b2, fun hg => ?_⟩
      obtain ⟨g0, g1⟩ := avoidsGraphics_succ hg
      rw [i3 fun k hk => by rw [f.windows]; exact g1 k hk, b3 g0]

/-- A byte write whose byte, if it reaches the graphics window, reaches the text VRAM, is a write of one byte there. -/
theorem byteWrite_writesVram {s t : State} {a : Word} {b : Byte} (h : byteWrite a b s = .ok t)
    (hg : route s.windows a = some .graphics → ∃ col row j, a.toNat = vramAddress col row j) :
    WritesVram s a [b] s.console t.console := by
  obtain ⟨-, -, b3, b4⟩ := byteWrite_transactions h
  by_cases hr : route s.windows a = some .graphics
  · obtain ⟨col, row, j, ha⟩ := hg hr
    obtain ⟨offset, hc, ho⟩ := b4 col row j hr ha
    rw [hc]
    refine ⟨rfl, rfl, fun i hi col' row' j' _ ha' => ?_, fun col' row' j' hn => ?_⟩
    · obtain rfl : i = 0 := by simpa using hi
      rw [byteAddress_zero, ha] at ha'
      rw [cellByte_writeVram _ _ ho, if_pos]
      · rfl
      · obtain ⟨rfl, rfl, rfl⟩ := vramAddress_inj ha'
        exact ⟨rfl, rfl, rfl⟩
    · rw [cellByte_writeVram _ _ ho, if_neg]
      rintro ⟨rfl, rfl, rfl⟩
      exact hn 0 (by simp) (by simpa using hr) (by simpa using ha)
  · rw [b3 hr]
    refine ⟨rfl, rfl, fun i hi _ _ _ hr' _ => ?_, fun _ _ _ _ => rfl⟩
    obtain rfl : i = 0 := by simpa using hi
    exact absurd (by simpa using hr') hr

/-- What a write of several bytes makes of the console. -/
theorem writeBytes_writesVram {s t : State} {a : Word} {bs : List Byte} (h : writeBytes bs a s = .ok t)
    (hl : bs.length ≤ 2 ^ 32) (hg : s.GraphicsOnlyInVram a bs.length) : WritesVram s a bs s.console t.console := by
  induction bs generalizing a s with
  | nil => cases h; exact ⟨rfl, rfl, fun i hi => absurd hi (Nat.not_lt_zero i), fun _ _ _ _ => rfl⟩
  | cons b bs ih =>
    rw [writeBytes] at h
    cases h1 : byteWrite a b s with
    | error e => rw [h1] at h; cases h
    | ok u =>
      rw [h1] at h
      obtain ⟨g0, g1⟩ := graphicsOnlyInVram_succ hg
      have f := byteWrite_frame h1
      have first := byteWrite_writesVram h1 g0
      have rest := ih h (by simp only [List.length_cons] at hl; omega) fun k hk => by rw [f.windows]; exact g1 k hk
      refine ⟨rest.col.trans first.col, rest.row.trans first.row, fun i hi col row j hr ha => ?_, fun col row j hn => ?_⟩
      · cases i with
        | zero =>
          rw [rest.others col row j fun k hk _ hk' => ?_, first.written 0 (by simp) col row j hr ha]
          · rfl
          · rw [byteAddress_succ] at hk'
            have := byteAddress_inj (by simp) (by simp only [List.length_cons] at hl; omega) (ha.trans hk'.symm)
            omega
        | succ i =>
          have hi' : i < bs.length := by simpa using hi
          rw [rest.written i hi' col row j (by rw [byteAddress_succ, f.windows]; exact hr)
            (by rw [byteAddress_succ]; exact ha)]
          rfl
      · rw [rest.others col row j fun k hk hr => ?_, first.others col row j fun k hk => ?_]
        · obtain rfl : k = 0 := by simpa using hk
          exact hn 0 (by simp)
        · rw [byteAddress_succ] at hr ⊢
          exact hn (k + 1) (by simpa using hk) (by rwa [f.windows] at hr)

/-- What a write of several bytes makes of the console, in the terms of the claims. -/
theorem writeBytes_console {s t : State} {a : Word} {bs : List Byte} (h : writeBytes bs a s = .ok t)
    (hl : bs.length ≤ 2 ^ 32) : ConsoleAfterWrites s a bs s.console t.console :=
  ⟨(writeBytes_transactions h).2.2, writeBytes_writesVram h hl⟩

end Sys2Proof.Machine
end

