-- ==== Sys2Proof/Laws/Encoding.lean ====
section
/-! SUPPORT. Words as numbers: what each format's packing amounts to, and that every field of a packed word is the field it
was packed from (30_encoding.md R91, R92, R96 to R101). -/

namespace Sys2Proof

theorem toNat_append_bits {n m : Nat} (x : BitVec n) (y : BitVec m) : (x ++ y).toNat = x.toNat * 2 ^ m + y.toNat := by
  rw [BitVec.toNat_append, ← Nat.shiftLeft_add_eq_or_of_lt y.isLt, Nat.shiftLeft_eq]

theorem even_toNat {n : Nat} {v : BitVec n} (h : v.getLsbD 0 = false) : v.toNat % 2 = 0 := by
  simpa [BitVec.getLsbD, Nat.testBit_zero] using h

/-- A field that a mask covers is read from the masked word. -/
theorem field_of_and {start len : Nat} {w mask bits : Word} (h : w &&& mask = bits)
    (hm : mask.extractLsb' start len = BitVec.allOnes len) : w.extractLsb' start len = bits.extractLsb' start len := by
  rw [← h, BitVec.extractLsb'_and, hm, BitVec.and_allOnes]

/-! ## The immediates scattered over a word -/

theorem immSField_toNat (w : Word) : (immSField w).toNat = w.toNat / 2 ^ 25 % 128 * 32 + w.toNat / 2 ^ 7 % 32 := by
  unfold immSField
  erw [toNat_append_bits]
  simp only [BitVec.extractLsb'_toNat, Nat.shiftRight_eq_div_pow]
  omega

theorem immBField_toNat (w : Word) :
    (immBField w).toNat = w.toNat / 2 ^ 31 % 2 * 4096 + w.toNat / 2 ^ 7 % 2 * 2048 + w.toNat / 2 ^ 25 % 64 * 32
      + w.toNat / 2 ^ 8 % 16 * 2 := by
  unfold immBField
  erw [toNat_append_bits, toNat_append_bits, toNat_append_bits, toNat_append_bits]
  simp only [BitVec.extractLsb'_toNat, Nat.shiftRight_eq_div_pow, BitVec.toNat_ofNat]
  omega

theorem immJField_toNat (w : Word) :
    (immJField w).toNat = w.toNat / 2 ^ 31 % 2 * 1048576 + w.toNat / 2 ^ 12 % 256 * 4096 + w.toNat / 2 ^ 20 % 2 * 2048
      + w.toNat / 2 ^ 21 % 1024 * 2 := by
  unfold immJField
  erw [toNat_append_bits, toNat_append_bits, toNat_append_bits, toNat_append_bits]
  simp only [BitVec.extractLsb'_toNat, Nat.shiftRight_eq_div_pow, BitVec.toNat_ofNat]
  omega

/-! ## packR -/

theorem packR_toNat (f7 : BitVec 7) (rs2 rs1 : BitVec 5) (f3 : BitVec 3) (rd : BitVec 5) (op : BitVec 7) :
    (packR f7 rs2 rs1 f3 rd op).toNat = f7.toNat * 2 ^ 25 + rs2.toNat * 2 ^ 20 + rs1.toNat * 2 ^ 15 + f3.toNat * 2 ^ 12 + rd.toNat * 2 ^ 7 + op.toNat := by
  unfold packR
  erw [toNat_append_bits, toNat_append_bits, toNat_append_bits, toNat_append_bits, toNat_append_bits]
  have := f7.isLt
  have := rs2.isLt
  have := rs1.isLt
  have := f3.isLt
  have := rd.isLt
  have := op.isLt
  omega

theorem opcodeField_packR (f7 : BitVec 7) (rs2 rs1 : BitVec 5) (f3 : BitVec 3) (rd : BitVec 5) (op : BitVec 7) :
    opcodeField (packR f7 rs2 rs1 f3 rd op) = op := by
  apply BitVec.eq_of_toNat_eq
  simp only [opcodeField, BitVec.extractLsb'_toNat, packR_toNat, Nat.shiftRight_eq_div_pow]
  have := f7.isLt
  have := rs2.isLt
  have := rs1.isLt
  have := f3.isLt
  have := rd.isLt
  have := op.isLt
  omega

theorem funct3Field_packR (f7 : BitVec 7) (rs2 rs1 : BitVec 5) (f3 : BitVec 3) (rd : BitVec 5) (op : BitVec 7) :
    funct3Field (packR f7 rs2 rs1 f3 rd op) = f3 := by
  apply BitVec.eq_of_toNat_eq
  simp only [funct3Field, BitVec.extractLsb'_toNat, packR_toNat, Nat.shiftRight_eq_div_pow]
  have := f7.isLt
  have := rs2.isLt
  have := rs1.isLt
  have := f3.isLt
  have := rd.isLt
  have := op.isLt
  omega

theorem rdField_packR (f7 : BitVec 7) (rs2 rs1 : BitVec 5) (f3 : BitVec 3) (rd : BitVec 5) (op : BitVec 7) :
    rdField (packR f7 rs2 rs1 f3 rd op) = rd := by
  apply BitVec.eq_of_toNat_eq
  simp only [rdField, BitVec.extractLsb'_toNat, packR_toNat, Nat.shiftRight_eq_div_pow]
  have := f7.isLt
  have := rs2.isLt
  have := rs1.isLt
  have := f3.isLt
  have := rd.isLt
  have := op.isLt
  omega

theorem rs1Field_packR (f7 : BitVec 7) (rs2 rs1 : BitVec 5) (f3 : BitVec 3) (rd : BitVec 5) (op : BitVec 7) :
    rs1Field (packR f7 rs2 rs1 f3 rd op) = rs1 := by
  apply BitVec.eq_of_toNat_eq
  simp only [rs1Field, BitVec.extractLsb'_toNat, packR_toNat, Nat.shiftRight_eq_div_pow]
  have := f7.isLt
  have := rs2.isLt
  have := rs1.isLt
  have := f3.isLt
  have := rd.isLt
  have := op.isLt
  omega

theorem rs2Field_packR (f7 : BitVec 7) (rs2 rs1 : BitVec 5) (f3 : BitVec 3) (rd : BitVec 5) (op : BitVec 7) :
    rs2Field (packR f7 rs2 rs1 f3 rd op) = rs2 := by
  apply BitVec.eq_of_toNat_eq
  simp only [rs2Field, BitVec.extractLsb'_toNat, packR_toNat, Nat.shiftRight_eq_div_pow]
  have := f7.isLt
  have := rs2.isLt
  have := rs1.isLt
  have := f3.isLt
  have := rd.isLt
  have := op.isLt
  omega

theorem shamtField_packR (f7 : BitVec 7) (rs2 rs1 : BitVec 5) (f3 : BitVec 3) (rd : BitVec 5) (op : BitVec 7) :
    shamtField (packR f7 rs2 rs1 f3 rd op) = rs2 := by
  apply BitVec.eq_of_toNat_eq
  simp only [shamtField, BitVec.extractLsb'_toNat, packR_toNat, Nat.shiftRight_eq_div_pow]
  have := f7.isLt
  have := rs2.isLt
  have := rs1.isLt
  have := f3.isLt
  have := rd.isLt
  have := op.isLt
  omega

theorem funct7Field_packR (f7 : BitVec 7) (rs2 rs1 : BitVec 5) (f3 : BitVec 3) (rd : BitVec 5) (op : BitVec 7) :
    funct7Field (packR f7 rs2 rs1 f3 rd op) = f7 := by
  apply BitVec.eq_of_toNat_eq
  simp only [funct7Field, BitVec.extractLsb'_toNat, packR_toNat, Nat.shiftRight_eq_div_pow]
  have := f7.isLt
  have := rs2.isLt
  have := rs1.isLt
  have := f3.isLt
  have := rd.isLt
  have := op.isLt
  omega

/-! ## packI -/

theorem packI_toNat (imm : BitVec 12) (rs1 : BitVec 5) (f3 : BitVec 3) (rd : BitVec 5) (op : BitVec 7) :
    (packI imm rs1 f3 rd op).toNat = imm.toNat * 2 ^ 20 + rs1.toNat * 2 ^ 15 + f3.toNat * 2 ^ 12 + rd.toNat * 2 ^ 7 + op.toNat := by
  unfold packI
  erw [toNat_append_bits, toNat_append_bits, toNat_append_bits, toNat_append_bits]
  have := imm.isLt
  have := rs1.isLt
  have := f3.isLt
  have := rd.isLt
  have := op.isLt
  omega

theorem opcodeField_packI (imm : BitVec 12) (rs1 : BitVec 5) (f3 : BitVec 3) (rd : BitVec 5) (op : BitVec 7) :
    opcodeField (packI imm rs1 f3 rd op) = op := by
  apply BitVec.eq_of_toNat_eq
  simp only [opcodeField, BitVec.extractLsb'_toNat, packI_toNat, Nat.shiftRight_eq_div_pow]
  have := imm.isLt
  have := rs1.isLt
  have := f3.isLt
  have := rd.isLt
  have := op.isLt
  omega

theorem funct3Field_packI (imm : BitVec 12) (rs1 : BitVec 5) (f3 : BitVec 3) (rd : BitVec 5) (op : BitVec 7) :
    funct3Field (packI imm rs1 f3 rd op) = f3 := by
  apply BitVec.eq_of_toNat_eq
  simp only [funct3Field, BitVec.extractLsb'_toNat, packI_toNat, Nat.shiftRight_eq_div_pow]
  have := imm.isLt
  have := rs1.isLt
  have := f3.isLt
  have := rd.isLt
  have := op.isLt
  omega

theorem rdField_packI (imm : BitVec 12) (rs1 : BitVec 5) (f3 : BitVec 3) (rd : BitVec 5) (op : BitVec 7) :
    rdField (packI imm rs1 f3 rd op) = rd := by
  apply BitVec.eq_of_toNat_eq
  simp only [rdField, BitVec.extractLsb'_toNat, packI_toNat, Nat.shiftRight_eq_div_pow]
  have := imm.isLt
  have := rs1.isLt
  have := f3.isLt
  have := rd.isLt
  have := op.isLt
  omega

theorem rs1Field_packI (imm : BitVec 12) (rs1 : BitVec 5) (f3 : BitVec 3) (rd : BitVec 5) (op : BitVec 7) :
    rs1Field (packI imm rs1 f3 rd op) = rs1 := by
  apply BitVec.eq_of_toNat_eq
  simp only [rs1Field, BitVec.extractLsb'_toNat, packI_toNat, Nat.shiftRight_eq_div_pow]
  have := imm.isLt
  have := rs1.isLt
  have := f3.isLt
  have := rd.isLt
  have := op.isLt
  omega

theorem immIField_packI (imm : BitVec 12) (rs1 : BitVec 5) (f3 : BitVec 3) (rd : BitVec 5) (op : BitVec 7) :
    immIField (packI imm rs1 f3 rd op) = imm := by
  apply BitVec.eq_of_toNat_eq
  simp only [immIField, BitVec.extractLsb'_toNat, packI_toNat, Nat.shiftRight_eq_div_pow]
  have := imm.isLt
  have := rs1.isLt
  have := f3.isLt
  have := rd.isLt
  have := op.isLt
  omega

/-! ## packB -/

theorem packB_toNat (offset : BitVec 13) (rs2 rs1 : BitVec 5) (f3 : BitVec 3) (op : BitVec 7) :
    (packB offset rs2 rs1 f3 op).toNat = offset.toNat / 4096 * 2 ^ 31 + offset.toNat / 32 % 64 * 2 ^ 25 + rs2.toNat * 2 ^ 20 + rs1.toNat * 2 ^ 15
      + f3.toNat * 2 ^ 12 + offset.toNat / 2 % 16 * 2 ^ 8 + offset.toNat / 2048 % 2 * 2 ^ 7 + op.toNat := by
  unfold packB
  erw [toNat_append_bits, toNat_append_bits, toNat_append_bits, toNat_append_bits, toNat_append_bits, toNat_append_bits, toNat_append_bits]
  simp only [BitVec.extractLsb'_toNat, Nat.shiftRight_eq_div_pow]
  have := offset.isLt
  have := rs2.isLt
  have := rs1.isLt
  have := f3.isLt
  have := op.isLt
  omega

theorem opcodeField_packB (offset : BitVec 13) (rs2 rs1 : BitVec 5) (f3 : BitVec 3) (op : BitVec 7) :
    opcodeField (packB offset rs2 rs1 f3 op) = op := by
  apply BitVec.eq_of_toNat_eq
  simp only [opcodeField, BitVec.extractLsb'_toNat, packB_toNat, Nat.shiftRight_eq_div_pow]
  have := offset.isLt
  have := rs2.isLt
  have := rs1.isLt
  have := f3.isLt
  have := op.isLt
  have h0 : offset.toNat / 4096 < 2 := by omega
  have h1 : offset.toNat / 2048 % 2 < 2 := by omega
  have h2 : offset.toNat / 32 % 64 < 64 := by omega
  have h3 : offset.toNat / 2 % 16 < 16 := by omega
  generalize offset.toNat / 4096 = p0 at *
  generalize offset.toNat / 2048 % 2 = p1 at *
  generalize offset.toNat / 32 % 64 = p2 at *
  generalize offset.toNat / 2 % 16 = p3 at *
  omega

theorem funct3Field_packB (offset : BitVec 13) (rs2 rs1 : BitVec 5) (f3 : BitVec 3) (op : BitVec 7) :
    funct3Field (packB offset rs2 rs1 f3 op) = f3 := by
  apply BitVec.eq_of_toNat_eq
  simp only [funct3Field, BitVec.extractLsb'_toNat, packB_toNat, Nat.shiftRight_eq_div_pow]
  have := offset.isLt
  have := rs2.isLt
  have := rs1.isLt
  have := f3.isLt
  have := op.isLt
  have h0 : offset.toNat / 4096 < 2 := by omega
  have h1 : offset.toNat / 2048 % 2 < 2 := by omega
  have h2 : offset.toNat / 32 % 64 < 64 := by omega
  have h3 : offset.toNat / 2 % 16 < 16 := by omega
  generalize offset.toNat / 4096 = p0 at *
  generalize offset.toNat / 2048 % 2 = p1 at *
  generalize offset.toNat / 32 % 64 = p2 at *
  generalize offset.toNat / 2 % 16 = p3 at *
  omega

theorem rs1Field_packB (offset : BitVec 13) (rs2 rs1 : BitVec 5) (f3 : BitVec 3) (op : BitVec 7) :
    rs1Field (packB offset rs2 rs1 f3 op) = rs1 := by
  apply BitVec.eq_of_toNat_eq
  simp only [rs1Field, BitVec.extractLsb'_toNat, packB_toNat, Nat.shiftRight_eq_div_pow]
  have := offset.isLt
  have := rs2.isLt
  have := rs1.isLt
  have := f3.isLt
  have := op.isLt
  have h0 : offset.toNat / 4096 < 2 := by omega
  have h1 : offset.toNat / 2048 % 2 < 2 := by omega
  have h2 : offset.toNat / 32 % 64 < 64 := by omega
  have h3 : offset.toNat / 2 % 16 < 16 := by omega
  generalize offset.toNat / 4096 = p0 at *
  generalize offset.toNat / 2048 % 2 = p1 at *
  generalize offset.toNat / 32 % 64 = p2 at *
  generalize offset.toNat / 2 % 16 = p3 at *
  omega

theorem rs2Field_packB (offset : BitVec 13) (rs2 rs1 : BitVec 5) (f3 : BitVec 3) (op : BitVec 7) :
    rs2Field (packB offset rs2 rs1 f3 op) = rs2 := by
  apply BitVec.eq_of_toNat_eq
  simp only [rs2Field, BitVec.extractLsb'_toNat, packB_toNat, Nat.shiftRight_eq_div_pow]
  have := offset.isLt
  have := rs2.isLt
  have := rs1.isLt
  have := f3.isLt
  have := op.isLt
  have h0 : offset.toNat / 4096 < 2 := by omega
  have h1 : offset.toNat / 2048 % 2 < 2 := by omega
  have h2 : offset.toNat / 32 % 64 < 64 := by omega
  have h3 : offset.toNat / 2 % 16 < 16 := by omega
  generalize offset.toNat / 4096 = p0 at *
  generalize offset.toNat / 2048 % 2 = p1 at *
  generalize offset.toNat / 32 % 64 = p2 at *
  generalize offset.toNat / 2 % 16 = p3 at *
  omega

/-! ## packU -/

theorem packU_toNat (imm20 : BitVec 20) (rd : BitVec 5) (op : BitVec 7) :
    (packU imm20 rd op).toNat = imm20.toNat * 2 ^ 12 + rd.toNat * 2 ^ 7 + op.toNat := by
  unfold packU
  erw [toNat_append_bits, toNat_append_bits]
  have := imm20.isLt
  have := rd.isLt
  have := op.isLt
  omega

theorem opcodeField_packU (imm20 : BitVec 20) (rd : BitVec 5) (op : BitVec 7) :
    opcodeField (packU imm20 rd op) = op := by
  apply BitVec.eq_of_toNat_eq
  simp only [opcodeField, BitVec.extractLsb'_toNat, packU_toNat, Nat.shiftRight_eq_div_pow]
  have := imm20.isLt
  have := rd.isLt
  have := op.isLt
  omega

theorem rdField_packU (imm20 : BitVec 20) (rd : BitVec 5) (op : BitVec 7) :
    rdField (packU imm20 rd op) = rd := by
  apply BitVec.eq_of_toNat_eq
  simp only [rdField, BitVec.extractLsb'_toNat, packU_toNat, Nat.shiftRight_eq_div_pow]
  have := imm20.isLt
  have := rd.isLt
  have := op.isLt
  omega

theorem immUField_packU (imm20 : BitVec 20) (rd : BitVec 5) (op : BitVec 7) :
    immUField (packU imm20 rd op) = imm20 := by
  apply BitVec.eq_of_toNat_eq
  simp only [immUField, BitVec.extractLsb'_toNat, packU_toNat, Nat.shiftRight_eq_div_pow]
  have := imm20.isLt
  have := rd.isLt
  have := op.isLt
  omega

/-! ## packJ -/

theorem packJ_toNat (offset : BitVec 21) (rd : BitVec 5) (op : BitVec 7) :
    (packJ offset rd op).toNat = offset.toNat / 1048576 % 2 * 2 ^ 31 + offset.toNat / 2 % 1024 * 2 ^ 21 + offset.toNat / 2048 % 2 * 2 ^ 20
      + offset.toNat / 4096 % 256 * 2 ^ 12 + rd.toNat * 2 ^ 7 + op.toNat := by
  unfold packJ
  erw [toNat_append_bits, toNat_append_bits, toNat_append_bits, toNat_append_bits, toNat_append_bits]
  simp only [BitVec.extractLsb'_toNat, Nat.shiftRight_eq_div_pow]
  simp only [Nat.reducePow, Nat.pow_one]
  ring

theorem opcodeField_packJ (offset : BitVec 21) (rd : BitVec 5) (op : BitVec 7) :
    opcodeField (packJ offset rd op) = op := by
  apply BitVec.eq_of_toNat_eq
  simp only [opcodeField, BitVec.extractLsb'_toNat, packJ_toNat, Nat.shiftRight_eq_div_pow]
  have := offset.isLt
  have := rd.isLt
  have := op.isLt
  have h0 : offset.toNat / 1048576 % 2 < 2 := by omega
  have h1 : offset.toNat / 4096 % 256 < 256 := by omega
  have h2 : offset.toNat / 2048 % 2 < 2 := by omega
  have h3 : offset.toNat / 2 % 1024 < 1024 := by omega
  generalize offset.toNat / 1048576 % 2 = p0 at *
  generalize offset.toNat / 4096 % 256 = p1 at *
  generalize offset.toNat / 2048 % 2 = p2 at *
  generalize offset.toNat / 2 % 1024 = p3 at *
  omega

theorem rdField_packJ (offset : BitVec 21) (rd : BitVec 5) (op : BitVec 7) :
    rdField (packJ offset rd op) = rd := by
  apply BitVec.eq_of_toNat_eq
  simp only [rdField, BitVec.extractLsb'_toNat, packJ_toNat, Nat.shiftRight_eq_div_pow]
  have := offset.isLt
  have := rd.isLt
  have := op.isLt
  have h0 : offset.toNat / 1048576 % 2 < 2 := by omega
  have h1 : offset.toNat / 4096 % 256 < 256 := by omega
  have h2 : offset.toNat / 2048 % 2 < 2 := by omega
  have h3 : offset.toNat / 2 % 1024 < 1024 := by omega
  generalize offset.toNat / 1048576 % 2 = p0 at *
  generalize offset.toNat / 4096 % 256 = p1 at *
  generalize offset.toNat / 2048 % 2 = p2 at *
  generalize offset.toNat / 2 % 1024 = p3 at *
  omega

/-! ## packS
The S format is the R format with the immediate's two parts in the places of funct7 and rd. -/

theorem packS_eq_packR (imm : BitVec 12) (rs2 rs1 : BitVec 5) (f3 : BitVec 3) (op : BitVec 7) :
    packS imm rs2 rs1 f3 op = packR (imm.extractLsb' 5 7) rs2 rs1 f3 (imm.extractLsb' 0 5) op := rfl

theorem immSField_packS (imm : BitVec 12) (rs2 rs1 : BitVec 5) (f3 : BitVec 3) (op : BitVec 7) :
    immSField (packS imm rs2 rs1 f3 op) = imm := by
  have h1 := congrArg BitVec.toNat (funct7Field_packR (imm.extractLsb' 5 7) rs2 rs1 f3 (imm.extractLsb' 0 5) op)
  have h2 := congrArg BitVec.toNat (rdField_packR (imm.extractLsb' 5 7) rs2 rs1 f3 (imm.extractLsb' 0 5) op)
  simp only [funct7Field, rdField, BitVec.extractLsb'_toNat, Nat.shiftRight_eq_div_pow] at h1 h2
  apply BitVec.eq_of_toNat_eq
  have := imm.isLt
  rw [immSField_toNat, packS_eq_packR]
  omega

/-! ## Fixed bits of a packed word -/

/-- The mask of funct7, funct3 and opcode (30_encoding.md R104) keeps those fields and clears the others. -/
theorem packR_and_mask (f7 : BitVec 7) (rs2 rs1 : BitVec 5) (f3 : BitVec 3) (rd : BitVec 5) (op : BitVec 7) :
    packR f7 rs2 rs1 f3 rd op &&& 0xFE00707F#32 = packR f7 0#5 0#5 f3 0#5 op := by
  rw [show 0xFE00707F#32 = packR 127#7 0#5 0#5 7#3 0#5 127#7 by decide]
  unfold packR
  erw [BitVec.and_append, BitVec.and_append, BitVec.and_append, BitVec.and_append, BitVec.and_append]
  have h7 : 127#7 = BitVec.allOnes 7 := rfl
  have h3 : 7#3 = BitVec.allOnes 3 := rfl
  simp only [h7, h3, BitVec.and_allOnes, BitVec.and_zero]

/-- The mask of funct3 and opcode, on the R layout. -/
theorem packR_and_short_mask (f7 : BitVec 7) (rs2 rs1 : BitVec 5) (f3 : BitVec 3) (rd : BitVec 5) (op : BitVec 7) :
    packR f7 rs2 rs1 f3 rd op &&& 0x0000707F#32 = packR 0#7 0#5 0#5 f3 0#5 op := by
  rw [show 0x0000707F#32 = packR 0#7 0#5 0#5 7#3 0#5 127#7 by decide]
  unfold packR
  erw [BitVec.and_append, BitVec.and_append, BitVec.and_append, BitVec.and_append, BitVec.and_append]
  have h7 : 127#7 = BitVec.allOnes 7 := rfl
  have h3 : 7#3 = BitVec.allOnes 3 := rfl
  simp only [h7, h3, BitVec.and_allOnes, BitVec.and_zero]

/-- The mask of funct3 and opcode, on the I layout. -/
theorem packI_and_mask (imm : BitVec 12) (rs1 : BitVec 5) (f3 : BitVec 3) (rd : BitVec 5) (op : BitVec 7) :
    packI imm rs1 f3 rd op &&& 0x0000707F#32 = packI 0#12 0#5 f3 0#5 op := by
  rw [show 0x0000707F#32 = packI 0#12 0#5 7#3 0#5 127#7 by decide]
  unfold packI
  erw [BitVec.and_append, BitVec.and_append, BitVec.and_append, BitVec.and_append]
  have h7 : 127#7 = BitVec.allOnes 7 := rfl
  have h3 : 7#3 = BitVec.allOnes 3 := rfl
  simp only [h7, h3, BitVec.and_allOnes, BitVec.and_zero]

/-- The mask of funct3 and opcode, on the B layout. -/
theorem packB_and_mask (offset : BitVec 13) (rs2 rs1 : BitVec 5) (f3 : BitVec 3) (op : BitVec 7) :
    packB offset rs2 rs1 f3 op &&& 0x0000707F#32 = packB 0#13 0#5 0#5 f3 op := by
  rw [show 0x0000707F#32 = packB 0#13 0#5 0#5 7#3 127#7 by decide]
  unfold packB
  erw [BitVec.and_append, BitVec.and_append, BitVec.and_append, BitVec.and_append, BitVec.and_append, BitVec.and_append,
    BitVec.and_append]
  have h7 : 127#7 = BitVec.allOnes 7 := rfl
  have h3 : 7#3 = BitVec.allOnes 3 := rfl
  simp only [h7, h3, BitVec.and_allOnes, BitVec.and_zero, BitVec.extractLsb'_zero]

/-- The mask of opcode, on the U and J layouts. -/
theorem packU_and_mask (imm20 : BitVec 20) (rd : BitVec 5) (op : BitVec 7) :
    packU imm20 rd op &&& 0x0000007F#32 = packU 0#20 0#5 op := by
  rw [show 0x0000007F#32 = packU 0#20 0#5 127#7 by decide]
  unfold packU
  erw [BitVec.and_append, BitVec.and_append]
  have h7 : 127#7 = BitVec.allOnes 7 := rfl
  simp only [h7, BitVec.and_allOnes, BitVec.and_zero]

theorem packJ_and_mask (offset : BitVec 21) (rd : BitVec 5) (op : BitVec 7) :
    packJ offset rd op &&& 0x0000007F#32 = packJ 0#21 0#5 op := by
  rw [show 0x0000007F#32 = packJ 0#21 0#5 127#7 by decide]
  unfold packJ
  erw [BitVec.and_append, BitVec.and_append, BitVec.and_append, BitVec.and_append, BitVec.and_append]
  have h7 : 127#7 = BitVec.allOnes 7 := rfl
  simp only [h7, BitVec.and_allOnes, BitVec.and_zero, BitVec.extractLsb'_zero]

/-! ## The scattered offsets -/

theorem immBField_packB (offset : BitVec 13) (rs2 rs1 : BitVec 5) (f3 : BitVec 3) (op : BitVec 7)
    (h : offset.getLsbD 0 = false) : immBField (packB offset rs2 rs1 f3 op) = offset := by
  have h0 := even_toNat h
  apply BitVec.eq_of_toNat_eq
  have hw := packB_toNat offset rs2 rs1 f3 op
  rw [immBField_toNat]
  generalize (packB offset rs2 rs1 f3 op).toNat = w at *
  have := offset.isLt
  have := rs2.isLt
  have := rs1.isLt
  have := f3.isLt
  have := op.isLt
  have e : offset.toNat = offset.toNat / 4096 * 4096 + offset.toNat / 2048 % 2 * 2048 + offset.toNat / 32 % 64 * 32
      + offset.toNat / 2 % 16 * 2 := by omega
  have hp : offset.toNat / 4096 < 2 := by omega
  have hq : offset.toNat / 2048 % 2 < 2 := by omega
  have hr : offset.toNat / 32 % 64 < 64 := by omega
  have hs : offset.toNat / 2 % 16 < 16 := by omega
  generalize offset.toNat / 4096 = p at *
  generalize offset.toNat / 2048 % 2 = q at *
  generalize offset.toNat / 32 % 64 = r at *
  generalize offset.toNat / 2 % 16 = t at *
  have v1 : w / 2 ^ 31 = p := by clear e; omega
  have w1 : w / 2 ^ 31 % 2 = p := by clear e hw; omega
  have v2 : w / 2 ^ 7 = (p * 2 ^ 23 + r * 2 ^ 17 + rs2.toNat * 2 ^ 12 + rs1.toNat * 2 ^ 7 + f3.toNat * 2 ^ 4 + t) * 2 + q := by clear e; omega
  have w2 : w / 2 ^ 7 % 2 = q := by clear e hw; omega
  have v3 : w / 2 ^ 25 = p * 64 + r := by clear e; omega
  have w3 : w / 2 ^ 25 % 64 = r := by clear e hw; omega
  have v4 : w / 2 ^ 8 = (p * 2 ^ 19 + r * 2 ^ 13 + rs2.toNat * 2 ^ 8 + rs1.toNat * 2 ^ 3 + f3.toNat) * 16 + t := by clear e; omega
  have w4 : w / 2 ^ 8 % 16 = t := by clear e hw; omega
  omega

theorem immJField_packJ (offset : BitVec 21) (rd : BitVec 5) (op : BitVec 7)
    (h : offset.getLsbD 0 = false) : immJField (packJ offset rd op) = offset := by
  have h0 := even_toNat h
  apply BitVec.eq_of_toNat_eq
  have hw := packJ_toNat offset rd op
  rw [immJField_toNat]
  generalize (packJ offset rd op).toNat = w at *
  have := offset.isLt
  have := rd.isLt
  have := op.isLt
  have e : offset.toNat = offset.toNat / 1048576 % 2 * 1048576 + offset.toNat / 4096 % 256 * 4096
      + offset.toNat / 2048 % 2 * 2048 + offset.toNat / 2 % 1024 * 2 := by clear hw; omega
  have hp : offset.toNat / 1048576 % 2 < 2 := by omega
  have hq : offset.toNat / 4096 % 256 < 256 := by omega
  have hr : offset.toNat / 2048 % 2 < 2 := by omega
  have hs : offset.toNat / 2 % 1024 < 1024 := by omega
  generalize offset.toNat / 1048576 % 2 = p at *
  generalize offset.toNat / 4096 % 256 = q at *
  generalize offset.toNat / 2048 % 2 = r at *
  generalize offset.toNat / 2 % 1024 = t at *
  have v1 : w / 2 ^ 31 = p := by clear e; omega
  have w1 : w / 2 ^ 31 % 2 = p := by clear e hw; omega
  have v2 : w / 2 ^ 12 = (p * 2 ^ 11 + t * 2 + r) * 256 + q := by clear e; omega
  have w2 : w / 2 ^ 12 % 256 = q := by clear e hw; omega
  have v3 : w / 2 ^ 20 = (p * 2 ^ 10 + t) * 2 + r := by clear e; omega
  have w3 : w / 2 ^ 20 % 2 = r := by clear e hw; omega
  have v4 : w / 2 ^ 21 = p * 1024 + t := by clear e; omega
  have w4 : w / 2 ^ 21 % 1024 = t := by clear e hw; omega
  omega

end Sys2Proof
end

