-- ==== Sys2Proof/Laws/Exec.lean ====
section
/-! SUPPORT. One lemma for each shape of instruction that always completes: what it answers and its frame; and the
immediates as integers (30_encoding.md R96 to R101). -/

namespace Sys2Proof.Machine

/-! ## Immediates and targets as integers -/

theorem imm12_toInt (imm : BitVec 12) : (imm12 imm).toInt = imm.toInt :=
  BitVec.toInt_signExtend_of_le (by omega)

theorem immB_toInt (offset : BitVec 13) : (immB offset).toInt = offset.toInt :=
  BitVec.toInt_signExtend_of_le (by omega)

theorem immJ_toInt (offset : BitVec 21) : (immJ offset).toInt = offset.toInt :=
  BitVec.toInt_signExtend_of_le (by omega)

theorem immU_toNat (imm20 : BitVec 20) : (immU imm20).toNat = imm20.toNat * 4096 := by
  unfold immU
  rw [BitVec.toNat_append]
  simp [Nat.shiftLeft_eq]

theorem ofInt_toInt_add (a b : Word) : BitVec.ofInt 32 (a.toInt + b.toInt) = a + b := by
  apply BitVec.eq_of_toInt_eq
  simp [BitVec.toInt_add]

theorem effectiveAddress_eq (s : State) (rs1 : Reg) (imm : BitVec 12) :
    effectiveAddress s rs1 imm = BitVec.ofInt 32 ((s.getReg rs1).toInt + imm.toInt) := by
  rw [← imm12_toInt, ofInt_toInt_add]
  rfl

theorem branchTarget_eq (s : State) (offset : BitVec 13) :
    branchTarget s offset = BitVec.ofInt 32 (s.pc.toInt + offset.toInt) := by
  rw [← immB_toInt, ofInt_toInt_add]
  rfl

theorem jalTarget_eq (s : State) (offset : BitVec 21) :
    jalTarget s offset = BitVec.ofInt 32 (s.pc.toInt + offset.toInt) := by
  rw [← immJ_toInt, ofInt_toInt_add]
  rfl

/-! ## The shapes -/

/-- A register written, then pc: the frame of every instruction that writes a register and touches nothing else. -/
theorem writesReg_setReg_setPc (s : State) (rd : Reg) (v next : Word) :
    WritesReg rd v next s ((s.setReg rd v).setPc next) where
  result := by
    simp only [getReg_setPc, getReg_setReg]
    split <;> simp_all
  regs := fun r hr => by
    simp only [getReg_setPc, getReg_setReg]
    rw [if_neg (fun h => hr h.1)]
  pc := rfl
  ram := fun a => by simp [State.ramByte]
  engine := ⟨by simp, by simp, by simp, by simp⟩
  map := ⟨by simp, by simp, by simp⟩
  surroundings := ⟨by simp, by simp, by simp, by simp⟩

theorem setReg_advance (s : State) (rd : Reg) (v : Word) :
    (s.setReg rd v).advance = (s.setReg rd v).setPc (s.pc + 4#32) := by
  simp [State.advance]

theorem writesReg_setReg_advance (s : State) (rd : Reg) (v : Word) :
    WritesReg rd v (s.pc + 4#32) s (s.setReg rd v).advance :=
  setReg_advance s rd v ▸ writesReg_setReg_setPc s rd v (s.pc + 4#32)

theorem writeResult_spec (rd : Reg) (v : Word) (s : State) :
    ∃ t, writeResult rd v s = .next t ∧ WritesReg rd v (s.pc + 4#32) s t :=
  ⟨_, rfl, writesReg_setReg_advance s rd v⟩

theorem linkAndJump_spec (rd : Reg) (target : Word) (s : State) :
    ∃ t, linkAndJump rd target s = .next t ∧ WritesReg rd (s.pc + 4#32) target s t :=
  ⟨_, rfl, writesReg_setReg_setPc s rd (s.pc + 4#32) target⟩

/-- A pc written: the frame of the branches and of FENCE. -/
theorem movesPc_setPc (s : State) (next : Word) : MovesPc next s (s.setPc next) where
  pc := rfl
  regs := fun _ => rfl
  ram := fun _ => rfl
  engine := ⟨rfl, rfl, rfl, rfl⟩
  map := ⟨rfl, rfl, rfl⟩
  surroundings := ⟨rfl, rfl, rfl, rfl⟩

theorem branch_spec (taken : Bool) (offset : BitVec 13) (s : State) :
    ∃ t, branch taken offset s = .next t ∧ MovesPc (if taken then branchTarget s offset else s.pc + 4#32) s t := by
  refine ⟨_, rfl, ?_⟩
  cases taken
  · exact movesPc_setPc s (s.pc + 4#32)
  · exact movesPc_setPc s (branchTarget s offset)

/-- The engine halted: the frame of the three halting events. -/
theorem halts_halt (cause : HaltCause) (code : Word) (s : State) : Halts cause code s (halt cause code s) where
  runState := rfl
  halted := rfl
  haltCause := rfl
  exitCode := rfl
  pc := rfl
  regs := fun _ => rfl
  ram := fun _ => rfl
  map := ⟨rfl, rfl, rfl⟩
  surroundings := ⟨rfl, rfl, rfl, rfl⟩

/-! ## Loads and stores -/

/-- What `outcome` answers, case by case. -/
@[simp] theorem outcome_ok (s : State) : outcome (.ok s) = .next s := rfl
@[simp] theorem outcome_fault (f : Fault) : outcome (.error (.fault f)) = .fault f := rfl
@[simp] theorem outcome_refused (r : Refusal) : outcome (.error (.refused r)) = .refused r := rfl

theorem memRead_frame {s t : State} {a v : Word} {n : Nat} (h : memRead a n s = .ok (v, t)) :
    BusFrame s t ∧ t.ram = s.ram := by
  unfold memRead at h
  cases h1 : readBytes n a s with
  | error e => rw [h1] at h; cases h
  | ok p =>
    obtain ⟨bs, u⟩ := p
    rw [h1] at h
    cases h
    exact ⟨(readBytes_frame h1).1, (readBytes_frame h1).2.1⟩

theorem memRead_ram {s : State} {a : Word} {n : Nat} (h : s.RamRange a n) :
    memRead a n s = .ok (BitVec.ofNat 32 (littleEndian (s.ramBytes a n)), s) := by
  simp only [memRead, readBytes_ram h]
  rfl

theorem memRead_outOfRange {s : State} {a : Word} {n : Nat} (h : ¬ s.AccessibleRange a n) :
    memRead a n s = .error (.fault .ramOutOfRange) := by
  simp only [memRead, readBytes_outOfRange h]
  rfl

theorem memRead_completes {s : State} {a : Word} {n : Nat} (h : s.AccessibleRange a n) :
    ∃ v t, memRead a n s = .ok (v, t) := by
  obtain ⟨bs, t, h1⟩ := readBytes_completes h
  exact ⟨_, t, by simp only [memRead, h1]; rfl⟩

theorem memRead_error {s : State} {a : Word} {n : Nat} {e : Stop} (h : memRead a n s = .error e) :
    e = .fault .ramOutOfRange := by
  by_cases k : s.AccessibleRange a n
  · obtain ⟨v, t, h1⟩ := memRead_completes k
    rw [h1] at h
    cases h
  · rw [memRead_outOfRange k] at h
    cases h
    rfl

theorem bytesOf_length (n v : Nat) : (bytesOf n v).length = n := by
  induction n generalizing v with
  | zero => rfl
  | succ n ih => simp [bytesOf, ih]

theorem bytesOf_getElem (n v i : Nat) (h : i < (bytesOf n v).length) :
    (bytesOf n v)[i] = BitVec.ofNat 8 (v / 256 ^ i) := by
  induction n generalizing v i with
  | zero => simp [bytesOf] at h
  | succ n ih =>
    cases i with
    | zero => simp [bytesOf]
    | succ i =>
      simp only [bytesOf, List.getElem_cons_succ]
      rw [ih, Nat.div_div_eq_div_mul, Nat.pow_succ, Nat.mul_comm (256 ^ i) 256]

/-- The bytes of a word are its bytes by number (20_memory.md R58). -/
theorem bytesOf_eq_map (n : Nat) (v : Word) : bytesOf n v.toNat = (List.range n).map (byteOf v) := by
  refine List.ext_getElem (by simp [bytesOf_length]) fun i hi _ => ?_
  simp [bytesOf_getElem, byteOf]

/-- The bytes of the word made of four bytes (20_memory.md R63). -/
theorem byteOf_littleEndian (b0 b1 b2 b3 : Byte) (i : Nat) (h : i < 4) :
    byteOf (BitVec.ofNat 32 (littleEndian [b0, b1, b2, b3])) i = [b0, b1, b2, b3].getD i 0#8 := by
  have := b0.isLt
  have := b1.isLt
  have := b2.isLt
  have := b3.isLt
  apply BitVec.eq_of_toNat_eq
  match i, h with
  | 0, _ | 1, _ | 2, _ | 3, _ =>
    simp [byteOf, littleEndian]
    omega

/-- The little-endian value of the bytes of a number is its low part (20_memory.md R69). -/
theorem littleEndian_bytesOf (n v : Nat) : littleEndian (bytesOf n v) = v % 256 ^ n := by
  induction n generalizing v with
  | zero => simp [bytesOf, littleEndian, Nat.mod_one]
  | succ n ih =>
    simp only [bytesOf, littleEndian, ih, BitVec.toNat_ofNat]
    rw [show 256 ^ (n + 1) = 256 * 256 ^ n by rw [Nat.pow_succ, Nat.mul_comm], Nat.mod_mul]

/-- What a load does where it completes. -/
theorem load_spec {n : Nat} {extend : Word → Word} {rd rs1 : Reg} {imm : BitVec 12} {s t : State} {v : Word}
    (h : memRead (effectiveAddress s rs1 imm) n s = .ok (v, t)) :
    load n extend rd rs1 imm s = .next (t.setReg rd (extend v)).advance := by
  simp only [load, h]
  rfl

theorem load_outOfRange {n : Nat} {extend : Word → Word} {rd rs1 : Reg} {imm : BitVec 12} {s : State}
    (h : ¬ s.AccessibleRange (effectiveAddress s rs1 imm) n) : load n extend rd rs1 imm s = .fault .ramOutOfRange := by
  simp only [load, memRead_outOfRange h]
  rfl

/-- A load that answers a next state did one bus read and wrote one register. -/
theorem load_next {n : Nat} {extend : Word → Word} {rd rs1 : Reg} {imm : BitVec 12} {s u : State}
    (h : load n extend rd rs1 imm s = .next u) :
    ∃ v t, memRead (effectiveAddress s rs1 imm) n s = .ok (v, t) ∧ u = (t.setReg rd (extend v)).advance := by
  cases h1 : memRead (effectiveAddress s rs1 imm) n s with
  | error e =>
    obtain rfl := memRead_error h1
    simp only [load, h1] at h
    cases h
  | ok p =>
    obtain ⟨v, t⟩ := p
    rw [load_spec h1] at h
    cases h
    exact ⟨v, t, rfl, rfl⟩

theorem store_spec {n : Nat} {rs2 rs1 : Reg} {imm : BitVec 12} {s t : State}
    (h : memWrite (effectiveAddress s rs1 imm) n (s.getReg rs2) s = .ok t) : store n rs2 rs1 imm s = .next t.advance := by
  simp only [store, h]
  rfl

theorem memWrite_completes {n : Nat} {a v : Word} {s : State} (h : s.AccessibleRange a n) :
    ∃ t, memWrite a n v s = .ok t :=
  writeBytes_completes (by rwa [bytesOf_length])

theorem memWrite_outOfRange {n : Nat} {a v : Word} {s : State} (h : ¬ s.AccessibleRange a n) :
    memWrite a n v s = .error (.fault .ramOutOfRange) :=
  writeBytes_outOfRange (by rwa [bytesOf_length])

theorem store_outOfRange {n : Nat} {rs2 rs1 : Reg} {imm : BitVec 12} {s : State}
    (h : ¬ s.AccessibleRange (effectiveAddress s rs1 imm) n) : store n rs2 rs1 imm s = .fault .ramOutOfRange := by
  simp only [store, memWrite_outOfRange h]
  rfl

/-- A store that answers a next state did one bus write and moved pc. -/
theorem store_next {n : Nat} {rs2 rs1 : Reg} {imm : BitVec 12} {s u : State} (h : store n rs2 rs1 imm s = .next u) :
    ∃ t, memWrite (effectiveAddress s rs1 imm) n (s.getReg rs2) s = .ok t ∧ u = t.advance := by
  cases h1 : memWrite (effectiveAddress s rs1 imm) n (s.getReg rs2) s with
  | error e =>
    obtain rfl := writeBytes_error h1
    simp only [store, h1] at h
    cases h
  | ok t =>
    rw [store_spec h1] at h
    cases h
    exact ⟨t, rfl, rfl⟩

end Sys2Proof.Machine
end

