-- ==== Sys2Proof/Laws/Syscall.lean ====
section
/-! SUPPORT. What the syscall dispatcher can do: one frame for every syscall (`CallFrame`), which of them write RAM, which
results they have, and how they stop. -/

namespace Sys2Proof.Machine

/-! ## The frame -/

/-- What no syscall changes, and what it keeps. -/
structure CallFrame (s t : State) : Prop where
  regs            : t.regs = s.regs
  pc              : t.pc = s.pc
  runState        : t.runState = s.runState
  halted          : t.halted = s.halted
  exitCode        : t.exitCode = s.exitCode
  haltCause       : t.haltCause = s.haltCause
  ramSize         : t.ramSize = s.ramSize
  windows         : t.windows = s.windows
  decodeErrorCode : t.decodeErrorCode = s.decodeErrorCode
  consoleOutput   : s.consoleOutput <+: t.consoleOutput
  events          : s.events <+: t.events
  ramCanonical    : Memory.wf s.ram → Memory.wf t.ram
  ramInside       : (∀ c ∈ s.ram, c.1 < s.ramSize) → ∀ c ∈ t.ram, c.1 < t.ramSize

theorem BusFrame.callFrame {s t : State} (h : BusFrame s t) : CallFrame s t :=
  { h with consoleOutput := h.consoleOutput ▸ List.prefix_refl _ }

theorem CallFrame.refl (s : State) : CallFrame s s := (BusFrame.refl s).callFrame

theorem CallFrame.trans {s t u : State} (h : CallFrame s t) (k : CallFrame t u) : CallFrame s u where
  regs := k.regs.trans h.regs
  pc := k.pc.trans h.pc
  runState := k.runState.trans h.runState
  halted := k.halted.trans h.halted
  exitCode := k.exitCode.trans h.exitCode
  haltCause := k.haltCause.trans h.haltCause
  ramSize := k.ramSize.trans h.ramSize
  windows := k.windows.trans h.windows
  decodeErrorCode := k.decodeErrorCode.trans h.decodeErrorCode
  consoleOutput := h.consoleOutput.trans k.consoleOutput
  events := h.events.trans k.events
  ramCanonical := k.ramCanonical ∘ h.ramCanonical
  ramInside := k.ramInside ∘ h.ramInside

theorem CallFrame.getReg {s t : State} (h : CallFrame s t) (r : Reg) : t.getReg r = s.getReg r := getReg_congr h.regs r

/-- An operation that leaves RAM as it is keeps the frame if it changes nothing but the record of the surroundings. -/
theorem callFrame_note_setInputs (s : State) (i : EnvInputs) (e : EnvEvent) :
    CallFrame s ((s.setInputs i).note e) ∧ ((s.setInputs i).note e).ram = s.ram := by
  refine ⟨?_, by simp⟩
  constructor <;> simp

theorem consolePut_frame (s : State) (b : Byte) : CallFrame s (s.consolePut b) ∧ (s.consolePut b).ram = s.ram := by
  refine ⟨?_, by simp⟩
  constructor <;> simp

theorem consolePutAll_frame (s : State) (bs : List Byte) :
    CallFrame s (s.consolePutAll bs) ∧ (s.consolePutAll bs).ram = s.ram := by
  refine ⟨?_, by simp⟩
  constructor <;> simp

/-! ## The oracle -/

theorem kbdPop_frame (s : State) : CallFrame s (kbdPop s).2 ∧ (kbdPop s).2.ram = s.ram :=
  callFrame_note_setInputs s _ _

theorem pollKeys_frame (p : PendingLine) (s : State) : CallFrame s (pollKeys p s).2 ∧ (pollKeys p s).2.ram = s.ram :=
  callFrame_note_setInputs s _ _

theorem readSector_frame (sector : Word) (s : State) :
    CallFrame s (readSector sector s).2 ∧ (readSector sector s).2.ram = s.ram :=
  callFrame_note_setInputs s _ _

theorem writeSector_frame (sector : Word) (data : List Byte) (s : State) :
    CallFrame s (writeSector sector data s).2 ∧ (writeSector sector data s).2.ram = s.ram :=
  callFrame_note_setInputs s _ _

theorem fopen_frame (name : List Byte) (mode : Word) (s : State) :
    CallFrame s (fopen name mode s).2 ∧ (fopen name mode s).2.ram = s.ram :=
  callFrame_note_setInputs s _ _

theorem fread_frame (handle max : Word) (s : State) :
    CallFrame s (fread handle max s).2 ∧ (fread handle max s).2.ram = s.ram :=
  callFrame_note_setInputs s _ _

theorem fwrite_frame (handle : Word) (data : List Byte) (s : State) :
    CallFrame s (fwrite handle data s).2 ∧ (fwrite handle data s).2.ram = s.ram :=
  callFrame_note_setInputs s _ _

theorem fclose_frame (handle : Word) (s : State) :
    CallFrame s (fclose handle s).2 ∧ (fclose handle s).2.ram = s.ram :=
  callFrame_note_setInputs s _ _

/-- An answer that is already set is the one taken (log 5). -/
@[simp] theorem draw_cons {α : Type} (a : α) (rest : List α) (free : α) : draw (a :: rest) free = (a, rest) := rfl

theorem draw_snd {α : Type} (queue : List α) (free : α) : (draw queue free).2 = queue.tail := by
  cases queue <;> rfl

/-! ## Strings -/

theorem Scans.mono {each : State → Byte → State} {a : Word} {m n : Nat} {u : Nat → State} {byte : Nat → Byte}
    (h : Scans each a n u byte) (hm : m ≤ n) : Scans each a m u byte :=
  ⟨fun i hi => h.nonzero i (by omega), fun i hi => h.reads i (by omega)⟩

/-- What a scan keeps up to its state `n`. -/
theorem Scans.frame {each : State → Byte → State} (heach : ∀ s b, CallFrame s (each s b) ∧ (each s b).ram = s.ram)
    {a : Word} {n : Nat} {u : Nat → State} {byte : Nat → Byte} (h : Scans each a n u byte) :
    CallFrame (u 0) (u n) ∧ (u n).ram = (u 0).ram := by
  induction n with
  | zero => exact ⟨.refl _, rfl⟩
  | succ n ih =>
    obtain ⟨f1, m1⟩ := ih (h.mono (Nat.le_succ n))
    obtain ⟨v, hv, hu⟩ := h.reads n (Nat.lt_succ_self n)
    obtain ⟨f2, m2⟩ := byteRead_frame hv
    obtain ⟨f3, m3⟩ := heach v (byte n)
    rw [hu]
    exact ⟨f1.trans (f2.callFrame.trans f3), m3.trans (m2.trans m1)⟩

/-- What a scan passes to and takes from the surroundings up to its state `n`, where `each` adds the transactions `more` of
a byte and takes no answer. -/
theorem Scans.transactions {each : State → Byte → State} {more : Byte → List EnvEvent}
    (heach : ∀ s b, (CallFrame s (each s b) ∧ (each s b).ram = s.ram) ∧ (each s b).events = s.events ++ more b ∧
      (each s b).inputs = s.inputs)
    {a : Word} {n : Nat} {u : Nat → State} {byte : Nat → Byte} (h : Scans each a n u byte) :
    (u n).events = (u 0).events ++
      (List.range n).flatMap (fun i => (u 0).readEvent (byteAddress a i) (byte i) ++ more (byte i)) ∧
    (u n).inputs = { (u 0).inputs with
      devReads := (u 0).inputs.devReads.drop ((u 0).deviceAddresses a n).length } := by
  induction n with
  | zero => exact ⟨by simp, by simp [State.deviceAddresses]⟩
  | succ n ih =>
    obtain ⟨e1, i1⟩ := ih (h.mono (Nat.le_succ n))
    have f := ((h.mono (Nat.le_succ n)).frame fun s b => (heach s b).1).1
    obtain ⟨v, hv, hu⟩ := h.reads n (Nat.lt_succ_self n)
    obtain ⟨-, e2, i2, -⟩ := byteRead_finds hv
    obtain ⟨-, e3, i3⟩ := heach v (byte n)
    rw [hu]
    refine ⟨?_, ?_⟩
    · rw [e3, e2, e1, readEvent_congr f.windows, List.range_succ]
      simp [List.flatMap_append]
    · rw [i3, i2, i1, f.windows, deviceAddresses_snoc, List.length_append]
      by_cases hr : route (u 0).windows (byteAddress a n) = none <;> simp [hr]

/-- The bytes of a string in RAM are a scan, which leaves what it does with each of them. -/
theorem scans_ram {each : State → Byte → State} (heach : ∀ s b, CallFrame s (each s b) ∧ (each s b).ram = s.ram)
    {s : State} {a : Word} {n : Nat}
    (hbytes : ∀ i, i < n → s.InRam (byteAddress a i) ∧ s.ramByte (byteAddress a i).toNat ≠ 0#8) :
    ∃ u, u 0 = s ∧ Scans each a n u (fun i => s.ramByte (byteAddress a i).toNat) ∧ u n = (s.ramBytes a n).foldl each s := by
  induction n generalizing a s with
  | zero => exact ⟨fun _ => s, rfl, ⟨fun i hi => by omega, fun i hi => by omega⟩, by simp [State.ramBytes]⟩
  | succ n ih =>
    have h0 := hbytes 0 (by omega)
    rw [byteAddress_zero] at h0
    obtain ⟨f, m⟩ := heach s (s.ramByte a.toNat)
    have same : ∀ x, (each s (s.ramByte a.toNat)).ramByte x = s.ramByte x := fun x => congrArg (Memory.read · x) m
    obtain ⟨u, u0, us, un⟩ := ih (s := each s (s.ramByte a.toNat)) (a := a + 1#32) fun i hi => by
      rw [byteAddress_succ, same]
      exact (hbytes (i + 1) (by omega)).imp_left (inRam_congr f.windows f.ramSize _).mpr
    refine ⟨fun i => match i with | 0 => s | i + 1 => u i, rfl, ⟨fun i hi => (hbytes i hi).2, fun i hi => ?_⟩, ?_⟩
    · match i with
      | 0 => exact ⟨s, by rw [byteAddress_zero]; exact byteRead_inRam h0.1, by simpa using u0⟩
      | i + 1 =>
        have := us.reads i (by omega)
        rw [byteAddress_succ, same] at this
        exact this
    · simp only [un, ramBytes_succ, List.foldl_cons]
      congr 1
      simp [State.ramBytes, same]

/-- A scan that begins with one byte and goes on. -/
theorem Scans.cons {each : State → Byte → State} {a : Word} {n : Nat} {s v : State} {b : Byte} {u : Nat → State}
    {byte : Nat → Byte} (hb : b ≠ 0#8) (hv : byteRead a s = .ok (b, v)) (h0 : u 0 = each v b)
    (h : Scans each (a + 1#32) n u byte) :
    Scans each a (n + 1) (fun i => match i with | 0 => s | i + 1 => u i)
      (fun i => match i with | 0 => b | i + 1 => byte i) where
  nonzero i hi := match i with
    | 0 => hb
    | i + 1 => h.nonzero i (by omega)
  reads i hi := match i with
    | 0 => ⟨v, by rw [byteAddress_zero]; exact hv, h0⟩
    | i + 1 => by rw [← byteAddress_succ]; exact h.reads i (by omega)

/-! ### The loop without a bound -/

/-- The loop goes on over the bytes of a scan. -/
theorem scanOn_goesOn {each : State → Byte → State} {a : Word} {n : Nat} {u : Nat → State} {byte : Nat → Byte}
    (h : Scans each a n u byte) (before : List Byte) :
    scanOn each a before (u 0) = scanOn each (byteAddress a n) (before ++ (List.range n).map byte) (u n) := by
  induction n with
  | zero => simp
  | succ n ih =>
    obtain ⟨v, hv, hu⟩ := h.reads n (Nat.lt_succ_self n)
    rw [ih (h.mono (Nat.le_succ n)), scanOn, hv]
    have hb := h.nonzero n (Nat.lt_succ_self n)
    have ha : byteAddress a n + 1#32 = byteAddress a (n + 1) := byteAddress_add a n 1
    simp [hb, ha, hu, List.range_succ]

/-- Where the loop has an answer, a scan led to a zero byte, or to a byte out of range. -/
theorem scanOn_cases {each : State → Byte → State} {a : Word} {before : List Byte} {s : State}
    {r : Except Stop (List Byte × State)} (h : scanOn each a before s = some r) :
    ∃ n u byte, u 0 = s ∧ Scans each a n u byte ∧
      ((∃ t, byteRead (byteAddress a n) (u n) = .ok (0#8, t) ∧ r = .ok (before ++ (List.range n).map byte, t)) ∨
        (byteRead (byteAddress a n) (u n) = .error (.fault .ramOutOfRange) ∧ r = .error (.fault .ramOutOfRange))) := by
  refine scanOn.partial_correctness each
    (fun a before s r => ∃ n u byte, u 0 = s ∧ Scans each a n u byte ∧
      ((∃ t, byteRead (byteAddress a n) (u n) = .ok (0#8, t) ∧ r = .ok (before ++ (List.range n).map byte, t)) ∨
        (byteRead (byteAddress a n) (u n) = .error (.fault .ramOutOfRange) ∧ r = .error (.fault .ramOutOfRange))))
    ?_ a before s r h
  intro loop ih a before s r h
  have none : ∀ b, Scans each a 0 (fun _ => s) (fun _ => b) := fun _ => ⟨by simp, by simp⟩
  split at h
  · rename_i e he
    cases h
    obtain rfl : e = .fault .ramOutOfRange := by
      by_cases ha : s.Accessible a
      · obtain ⟨b, t, hb⟩ := byteRead_completes ha
        rw [hb] at he
        cases he
      · rw [byteRead_outOfRange ha] at he
        exact (Except.error.inj he).symm
    exact ⟨0, _, _, rfl, none 0#8, .inr ⟨by rwa [byteAddress_zero], rfl⟩⟩
  · rename_i b v hv
    split at h
    · rename_i hb
      cases h
      subst hb
      exact ⟨0, _, _, rfl, none 0#8, .inl ⟨v, by rwa [byteAddress_zero], by simp⟩⟩
    · rename_i hb
      obtain ⟨n, u, byte, h0, hs, hr⟩ := ih _ _ _ _ h
      refine ⟨n + 1, _, _, rfl, hs.cons hb hv h0, ?_⟩
      simpa [byteAddress_succ, List.range_succ_eq_map, Function.comp_def] using hr

/-- The loop is its first `k` bytes and, where they hold no zero byte, the loop after them. -/
theorem scanOn_scanString (each : State → Byte → State) (k : Nat) (a : Word) (before : List Byte) (s : State) :
    scanOn each a before s =
      match scanString each k a s with
      | .error e => some (.error e)
      | .ok (bs, true, t) => some (.ok (before ++ bs, t))
      | .ok (bs, false, t) => scanOn each (byteAddress a k) (before ++ bs) t := by
  induction k generalizing a before s with
  | zero => simp [scanString]
  | succ k ih =>
    rw [scanOn, scanString]
    cases byteRead a s with
    | error e => rfl
    | ok p =>
      obtain ⟨b, v⟩ := p
      by_cases hb : b = 0#8
      · simp [hb, bind, Except.bind, pure, Except.pure]
      · simp only [hb, if_false, bind, Except.bind]
        rw [ih (a + 1#32), byteAddress_succ]
        cases scanString each k (a + 1#32) (each v b) with
        | error e => rfl
        | ok q =>
          obtain ⟨bs, ended, t⟩ := q
          cases ended <;> simp [pure, Except.pure]

/-! ### Reading a string -/

/-- Reading a string is the loop without a bound; the part that the kernel can evaluate changes nothing (R249, R253). -/
theorem readString_eq (each : State → Byte → State) (a : Word) (s : State) :
    readString each a s =
      match scanOn each a [] s with
      | some result => result
      | none => .error (.fault .stepNeverReturns) := by
  have turn : byteAddress a fullTurn = a := BitVec.eq_of_toNat_eq (by rw [byteAddress_toNat, fullTurn]; omega)
  rw [readString, scanOn_scanString each fullTurn a [] s, turn]
  generalize scanString each fullTurn a s = r
  rcases r with e | ⟨bs, _ | _, t⟩ <;> rfl

/-- A string whose zero byte is met is read, however many bytes come before it. -/
theorem readString_ends {each : State → Byte → State} {a : Word} {n : Nat} {u : Nat → State} {byte : Nat → Byte}
    {t : State} (h : Scans each a n u byte) (hend : byteRead (byteAddress a n) (u n) = .ok (0#8, t)) :
    readString each a (u 0) = .ok ((List.range n).map byte, t) := by
  rw [readString_eq, scanOn_goesOn h, scanOn, hend]
  rfl

/-- A string with a byte out of range before its zero byte stops by name. -/
theorem readString_outOfRange {each : State → Byte → State}
    (heach : ∀ s b, CallFrame s (each s b) ∧ (each s b).ram = s.ram) {a : Word} {n : Nat} {u : Nat → State}
    {byte : Nat → Byte} (h : Scans each a n u byte) (hend : ¬ (u 0).Accessible (byteAddress a n)) :
    readString each a (u 0) = .error (.fault .ramOutOfRange) := by
  have f := (h.frame heach).1
  rw [readString_eq, scanOn_goesOn h, scanOn,
    byteRead_outOfRange fun k => hend ((accessible_congr f.windows f.ramSize _).mp k)]

/-- Only a string that never ends has no answer. -/
theorem readString_neverReturns {each : State → Byte → State} {a : Word} {u : Nat → State} {byte : Nat → Byte}
    (h : ∀ n, Scans each a n u byte) : readString each a (u 0) = .error (.fault .stepNeverReturns) := by
  cases hr : scanOn each a [] (u 0) with
  | none => rw [readString_eq, hr]
  | some r =>
    exfalso
    obtain ⟨n, w, byte', h0, hs, hr⟩ := scanOn_cases hr
    have same : ∀ i, i ≤ n → w i = u i := by
      intro i hi
      induction i with
      | zero => exact h0
      | succ i ih =>
        obtain ⟨v, hv, hu⟩ := (h n).reads i (by omega)
        obtain ⟨v', hv', hw⟩ := hs.reads i (by omega)
        rw [ih (by omega), hv] at hv'
        obtain ⟨e, rfl⟩ := Prod.mk.inj (Except.ok.inj hv')
        rw [hw, hu, e]
    obtain ⟨v, hv, -⟩ := (h (n + 1)).reads n (by omega)
    have hb := (h (n + 1)).nonzero n (by omega)
    rw [same n le_rfl, hv] at hr
    rcases hr with ⟨t, ht, -⟩ | ⟨ht, -⟩
    · exact hb (congrArg Prod.fst (Except.ok.inj ht))
    · cases ht

/-- What reading a string does where it does not stop: its frame, and RAM as before if what it does with each byte keeps
them. -/
theorem readString_frame {each : State → Byte → State}
    (heach : ∀ s b, CallFrame s (each s b) ∧ (each s b).ram = s.ram) {a : Word} {s t : State} {bs : List Byte}
    (h : readString each a s = .ok (bs, t)) : CallFrame s t ∧ t.ram = s.ram := by
  rw [readString_eq] at h
  split at h
  · rename_i r hr
    subst h
    obtain ⟨n, u, byte, rfl, hs, ⟨w, hw, e⟩ | ⟨-, e⟩⟩ := scanOn_cases hr
    · cases e
      obtain ⟨f2, m2⟩ := hs.frame heach
      obtain ⟨f3, m3⟩ := byteRead_frame hw
      exact ⟨f2.trans f3.callFrame, m3.trans m2⟩
    · cases e
  · cases h

/-- The two ways in which reading a string stops. -/
theorem readString_error {each : State → Byte → State} {a : Word} {s : State} {e : Stop}
    (h : readString each a s = .error e) : e = .fault .ramOutOfRange ∨ e = .fault .stepNeverReturns := by
  rw [readString_eq] at h
  split at h
  · rename_i r hr
    subst h
    obtain ⟨n, u, byte, -, -, ⟨w, -, e⟩ | ⟨-, e⟩⟩ := scanOn_cases hr
    · cases e
    · cases e
      exact .inl rfl
  · cases h
    exact .inr rfl

/-! ## getline -/

/-- The characters of a poll fit below maxlen with a NUL, and none is zero (60_exceptions.md R252). -/
theorem lineAfter_fits (p : PendingLine) (i : LineInput) (h : p.maxlen ≠ 0#32) :
    (lineAfter p i).chars.length + 1 ≤ p.maxlen.toNat ∧ ∀ b ∈ (lineAfter p i).chars, b ≠ 0#8 := by
  have hm : p.maxlen.toNat ≠ 0 := fun e => h (BitVec.eq_of_toNat_eq e)
  refine ⟨?_, ?_⟩
  · simp only [lineAfter, List.length_take]
    omega
  · intro b hb
    have := List.mem_of_mem_take hb
    simpa using (List.mem_filter.mp this).2

/-- What a `getline` attempt that does not stop did: it polled and echoed; then it wrote the line and its NUL, or blocks. -/
theorem getlineAttempt_cases {p : PendingLine} {s t : State} {r : SysResult} (h : getlineAttempt p s = .ok (r, t)) :
    p.maxlen ≠ 0#32 ∧
    ((∃ u, (pollKeys p s).1.enter = true ∧ u = (pollKeys p s).2.consolePutAll (pollKeys p s).1.echo ∧
        writeBytes ((lineAfter p (pollKeys p s).1).chars ++ [0#8]) p.buffer u = .ok t ∧
        r = .ret (BitVec.ofNat 32 (lineAfter p (pollKeys p s).1).chars.length)) ∨
      ((pollKeys p s).1.enter = false ∧ t = (pollKeys p s).2.consolePutAll (pollKeys p s).1.echo ∧
        r = .block (lineAfter p (pollKeys p s).1))) := by
  unfold getlineAttempt at h
  split at h
  · cases h
  · rename_i hm
    refine ⟨hm, ?_⟩
    simp only at h
    split at h
    · rename_i he
      cases hw : writeBytes ((lineAfter p (pollKeys p s).1).chars ++ [0#8]) (lineAfter p (pollKeys p s).1).buffer
          ((pollKeys p s).2.consolePutAll (pollKeys p s).1.echo) with
      | error e => rw [hw] at h; cases h
      | ok v =>
        rw [hw] at h
        cases h
        exact .inl ⟨_, he, rfl, hw, rfl⟩
    · rename_i he
      cases h
      exact .inr ⟨by simpa using he, rfl, rfl⟩

theorem getlineAttempt_frame {p : PendingLine} {s t : State} {r : SysResult} (h : getlineAttempt p s = .ok (r, t)) :
    CallFrame s t := by
  obtain ⟨-, ⟨u, -, rfl, hw, -⟩ | ⟨-, rfl, -⟩⟩ := getlineAttempt_cases h
  · exact (pollKeys_frame p s).1.trans ((consolePutAll_frame _ _).1.trans (writeBytes_frame hw).callFrame)
  · exact (pollKeys_frame p s).1.trans (consolePutAll_frame _ _).1

/-- How a `getline` attempt stops. -/
theorem getlineAttempt_error {p : PendingLine} {s : State} {e : Stop} (h : getlineAttempt p s = .error e) :
    (p.maxlen = 0#32 ∧ e = .refused .getlineZeroMaxlen) ∨ (p.maxlen ≠ 0#32 ∧ e = .fault .ramOutOfRange) := by
  unfold getlineAttempt at h
  split at h
  · rename_i hm
    cases h
    exact .inl ⟨hm, rfl⟩
  · rename_i hm
    refine .inr ⟨hm, ?_⟩
    simp only at h
    split at h
    · cases hw : writeBytes ((lineAfter p (pollKeys p s).1).chars ++ [0#8]) (lineAfter p (pollKeys p s).1).buffer
          ((pollKeys p s).2.consolePutAll (pollKeys p s).1.echo) with
      | error e1 =>
        rw [hw] at h
        cases h
        exact writeBytes_error hw
      | ok v => rw [hw] at h; cases h
    · cases h

/-! ## Each syscall -/

theorem sysReadSector_frame {s t : State} {r : SysResult} (h : sysReadSector s = .ok (r, t)) :
    CallFrame s t ∧ ∃ v, r = .ret v := by
  have f := (readSector_frame (arg0 s) s).1
  unfold sysReadSector at h
  split at h
  · rename_i data u hu
    rw [hu] at f
    cases hw : writeBytes data.toList (arg1 s) u with
    | error e => rw [hw] at h; cases h
    | ok v =>
      rw [hw] at h
      cases h
      exact ⟨f.trans (writeBytes_frame hw).callFrame, _, rfl⟩
  · rename_i u hu
    rw [hu] at f
    cases h
    exact ⟨f, _, rfl⟩

theorem sysWriteSector_frame {s t : State} {r : SysResult} (h : sysWriteSector s = .ok (r, t)) :
    CallFrame s t ∧ t.ram = s.ram ∧ ∃ v, r = .ret v := by
  unfold sysWriteSector at h
  cases h1 : readBytes 512 (arg1 s) s with
  | error e => rw [h1] at h; cases h
  | ok p =>
    obtain ⟨data, u⟩ := p
    obtain ⟨f1, m1, -⟩ := readBytes_frame h1
    obtain ⟨f2, m2⟩ := writeSector_frame (arg0 s) data u
    rw [h1] at h
    simp only [bind, Except.bind] at h
    split at h <;> rename_i v hv <;> rw [hv] at f2 m2 <;> cases h <;>
      exact ⟨f1.callFrame.trans f2, m2.trans m1, _, rfl⟩

theorem sysFopen_frame {s t : State} {r : SysResult} (h : sysFopen s = .ok (r, t)) :
    CallFrame s t ∧ t.ram = s.ram ∧ ∃ v, r = .ret v := by
  unfold sysFopen at h
  cases h1 : readString (fun u _ => u) (arg0 s) s with
  | error e => rw [h1] at h; cases h
  | ok p =>
    obtain ⟨name, u⟩ := p
    obtain ⟨f1, m1⟩ := readString_frame (fun s _ => ⟨.refl s, rfl⟩) h1
    obtain ⟨f2, m2⟩ := fopen_frame name (arg1 s) u
    rw [h1] at h
    simp only [bind, Except.bind] at h
    split at h
    · rename_i k v hv
      rw [hv] at f2 m2
      cases h
      exact ⟨f1.trans f2, m2.trans m1, _, rfl⟩
    · rename_i v hv
      rw [hv] at f2 m2
      cases h
      exact ⟨f1.trans f2, m2.trans m1, _, rfl⟩

theorem sysPuts_frame {s t : State} {r : SysResult} (h : sysPuts s = .ok (r, t)) :
    CallFrame s t ∧ t.ram = s.ram ∧ ∃ v, r = .ret v := by
  unfold sysPuts at h
  cases h1 : readString State.consolePut (arg0 s) s with
  | error e => rw [h1] at h; cases h
  | ok p =>
    obtain ⟨bs, u⟩ := p
    obtain ⟨f1, m1⟩ := readString_frame consolePut_frame h1
    rw [h1] at h
    cases h
    exact ⟨f1, m1, _, rfl⟩

theorem sysFread_frame {s t : State} {r : SysResult} (h : sysFread s = .ok (r, t)) :
    CallFrame s t ∧ ∃ v, r = .ret v := by
  have f := (fread_frame (arg0 s) (arg2 s) s).1
  unfold sysFread at h
  split at h
  · rename_i data u hu
    rw [hu] at f
    cases hw : writeBytes data (arg1 s) u with
    | error e => rw [hw] at h; cases h
    | ok v =>
      rw [hw] at h
      cases h
      exact ⟨f.trans (writeBytes_frame hw).callFrame, _, rfl⟩
  · rename_i u hu
    rw [hu] at f
    cases h
    exact ⟨f, _, rfl⟩

theorem sysFwrite_frame {s t : State} {r : SysResult} (h : sysFwrite s = .ok (r, t)) :
    CallFrame s t ∧ t.ram = s.ram ∧ ∃ v, r = .ret v := by
  unfold sysFwrite at h
  cases h1 : readBytes (arg2 s).toNat (arg1 s) s with
  | error e => rw [h1] at h; cases h
  | ok p =>
    obtain ⟨data, u⟩ := p
    obtain ⟨f1, m1, -⟩ := readBytes_frame h1
    obtain ⟨f2, m2⟩ := fwrite_frame (arg0 s) data u
    rw [h1] at h
    simp only [bind, Except.bind] at h
    split at h
    · rename_i k v hv
      rw [hv] at f2 m2
      cases h
      exact ⟨f1.callFrame.trans f2, m2.trans m1, _, rfl⟩
    · rename_i v hv
      rw [hv] at f2 m2
      cases h
      exact ⟨f1.callFrame.trans f2, m2.trans m1, _, rfl⟩

theorem sysFclose_frame {s t : State} {r : SysResult} (h : sysFclose s = .ok (r, t)) :
    CallFrame s t ∧ t.ram = s.ram ∧ ∃ v, r = .ret v := by
  obtain ⟨f, m⟩ := fclose_frame (arg0 s) s
  unfold sysFclose at h
  split at h <;> rename_i u hu <;> rw [hu] at f m <;> cases h <;> exact ⟨f, m, _, rfl⟩

theorem sysGetchar_frame {s t : State} {r : SysResult} (h : sysGetchar s = .ok (r, t)) :
    CallFrame s t ∧ t.ram = s.ram ∧ ∃ v, r = .ret v := by
  obtain ⟨f, m⟩ := kbdPop_frame s
  unfold sysGetchar at h
  split at h
  · rename_i k u hu
    rw [hu] at f m
    cases h
    exact ⟨f, m, _, rfl⟩
  · rename_i u hu
    rw [hu] at f m
    cases h
    exact ⟨f, m, _, rfl⟩

theorem sysPutchar_frame {s t : State} {r : SysResult} (h : sysPutchar s = .ok (r, t)) :
    CallFrame s t ∧ t.ram = s.ram ∧ ∃ v, r = .ret v := by
  cases h
  exact ⟨(consolePut_frame s _).1, (consolePut_frame s _).2, _, rfl⟩

/-! ## The dispatcher -/

/-- The number of a syscall in the table (60_exceptions.md R246 to R256). -/
theorem syscallOf_eq {number : Word} {c : Syscall} (h : syscallOf number = some c) :
    number = match c with
      | .exit => 0#32
      | .putchar => 1#32
      | .getchar => 2#32
      | .puts => 3#32
      | .readSector => 4#32
      | .writeSector => 5#32
      | .getline => 6#32
      | .fopen => 7#32
      | .fread => 8#32
      | .fwrite => 9#32
      | .fclose => 10#32 := by
  unfold syscallOf at h
  split at h <;> cases h <;> rename_i e <;> exact BitVec.eq_of_toNat_eq e

/-- Everything the dispatcher can do where it does not stop (60_exceptions.md R245): its frame, that only the syscalls that
read into guest memory change RAM, and that only exit halts and only getline blocks. -/
theorem dispatch_cases {s t : State} {r : SysResult} (h : dispatch s = .ok (r, t)) :
    CallFrame s t ∧ (t.ram = s.ram ∨ WritesGuestMemory (s.getReg 17#5)) ∧
    ((∃ v, r = .ret v) ∨ (s.getReg 17#5 = 0#32 ∧ r = .exit (s.getReg 10#5)) ∨
      (s.getReg 17#5 = 6#32 ∧ s.getReg 11#5 ≠ 0#32 ∧ ∃ p, r = .block p ∧ p.chars.length + 1 ≤ p.maxlen.toNat ∧
        ∀ b ∈ p.chars, b ≠ 0#8)) := by
  unfold dispatch at h
  split at h
  · cases h
    exact ⟨.refl s, .inl rfl, .inl ⟨_, rfl⟩⟩
  all_goals rename_i hc; have hn := syscallOf_eq hc; simp only [callNumber] at hn
  · cases h
    exact ⟨.refl s, .inl rfl, .inr (.inl ⟨hn, rfl⟩)⟩
  · obtain ⟨f, m, v⟩ := sysPutchar_frame h
    exact ⟨f, .inl m, .inl v⟩
  · obtain ⟨f, m, v⟩ := sysGetchar_frame h
    exact ⟨f, .inl m, .inl v⟩
  · obtain ⟨f, m, v⟩ := sysPuts_frame h
    exact ⟨f, .inl m, .inl v⟩
  · obtain ⟨f, v⟩ := sysReadSector_frame h
    exact ⟨f, .inr (.inl hn), .inl v⟩
  · obtain ⟨f, m, v⟩ := sysWriteSector_frame h
    exact ⟨f, .inl m, .inl v⟩
  · refine ⟨getlineAttempt_frame h, .inr (.inr (.inl hn)), ?_⟩
    obtain ⟨hm, ⟨u, -, -, -, rfl⟩ | ⟨-, -, rfl⟩⟩ := getlineAttempt_cases h
    · exact .inl ⟨_, rfl⟩
    · exact .inr (.inr ⟨hn, hm, _, rfl, lineAfter_fits _ _ hm⟩)
  · obtain ⟨f, m, v⟩ := sysFopen_frame h
    exact ⟨f, .inl m, .inl v⟩
  · obtain ⟨f, v⟩ := sysFread_frame h
    exact ⟨f, .inr (.inr (.inr hn)), .inl v⟩
  · obtain ⟨f, m, v⟩ := sysFwrite_frame h
    exact ⟨f, .inl m, .inl v⟩
  · obtain ⟨f, m, v⟩ := sysFclose_frame h
    exact ⟨f, .inl m, .inl v⟩

/-- How the dispatcher stops: a refusal only at getline with maxlen 0, else a fault. -/
theorem dispatch_error {s : State} {e : Stop} (h : dispatch s = .error e) :
    (s.getReg 17#5 = 6#32 ∧ s.getReg 11#5 = 0#32 ∧ e = .refused .getlineZeroMaxlen) ∨ ∃ f, e = .fault f := by
  unfold dispatch at h
  split at h
  · cases h
  all_goals rename_i hc; have hn := syscallOf_eq hc; simp only [callNumber] at hn
  · cases h
  · cases h
  · unfold sysGetchar at h
    split at h <;> cases h
  · unfold sysPuts at h
    cases h1 : readString State.consolePut (arg0 s) s with
    | error e1 =>
      rw [h1] at h
      cases h
      rcases readString_error h1 with rfl | rfl <;> exact .inr ⟨_, rfl⟩
    | ok p => rw [h1] at h; cases h
  · unfold sysReadSector at h
    split at h
    · rename_i data u hu
      cases hw : writeBytes data.toList (arg1 s) u with
      | error e1 =>
        rw [hw] at h
        cases h
        exact .inr ⟨_, writeBytes_error hw⟩
      | ok v => rw [hw] at h; cases h
    · cases h
  · unfold sysWriteSector at h
    cases h1 : readBytes 512 (arg1 s) s with
    | error e1 =>
      rw [h1] at h
      cases h
      exact .inr ⟨_, readBytes_error h1⟩
    | ok p =>
      rw [h1] at h
      simp only [bind, Except.bind] at h
      split at h <;> cases h
  · rcases getlineAttempt_error h with ⟨hm, rfl⟩ | ⟨-, rfl⟩
    · exact .inl ⟨hn, hm, rfl⟩
    · exact .inr ⟨_, rfl⟩
  · unfold sysFopen at h
    cases h1 : readString (fun u _ => u) (arg0 s) s with
    | error e1 =>
      rw [h1] at h
      cases h
      rcases readString_error h1 with rfl | rfl <;> exact .inr ⟨_, rfl⟩
    | ok p =>
      rw [h1] at h
      simp only [bind, Except.bind] at h
      split at h <;> cases h
  · unfold sysFread at h
    split at h
    · rename_i data u hu
      cases hw : writeBytes data (arg1 s) u with
      | error e1 =>
        rw [hw] at h
        cases h
        exact .inr ⟨_, writeBytes_error hw⟩
      | ok v => rw [hw] at h; cases h
    · cases h
  · unfold sysFwrite at h
    cases h1 : readBytes (arg2 s).toNat (arg1 s) s with
    | error e1 =>
      rw [h1] at h
      cases h
      exact .inr ⟨_, readBytes_error h1⟩
    | ok p =>
      rw [h1] at h
      simp only [bind, Except.bind] at h
      split at h <;> cases h
  · unfold sysFclose at h
    split at h <;> cases h

end Sys2Proof.Machine
end

