-- ==== Sys2Proof/Laws/Step.lean ====
section
/-! SUPPORT. Everything an instruction can do (`exec_next`) and everything a step can do (`step_next`), said once. -/

namespace Sys2Proof.Machine

/-! ## What an instruction leaves -/

/-- How an instruction leaves the engine: as it was; halted by exit or by a breakpoint; suspended by a getline. -/
inductive EngineAfter (i : Instr) (s t : State) : Prop where
  | same (engine : SameEngine s t)
  | exit (isEcall : i = .ecall) (number : s.getReg 17#5 = 0#32) (after : Halts .exit (s.getReg 10#5) s t)
  | breakpoint (isEbreak : i = .ebreak) (after : Halts .breakpoint s.exitCode s t)
  | suspended (isEcall : i = .ecall) (number : s.getReg 17#5 = 6#32) (pc : t.pc = s.pc)
      (halted : t.halted = s.halted) (exitCode : t.exitCode = s.exitCode) (haltCause : t.haltCause = s.haltCause)
      (record : ∃ p, t.runState = .suspended p ∧ p.chars.length + 1 ≤ p.maxlen.toNat ∧ ∀ b ∈ p.chars, b ≠ 0#8)

/-- Everything an instruction can do when it answers a next state. -/
structure ExecFrame (i : Instr) (s t : State) : Prop where
  map           : SameMap s t
  regs          : ∀ r, i.destination ≠ some r → t.getReg r = s.getReg r
  x0            : t.regs[0] = s.regs[0]
  ram           : t.ram = s.ram ∨ i.IsStore ∨ (i = .ecall ∧ WritesGuestMemory (s.getReg 17#5))
  consoleOutput : s.consoleOutput <+: t.consoleOutput
  events        : s.events <+: t.events
  ramCanonical  : Memory.wf s.ram → Memory.wf t.ram
  ramInside     : (∀ c ∈ s.ram, c.1 < s.ramSize) → ∀ c ∈ t.ram, c.1 < t.ramSize
  pcEven        : i.wellFormed = true → s.pc.getLsbD 0 = false → t.pc.getLsbD 0 = false
  engine        : EngineAfter i s t

/-- A write to a register never reaches the stored entry of x0 (10_state.md R21). -/
theorem setReg_entry0 (s : State) (r : Reg) (v : Word) : (s.setReg r v).regs[0] = s.regs[0] := by
  unfold State.setReg
  split
  · rfl
  · rename_i h
    exact Vector.getElem_set_ne r.isLt _ fun e => h (BitVec.eq_of_toNat_eq (by simpa using e))

theorem even_add {a b : Word} (ha : a.getLsbD 0 = false) (hb : b.getLsbD 0 = false) : (a + b).getLsbD 0 = false := by
  have h1 : a.toNat % 2 = 0 := by simpa [BitVec.getLsbD, Nat.testBit_zero] using ha
  have h2 : b.toNat % 2 = 0 := by simpa [BitVec.getLsbD, Nat.testBit_zero] using hb
  simp only [BitVec.getLsbD, Nat.testBit_zero, BitVec.toNat_add, decide_eq_false_iff_not]
  omega

theorem even_advance {s : State} (h : s.pc.getLsbD 0 = false) : (s.pc + 4#32).getLsbD 0 = false := even_add h (by decide)

/-- The frame of an instruction that wrote one register and pc after bus accesses. -/
theorem execFrame_setReg {i : Instr} {s u : State} {rd : Reg} {v next : Word} (hd : i.destination = some rd)
    (f : BusFrame s u) (m : u.ram = s.ram)
    (hpc : i.wellFormed = true → s.pc.getLsbD 0 = false → next.getLsbD 0 = false) :
    ExecFrame i s ((u.setReg rd v).setPc next) where
  map := ⟨by simpa using f.ramSize, by simpa using f.windows, by simpa using f.decodeErrorCode⟩
  regs := fun r hr => by
    rw [getReg_setPc, getReg_setReg_ne _ _ (fun e => hr (by rw [hd, e])), f.getReg]
  x0 := by rw [setPc_regs, setReg_entry0, f.regs]
  ram := .inl (by simpa using m)
  consoleOutput := by simpa using f.callFrame.consoleOutput
  events := by simpa using f.events
  ramCanonical := by simpa using f.ramCanonical
  ramInside := by simpa using f.ramInside
  pcEven := hpc
  engine := .same ⟨by simpa using f.runState, by simpa using f.halted, by simpa using f.exitCode,
    by simpa using f.haltCause⟩

theorem execFrame_writeResult {i : Instr} {s t : State} {rd : Reg} {v : Word} (hd : i.destination = some rd)
    (h : writeResult rd v s = .next t) : ExecFrame i s t := by
  cases h
  rw [setReg_advance]
  exact execFrame_setReg hd (.refl s) rfl fun _ => even_advance

theorem execFrame_load {i : Instr} {s t : State} {rd rs1 : Reg} {imm : BitVec 12} {n : Nat} {extend : Word → Word}
    (hd : i.destination = some rd) (h : load n extend rd rs1 imm s = .next t) : ExecFrame i s t := by
  obtain ⟨v, u, h1, rfl⟩ := load_next h
  obtain ⟨f, m⟩ := memRead_frame h1
  rw [setReg_advance]
  exact execFrame_setReg hd f m fun _ he => even_advance (f.pc ▸ he)

theorem execFrame_setPc {i : Instr} {s : State} {next : Word}
    (hpc : i.wellFormed = true → s.pc.getLsbD 0 = false → next.getLsbD 0 = false) : ExecFrame i s (s.setPc next) where
  map := ⟨rfl, rfl, rfl⟩
  regs := fun _ _ => rfl
  x0 := rfl
  ram := .inl rfl
  consoleOutput := List.prefix_refl _
  events := List.prefix_refl _
  ramCanonical := id
  ramInside := id
  pcEven := hpc
  engine := .same ⟨rfl, rfl, rfl, rfl⟩

theorem execFrame_branch {i : Instr} {s t : State} {taken : Bool} {offset : BitVec 13}
    (hw : i.wellFormed = true → offset.getLsbD 0 = false) (h : branch taken offset s = .next t) : ExecFrame i s t := by
  cases h
  cases taken
  · exact execFrame_setPc fun _ => even_advance
  · refine execFrame_setPc fun hi he => even_add he ?_
    rw [immB, BitVec.getLsbD_signExtend]
    simpa using hw hi

theorem execFrame_store {i : Instr} {s t : State} {rs2 rs1 : Reg} {imm : BitVec 12} {n : Nat} (hi : i.IsStore)
    (h : store n rs2 rs1 imm s = .next t) : ExecFrame i s t := by
  obtain ⟨u, h1, rfl⟩ := store_next h
  have f := writeBytes_frame h1
  exact
    { map := ⟨by simpa using f.ramSize, by simpa using f.windows, by simpa using f.decodeErrorCode⟩
      regs := fun r _ => by simpa using f.getReg r
      x0 := by simp [f.regs]
      ram := .inr (.inl hi)
      consoleOutput := by simpa using f.callFrame.consoleOutput
      events := by simpa using f.events
      ramCanonical := by simpa using f.ramCanonical
      ramInside := by simpa using f.ramInside
      pcEven := fun _ he => by simpa [f.pc] using even_advance he
      engine := .same ⟨by simpa using f.runState, by simpa using f.halted, by simpa using f.exitCode,
        by simpa using f.haltCause⟩ }

theorem execFrame_jalr (s : State) (rd rs1 : Reg) (imm : BitVec 12) :
    ExecFrame (.jalr rd rs1 imm) s ((s.setReg rd (s.pc + 4#32)).setPc (jalrTarget s rs1 imm)) :=
  execFrame_setReg rfl (.refl s) rfl fun _ _ => by
    simp [jalrTarget]

theorem execFrame_jal (s : State) (rd : Reg) (offset : BitVec 21) :
    ExecFrame (.jal rd offset) s ((s.setReg rd (s.pc + 4#32)).setPc (jalTarget s offset)) := by
  refine execFrame_setReg rfl (.refl s) rfl fun hi he => even_add he ?_
  rw [immJ, BitVec.getLsbD_signExtend]
  simpa [Instr.wellFormed, evenOffset] using hi

theorem execFrame_ebreak (s : State) : ExecFrame .ebreak s (halt .breakpoint s.exitCode s) where
  map := ⟨rfl, rfl, rfl⟩
  regs := fun _ _ => rfl
  x0 := rfl
  ram := .inl rfl
  consoleOutput := List.prefix_refl _
  events := List.prefix_refl _
  ramCanonical := id
  ramInside := id
  pcEven := fun _ h => h
  engine := .breakpoint rfl (halts_halt _ _ _)

/-- ECALL, from what the dispatcher can do. -/
theorem execFrame_ecall {s t : State} (h : execEcall s = .next t) : ExecFrame .ecall s t := by
  unfold execEcall at h
  cases hd : dispatch s with
  | error e =>
    rw [hd] at h
    rcases dispatch_error hd with ⟨-, -, rfl⟩ | ⟨f, rfl⟩ <;> cases h
  | ok p =>
    obtain ⟨r, u⟩ := p
    obtain ⟨f, m, hr⟩ := dispatch_cases hd
    rw [hd] at h
    cases h
    rcases hr with ⟨v, rfl⟩ | ⟨hn, rfl⟩ | ⟨hn, hm, p, rfl, hp⟩
    · exact
        { map := ⟨by simpa [applyResult] using f.ramSize, by simpa [applyResult] using f.windows,
            by simpa [applyResult] using f.decodeErrorCode⟩
          regs := fun r hr => by
            simp only [applyResult, getReg_advance]
            rw [getReg_setReg_ne _ _ (fun e => hr (by rw [e]; rfl)), f.getReg]
          x0 := by simp only [applyResult, advance_regs, setReg_entry0, f.regs]
          ram := m.imp (by simp [applyResult]) fun w => .inr ⟨rfl, w⟩
          consoleOutput := by simpa [applyResult] using f.consoleOutput
          events := by simpa [applyResult] using f.events
          ramCanonical := by simpa [applyResult] using f.ramCanonical
          ramInside := by simpa [applyResult] using f.ramInside
          pcEven := fun _ he => by simpa [applyResult, f.pc] using even_advance he
          engine := .same ⟨by simpa [applyResult] using f.runState, by simpa [applyResult] using f.halted,
            by simpa [applyResult] using f.exitCode, by simpa [applyResult] using f.haltCause⟩ }
    · have hu : u = s := by
        unfold dispatch at hd
        simp only [callNumber, hn] at hd
        cases hd
        rfl
      subst hu
      exact
        { map := ⟨rfl, rfl, rfl⟩
          regs := fun _ _ => rfl
          x0 := rfl
          ram := .inl rfl
          consoleOutput := List.prefix_refl _
          events := List.prefix_refl _
          ramCanonical := id
          ramInside := id
          pcEven := fun _ h => h
          engine := .exit rfl hn (halts_halt _ _ _) }
    · exact
        { map := ⟨f.ramSize, f.windows, f.decodeErrorCode⟩
          regs := fun r _ => f.getReg r
          x0 := by simp only [applyResult, setRunState_regs, f.regs]
          ram := m.imp id fun w => .inr ⟨rfl, w⟩
          consoleOutput := f.consoleOutput
          events := f.events
          ramCanonical := f.ramCanonical
          ramInside := f.ramInside
          pcEven := fun _ he => by simpa [applyResult, f.pc] using he
          engine := .suspended rfl hn f.pc f.halted f.exitCode f.haltCause ⟨p, rfl, hp⟩ }

/-- Everything an instruction can do when it answers a next state. -/
theorem exec_next {i : Instr} {s t : State} (h : exec i s = .next t) : ExecFrame i s t := by
  cases i with
  | add rd rs1 rs2 => exact execFrame_writeResult rfl h
  | sub rd rs1 rs2 => exact execFrame_writeResult rfl h
  | sll rd rs1 rs2 => exact execFrame_writeResult rfl h
  | slt rd rs1 rs2 => exact execFrame_writeResult rfl h
  | sltu rd rs1 rs2 => exact execFrame_writeResult rfl h
  | xor rd rs1 rs2 => exact execFrame_writeResult rfl h
  | srl rd rs1 rs2 => exact execFrame_writeResult rfl h
  | sra rd rs1 rs2 => exact execFrame_writeResult rfl h
  | or rd rs1 rs2 => exact execFrame_writeResult rfl h
  | and rd rs1 rs2 => exact execFrame_writeResult rfl h
  | addi rd rs1 imm => exact execFrame_writeResult rfl h
  | slti rd rs1 imm => exact execFrame_writeResult rfl h
  | sltiu rd rs1 imm => exact execFrame_writeResult rfl h
  | xori rd rs1 imm => exact execFrame_writeResult rfl h
  | ori rd rs1 imm => exact execFrame_writeResult rfl h
  | andi rd rs1 imm => exact execFrame_writeResult rfl h
  | slli rd rs1 shamt => exact execFrame_writeResult rfl h
  | srli rd rs1 shamt => exact execFrame_writeResult rfl h
  | srai rd rs1 shamt => exact execFrame_writeResult rfl h
  | lb rd rs1 imm => exact execFrame_load rfl h
  | lh rd rs1 imm => exact execFrame_load rfl h
  | lw rd rs1 imm => exact execFrame_load rfl h
  | lbu rd rs1 imm => exact execFrame_load rfl h
  | lhu rd rs1 imm => exact execFrame_load rfl h
  | sb rs2 rs1 imm => exact execFrame_store ⟨rs2, rs1, imm, .inl rfl⟩ h
  | sh rs2 rs1 imm => exact execFrame_store ⟨rs2, rs1, imm, .inr (.inl rfl)⟩ h
  | sw rs2 rs1 imm => exact execFrame_store ⟨rs2, rs1, imm, .inr (.inr rfl)⟩ h
  | beq rs1 rs2 offset => exact execFrame_branch (by simp [Instr.wellFormed, evenOffset]) h
  | bne rs1 rs2 offset => exact execFrame_branch (by simp [Instr.wellFormed, evenOffset]) h
  | blt rs1 rs2 offset => exact execFrame_branch (by simp [Instr.wellFormed, evenOffset]) h
  | bge rs1 rs2 offset => exact execFrame_branch (by simp [Instr.wellFormed, evenOffset]) h
  | bltu rs1 rs2 offset => exact execFrame_branch (by simp [Instr.wellFormed, evenOffset]) h
  | bgeu rs1 rs2 offset => exact execFrame_branch (by simp [Instr.wellFormed, evenOffset]) h
  | lui rd imm20 => exact execFrame_writeResult rfl h
  | auipc rd imm20 => exact execFrame_writeResult rfl h
  | jal rd offset =>
    cases h
    exact execFrame_jal s rd offset
  | jalr rd rs1 imm =>
    cases h
    exact execFrame_jalr s rd rs1 imm
  | ecall => exact execFrame_ecall h
  | ebreak =>
    cases h
    exact execFrame_ebreak s
  | fence =>
    cases h
    exact execFrame_setPc fun _ => even_advance

/-! ## What a step leaves -/

theorem fetch_frame {s t : State} {w : Word} (h : fetch s = .ok (w, t)) : BusFrame s t ∧ t.ram = s.ram := by
  unfold fetch at h
  split at h
  · exact memRead_frame h
  · cases h

/-- Every step that answers a next state is one of four: nothing in Halted, another attempt at a pending getline, a decode
error, or an instruction executed in the state its fetch leaves (40_execution_cycle.md R130, R137). -/
theorem step_cases {s t : State} (h : step s = .next t) :
    (s.runState = .halted ∧ t = s) ∨
    (∃ p r u, s.runState = .suspended p ∧ getlineAttempt p s = .ok (r, u) ∧ t = applyResult r (u.setRunState .running)) ∨
    (s.runState = .running ∧ ∃ w u e, fetch s = .ok (w, u) ∧ decode w = .error e ∧ t = raiseDecodeError u) ∨
    (∃ i u, Fetches s i u ∧ exec i u = .next t) := by
  unfold step at h
  split at h
  · rename_i hr
    cases h
    exact .inl ⟨hr, rfl⟩
  · rename_i p hr
    unfold stepSuspended at h
    cases hg : getlineAttempt p s with
    | error e =>
      rw [hg] at h
      rcases getlineAttempt_error hg with ⟨-, rfl⟩ | ⟨-, rfl⟩ <;> cases h
    | ok q =>
      obtain ⟨r, u⟩ := q
      rw [hg] at h
      cases h
      exact .inr (.inl ⟨p, r, u, hr, hg, rfl⟩)
  · rename_i hr
    unfold stepRunning at h
    split at h
    · rename_i w u hf
      unfold executeWord at h
      split at h
      · rename_i i hi
        exact .inr (.inr (.inr ⟨i, u, ⟨hr, w, hf, hi⟩, h⟩))
      · rename_i e he
        cases h
        exact .inr (.inr (.inl ⟨hr, w, u, e, hf, he, rfl⟩))
    · cases h
    · cases h

end Sys2Proof.Machine
end

