-- ==== Sys2Proof/Tests/Slice0.lean ====
section
/-! SUPPORT. The model's own tests. Expected values come from the vectors of 95_test_vectors.md, whose names the tests carry,
and from the rules named beside them. After the tests: for each statement of Obligations.lean with hypotheses, a state and
operands that meet them all (`witness_…`). -/

namespace Sys2Proof.Tests

open Sys2Proof.Machine

/-! ## Helpers -/

/-- The reset state with a pc and registers set by the host (70_reset_and_hazards.md R310). -/
def start (pc : Word) (regs : List (Reg × Word)) : State :=
  regs.foldl (fun s p => s.setReg p.1 p.2) (State.reset.setPc pc)

/-- The same, with bytes in RAM. -/
def withBytes (a : Nat) (bs : List Byte) (s : State) : State := s.setRam (s.ram.writeList a bs)

/-- The outcome is a next state that passes a check. -/
def nextIs (check : State → Bool) : Host.Outcome State Fault Refusal → Bool
  | .next t => check t
  | .fault _ => false
  | .refused _ => false

/-- The outcome is this fault. -/
def faultIs (f : Fault) : Host.Outcome State Fault Refusal → Bool
  | .next _ => false
  | .fault g => f == g
  | .refused _ => false

/-- The outcome is this refusal. -/
def refusalIs (r : Refusal) : Host.Outcome State Fault Refusal → Bool
  | .next _ => false
  | .fault _ => false
  | .refused q => r == q

/-- Running at a pc, with these register values. -/
def leaves (pc : Word) (regs : List (Reg × Word)) (t : State) : Bool :=
  t.pc == pc && regs.all (fun p => t.getReg p.1 == p.2) && t.runState == .running && !t.halted

/-- One step that runs a word placed at pc. -/
def stepWord (w : Nat) (s : State) : Host.Outcome State Fault Refusal := step (s.withFetchWord 32 w)

/-! ## WellFormed refuses an odd offset, one check for each instruction that has an offset (30_encoding.md R98, R100) -/

theorem test_illformed_beq : (Instr.beq 1 2 0x0003).wellFormed = false := by decide
theorem test_illformed_bne : (Instr.bne 1 2 0x0003).wellFormed = false := by decide
theorem test_illformed_blt : (Instr.blt 1 2 0x0003).wellFormed = false := by decide
theorem test_illformed_bge : (Instr.bge 1 2 0x0003).wellFormed = false := by decide
theorem test_illformed_bltu : (Instr.bltu 1 2 0x0003).wellFormed = false := by decide
theorem test_illformed_bgeu : (Instr.bgeu 1 2 0x0003).wellFormed = false := by decide
theorem test_illformed_jal : (Instr.jal 1 0x000001).wellFormed = false := by decide
theorem test_wellformed_even : (Instr.beq 1 2 0x1002).wellFormed = true ∧ (Instr.jal 1 0x100002).wellFormed = true := by decide

/-! ## Decoding: every constructor from a word written out from its encoding (30_encoding.md R104) -/

theorem test_decode_register :
    decode 0x002081B3 = .ok (.add 3 1 2) ∧
    decode 0x402081B3 = .ok (.sub 3 1 2) ∧
    decode 0x002091B3 = .ok (.sll 3 1 2) ∧
    decode 0x0020A1B3 = .ok (.slt 3 1 2) ∧
    decode 0x0020B1B3 = .ok (.sltu 3 1 2) ∧
    decode 0x0020C1B3 = .ok (.xor 3 1 2) ∧
    decode 0x0020E1B3 = .ok (.or 3 1 2) ∧
    decode 0x0020F1B3 = .ok (.and 3 1 2) ∧
    decode 0x0020D1B3 = .ok (.srl 3 1 2) ∧
    decode 0x4020D1B3 = .ok (.sra 3 1 2) := by
  decide

theorem test_decode_immediate :
    decode 0xFFF00093 = .ok (.addi 1 0 0xFFF) ∧
    decode 0xFFF0A193 = .ok (.slti 3 1 0xFFF) ∧
    decode 0xFFF0B193 = .ok (.sltiu 3 1 0xFFF) ∧
    decode 0xFFF0C193 = .ok (.xori 3 1 0xFFF) ∧
    decode 0x8000E193 = .ok (.ori 3 1 0x800) ∧
    decode 0xFF00F193 = .ok (.andi 3 1 0xFF0) := by
  decide

theorem test_decode_immediate_shift :
    decode 0x01F09193 = .ok (.slli 3 1 31) ∧
    decode 0x01F0D193 = .ok (.srli 3 1 31) ∧
    decode 0x41F0D193 = .ok (.srai 3 1 31) := by
  decide

theorem test_decode_load :
    decode 0x00008183 = .ok (.lb 3 1 0x0) ∧
    decode 0xFFE09183 = .ok (.lh 3 1 0xFFE) ∧
    decode 0xFFF0A183 = .ok (.lw 3 1 0xFFF) ∧
    decode 0x0000C183 = .ok (.lbu 3 1 0x0) ∧
    decode 0x0060D183 = .ok (.lhu 3 1 0x6) := by
  decide

theorem test_decode_store :
    decode 0x002081A3 = .ok (.sb 2 1 0x3) ∧
    decode 0x00209123 = .ok (.sh 2 1 0x2) ∧
    decode 0xFE20AE23 = .ok (.sw 2 1 0xFFC) ∧
    decode 0x7E20AFA3 = .ok (.sw 2 1 0x7FF) ∧
    decode 0x8020A023 = .ok (.sw 2 1 0x800) := by
  decide

theorem test_decode_branch :
    decode 0x7E000FE3 = .ok (.beq 0 0 0xFFE) ∧
    decode 0xFE209EE3 = .ok (.bne 1 2 0x1FFC) ∧
    decode 0x0020C863 = .ok (.blt 1 2 0x10) ∧
    decode 0x0020D863 = .ok (.bge 1 2 0x10) ∧
    decode 0x0020E863 = .ok (.bltu 1 2 0x10) ∧
    decode 0xFE20FCE3 = .ok (.bgeu 1 2 0x1FF8) := by
  decide

theorem test_decode_branch_far :
    decode 0x80000063 = .ok (.beq 0 0 0x1000) ∧
    decode 0x000000E3 = .ok (.beq 0 0 0x800) := by
  decide

theorem test_decode_upper :
    decode 0x123452B7 = .ok (.lui 5 0x12345) ∧
    decode 0xFFFFF297 = .ok (.auipc 5 0xFFFFF) := by
  decide

theorem test_decode_jump :
    decode 0xFF9FF06F = .ok (.jal 0 0x1FFFF8) ∧
    decode 0xFFF08167 = .ok (.jalr 2 1 0xFFF) := by
  decide

theorem test_decode_jal_bits :
    decode 0x001000EF = .ok (.jal 1 0x800) ∧
    decode 0x800000EF = .ok (.jal 1 0x100000) ∧
    decode 0x000010EF = .ok (.jal 1 0x1000) ∧
    decode 0x002000EF = .ok (.jal 1 0x2) := by
  decide

theorem test_decode_system :
    decode 0x00000073 = .ok .ecall ∧
    decode 0x000000F3 = .ok .ecall ∧
    decode 0x00008073 = .ok .ecall ∧
    decode 0x00100073 = .ok .ebreak ∧
    decode 0x001000F3 = .ok .ebreak ∧
    decode 0x0FF0000F = .ok .fence ∧
    decode 0x0100000F = .ok .fence ∧
    decode 0x8330000F = .ok .fence := by
  decide

/-- The illegal words X1 to X28. -/
def illegalWords : List Word :=
  [0x00000000, 0xFFFFFFFF, 0x00000001, 0x02208033, 0x40209033, 0x2020D033, 0x40009193,
   0x02009193, 0x8000D193, 0x0000B003, 0x0000E003, 0x0000F003, 0x0020B023, 0x0020C023,
   0x0020A463, 0x0020B463, 0x00009067, 0x00200073, 0x30200073, 0x10500073, 0x00101073,
   0xC0002573, 0x0000100F, 0x0000202F, 0x00002007, 0x0000001B, 0x0000000B, 0x00000053]

theorem test_illegal_words : illegalWords.all (fun w => (decode w).toOption.isNone) = true := by decide

theorem test_decode_bytes_too_few : decodeBytes [0x13, 0x00, 0x00] = .error .tooFewBytes := by decide

theorem test_decode_table_word : decodeTableWord 32 0x4020D1B3 = some (.sra 3 1 2) ∧ decodeTableWord 32 0 = none := by
  decide

/-- The words of the table tell every two of its rows apart: no two rows overlap (30_encoding.md R105). -/
theorem test_table_rows_disjoint :
    opcodeTable.Pairwise (fun r q => r.bits &&& (r.mask &&& q.mask) ≠ q.bits &&& (r.mask &&& q.mask)) := by
  decide +kernel

theorem test_table_has_40_rows : opcodeTable.length = 40 := by decide

/-! ## One step of each instruction (95_test_vectors.md, part 3) -/

theorem test_add_A2 :
    nextIs (leaves 0x00001004 [(3, 0x00000000)])
      (stepWord 0x002081B3 (start 0x1000 [(1, 0xFFFFFFFF), (2, 0x00000001)])) = true := by
  decide

theorem test_add_A4 :
    nextIs (leaves 0x00001004 [(1, 0x00000002)])
      (stepWord 0x001080B3 (start 0x1000 [(1, 0x80000001)])) = true := by
  decide

theorem test_sub_A6 :
    nextIs (leaves 0x00001004 [(3, 0xFFFFFFFE)])
      (stepWord 0x402081B3 (start 0x1000 [(1, 0x00000005), (2, 0x00000007)])) = true := by
  decide

theorem test_sub_A7 :
    nextIs (leaves 0x00001004 [(3, 0x7FFFFFFF)])
      (stepWord 0x402081B3 (start 0x1000 [(1, 0x80000000), (2, 0x00000001)])) = true := by
  decide

theorem test_sll_A10 :
    nextIs (leaves 0x00001004 [(3, 0x12345678)])
      (stepWord 0x002091B3 (start 0x1000 [(1, 0x12345678), (2, 0x00000020)])) = true := by
  decide

theorem test_sll_A11 :
    nextIs (leaves 0x00001004 [(3, 0xFFFFFFF0)])
      (stepWord 0x002091B3 (start 0x1000 [(1, 0xFFFFFFFF), (2, 0xFFFFFFE4)])) = true := by
  decide

theorem test_slt_A13 :
    nextIs (leaves 0x00001004 [(3, 0x00000000)])
      (stepWord 0x0020A1B3 (start 0x1000 [(1, 0x00000001), (2, 0xFFFFFFFF)])) = true := by
  decide

theorem test_slt_A14 :
    nextIs (leaves 0x00001004 [(3, 0x00000001)])
      (stepWord 0x0020A1B3 (start 0x1000 [(1, 0x80000000), (2, 0x7FFFFFFF)])) = true := by
  decide

theorem test_sltu_A16 :
    nextIs (leaves 0x00001004 [(3, 0x00000001)])
      (stepWord 0x0020B1B3 (start 0x1000 [(1, 0x00000001), (2, 0xFFFFFFFF)])) = true := by
  decide

theorem test_sltu_A17 :
    nextIs (leaves 0x00001004 [(3, 0x00000000)])
      (stepWord 0x0020B1B3 (start 0x1000 [(1, 0xFFFFFFFF), (2, 0x00000001)])) = true := by
  decide

theorem test_xor_A20 :
    nextIs (leaves 0x00001004 [(3, 0xF0F0F0F0)])
      (stepWord 0x0020C1B3 (start 0x1000 [(1, 0xFF00FF00), (2, 0x0FF00FF0)])) = true := by
  decide

theorem test_or_A21 :
    nextIs (leaves 0x00001004 [(3, 0xFFF0FFF0)])
      (stepWord 0x0020E1B3 (start 0x1000 [(1, 0xFF00FF00), (2, 0x0FF00FF0)])) = true := by
  decide

theorem test_and_A22 :
    nextIs (leaves 0x00001004 [(3, 0x0F000F00)])
      (stepWord 0x0020F1B3 (start 0x1000 [(1, 0xFF00FF00), (2, 0x0FF00FF0)])) = true := by
  decide

theorem test_srl_A24 :
    nextIs (leaves 0x00001004 [(3, 0x08000000)])
      (stepWord 0x0020D1B3 (start 0x1000 [(1, 0x80000000), (2, 0x00000024)])) = true := by
  decide

theorem test_srl_A25 :
    nextIs (leaves 0x00001004 [(3, 0x00000001)])
      (stepWord 0x0020D1B3 (start 0x1000 [(1, 0x80000000), (2, 0x0000001F)])) = true := by
  decide

theorem test_sra_A26 :
    nextIs (leaves 0x00001004 [(3, 0xF8000000)])
      (stepWord 0x4020D1B3 (start 0x1000 [(1, 0x80000000), (2, 0x00000004)])) = true := by
  decide

theorem test_sra_A29 :
    nextIs (leaves 0x00001004 [(3, 0xF0000000)])
      (stepWord 0x4020D1B3 (start 0x1000 [(1, 0xF0000000), (2, 0x00000020)])) = true := by
  decide

theorem test_addi_I1 :
    nextIs (leaves 0x00001004 [(1, 0xFFFFFFFF)])
      (stepWord 0xFFF00093 (start 0x1000 [])) = true := by
  decide

theorem test_addi_I5 :
    nextIs (leaves 0x00001004 [(3, 0x7FFFF800)])
      (stepWord 0x80008193 (start 0x1000 [(1, 0x80000000)])) = true := by
  decide

theorem test_slti_I7 :
    nextIs (leaves 0x00001004 [(3, 0x00000001)])
      (stepWord 0xFFF0A193 (start 0x1000 [(1, 0xFFFFFFFE)])) = true := by
  decide

theorem test_slti_I9 :
    nextIs (leaves 0x00001004 [(3, 0x00000000)])
      (stepWord 0x0050A193 (start 0x1000 [(1, 0x00000005)])) = true := by
  decide

theorem test_sltiu_I10 :
    nextIs (leaves 0x00001004 [(3, 0x00000001)])
      (stepWord 0xFFF0B193 (start 0x1000 [(1, 0x00001000)])) = true := by
  decide

theorem test_sltiu_I13 :
    nextIs (leaves 0x00001004 [(3, 0x00000000)])
      (stepWord 0x0010B193 (start 0x1000 [(1, 0x00000009), (3, 0x00000077)])) = true := by
  decide

theorem test_xori_I15 :
    nextIs (leaves 0x00001004 [(3, 0xEDCBA987)])
      (stepWord 0xFFF0C193 (start 0x1000 [(1, 0x12345678)])) = true := by
  decide

theorem test_ori_I18 :
    nextIs (leaves 0x00001004 [(3, 0xFFFFF801)])
      (stepWord 0x8000E193 (start 0x1000 [(1, 0x00000001)])) = true := by
  decide

theorem test_andi_I20 :
    nextIs (leaves 0x00001004 [(3, 0x12345670)])
      (stepWord 0xFF00F193 (start 0x1000 [(1, 0x12345678)])) = true := by
  decide

theorem test_slli_I21 :
    nextIs (leaves 0x00001004 [(3, 0x23456780)])
      (stepWord 0x00409193 (start 0x1000 [(1, 0x12345678)])) = true := by
  decide

theorem test_slli_I22 :
    nextIs (leaves 0x00001004 [(3, 0x80000000)])
      (stepWord 0x01F09193 (start 0x1000 [(1, 0x00000003)])) = true := by
  decide

theorem test_srli_I24 :
    nextIs (leaves 0x00001004 [(3, 0x08000000)])
      (stepWord 0x0040D193 (start 0x1000 [(1, 0x80000000)])) = true := by
  decide

theorem test_srli_I25 :
    nextIs (leaves 0x00001004 [(3, 0x00000001)])
      (stepWord 0x01F0D193 (start 0x1000 [(1, 0x80000000)])) = true := by
  decide

theorem test_srai_I26 :
    nextIs (leaves 0x00001004 [(3, 0xF8000000)])
      (stepWord 0x4040D193 (start 0x1000 [(1, 0x80000000)])) = true := by
  decide

theorem test_srai_I27 :
    nextIs (leaves 0x00001004 [(3, 0xFFFFFFFF)])
      (stepWord 0x41F0D193 (start 0x1000 [(1, 0x80000000)])) = true := by
  decide

theorem test_lb_L1 :
    nextIs (leaves 0x00001004 [(3, 0xFFFFFF80)])
      (stepWord 0x00008183 (withBytes 0x100 [0x80, 0xFF, 0x34, 0x12, 0x78, 0x56, 0xF0, 0x7F] (start 0x1000 [(1, 0x00000100)]))) = true := by
  decide

theorem test_lb_L4 :
    nextIs (leaves 0x00001004 [(3, 0xFFFFFFFF)])
      (stepWord 0x00108183 (withBytes 0x100 [0x80, 0xFF, 0x34, 0x12, 0x78, 0x56, 0xF0, 0x7F] (start 0x1000 [(1, 0x00000100)]))) = true := by
  decide

theorem test_lbu_L2 :
    nextIs (leaves 0x00001004 [(3, 0x00000080)])
      (stepWord 0x0000C183 (withBytes 0x100 [0x80, 0xFF, 0x34, 0x12, 0x78, 0x56, 0xF0, 0x7F] (start 0x1000 [(1, 0x00000100)]))) = true := by
  decide

theorem test_lh_L8 :
    nextIs (leaves 0x00001004 [(3, 0xFFFFFF80)])
      (stepWord 0xFFE09183 (withBytes 0x100 [0x80, 0xFF, 0x34, 0x12, 0x78, 0x56, 0xF0, 0x7F] (start 0x1000 [(1, 0x00000102)]))) = true := by
  decide

theorem test_lh_L9 :
    nextIs (leaves 0x00001004 [(3, 0x00007812)])
      (stepWord 0x00309183 (withBytes 0x100 [0x80, 0xFF, 0x34, 0x12, 0x78, 0x56, 0xF0, 0x7F] (start 0x1000 [(1, 0x00000100)]))) = true := by
  decide

theorem test_lhu_L6 :
    nextIs (leaves 0x00001004 [(3, 0x0000FF80)])
      (stepWord 0x0000D183 (withBytes 0x100 [0x80, 0xFF, 0x34, 0x12, 0x78, 0x56, 0xF0, 0x7F] (start 0x1000 [(1, 0x00000100)]))) = true := by
  decide

theorem test_lhu_L10 :
    nextIs (leaves 0x00001004 [(3, 0x00007FF0)])
      (stepWord 0x0060D183 (withBytes 0x100 [0x80, 0xFF, 0x34, 0x12, 0x78, 0x56, 0xF0, 0x7F] (start 0x1000 [(1, 0x00000100)]))) = true := by
  decide

theorem test_lw_L14 :
    nextIs (leaves 0x00001004 [(3, 0x781234FF)])
      (stepWord 0x0010A183 (withBytes 0x100 [0x80, 0xFF, 0x34, 0x12, 0x78, 0x56, 0xF0, 0x7F] (start 0x1000 [(1, 0x00000100)]))) = true := by
  decide

theorem test_lw_L17 :
    nextIs (leaves 0x00001004 [(0, 0x00000000)])
      (stepWord 0x0000A003 (withBytes 0x100 [0x80, 0xFF, 0x34, 0x12, 0x78, 0x56, 0xF0, 0x7F] (start 0x1000 [(1, 0x00000100)]))) = true := by
  decide

theorem test_sb_W2 :
    nextIs (fun t => leaves 0x00001004 [(1, 0x00000200), (2, 0xFFFFFF80)] t && t.ramBytes 0x200 8 == [0xEE, 0xEE, 0xEE, 0x80, 0xEE, 0xEE, 0xEE, 0xEE])
      (stepWord 0x002081A3 (withBytes 0x200 (List.replicate 8 0xEE) (start 0x1000 [(1, 0x00000200), (2, 0xFFFFFF80)]))) = true := by
  decide

theorem test_sb_W12 :
    nextIs (fun t => leaves 0x00001004 [(1, 0x10001000), (2, 0x00000141)] t && t.events == [.devWrite 0x10001000 0x41] &&
        (TextConsole.cellAt t.console 0 0).char == 0x41)
      (stepWord 0x00208023 (withBytes 0x200 (List.replicate 8 0xEE) (start 0x1000 [(1, 0x10001000), (2, 0x00000141)]))) = true := by
  decide

theorem test_sh_W4 :
    nextIs (fun t => leaves 0x00001004 [(1, 0x00000200), (2, 0x0000ABCD)] t && t.ramBytes 0x200 8 == [0xEE, 0xCD, 0xAB, 0xEE, 0xEE, 0xEE, 0xEE, 0xEE])
      (stepWord 0x002090A3 (withBytes 0x200 (List.replicate 8 0xEE) (start 0x1000 [(1, 0x00000200), (2, 0x0000ABCD)]))) = true := by
  decide

theorem test_sh_W13 :
    nextIs (fun t => leaves 0x00001004 [(1, 0x10001000), (2, 0x00000741)] t && t.events == [.devWrite 0x10001000 0x41, .devWrite 0x10001001 0x07] &&
        TextConsole.cellAt t.console 0 0 == { char := 0x41, attr := 0x07 })
      (stepWord 0x00209023 (withBytes 0x200 (List.replicate 8 0xEE) (start 0x1000 [(1, 0x10001000), (2, 0x00000741)]))) = true := by
  decide

theorem test_sw_W6 :
    nextIs (fun t => leaves 0x00001004 [(1, 0x00000208), (2, 0xDEADBEEF)] t && t.ramBytes 0x200 8 == [0xEE, 0xEE, 0xEE, 0xEE, 0xEF, 0xBE, 0xAD, 0xDE])
      (stepWord 0xFE20AE23 (withBytes 0x200 (List.replicate 8 0xEE) (start 0x1000 [(1, 0x00000208), (2, 0xDEADBEEF)]))) = true := by
  decide

theorem test_sw_W10 :
    nextIs (fun t => leaves 0x00001004 [(1, 0xFFFFFA01), (2, 0x11223344)] t && t.ramBytes 0x200 8 == [0x44, 0x33, 0x22, 0x11, 0xEE, 0xEE, 0xEE, 0xEE])
      (stepWord 0x7E20AFA3 (withBytes 0x200 (List.replicate 8 0xEE) (start 0x1000 [(1, 0xFFFFFA01), (2, 0x11223344)]))) = true := by
  decide

theorem test_beq_B2 :
    nextIs (leaves 0x00001004 [(1, 0x00000001), (2, 0xFFFFFFFF)])
      (stepWord 0x00208863 (start 0x1000 [(1, 0x00000001), (2, 0xFFFFFFFF)])) = true := by
  decide

theorem test_beq_B3 :
    nextIs (leaves 0x00001010 [(1, 0x00000005), (2, 0x00000005)])
      (stepWord 0x00208863 (start 0x1000 [(1, 0x00000005), (2, 0x00000005)])) = true := by
  decide

theorem test_bne_B4 :
    nextIs (leaves 0x00001010 [(1, 0xFFFFFFFF), (2, 0x00000001)])
      (stepWord 0x00209863 (start 0x1000 [(1, 0xFFFFFFFF), (2, 0x00000001)])) = true := by
  decide

theorem test_bne_B6 :
    nextIs (leaves 0x00001004 [(1, 0x00000005), (2, 0x00000005)])
      (stepWord 0x00209863 (start 0x1000 [(1, 0x00000005), (2, 0x00000005)])) = true := by
  decide

theorem test_blt_B7 :
    nextIs (leaves 0x00001010 [(1, 0xFFFFFFFF), (2, 0x00000001)])
      (stepWord 0x0020C863 (start 0x1000 [(1, 0xFFFFFFFF), (2, 0x00000001)])) = true := by
  decide

theorem test_blt_B23 :
    nextIs (leaves 0x00001010 [(1, 0x80000000), (2, 0x7FFFFFFF)])
      (stepWord 0x0020C863 (start 0x1000 [(1, 0x80000000), (2, 0x7FFFFFFF)])) = true := by
  decide

theorem test_bge_B10 :
    nextIs (leaves 0x00001004 [(1, 0xFFFFFFFF), (2, 0x00000001)])
      (stepWord 0x0020D863 (start 0x1000 [(1, 0xFFFFFFFF), (2, 0x00000001)])) = true := by
  decide

theorem test_bge_B12 :
    nextIs (leaves 0x00001010 [(1, 0x00000005), (2, 0x00000005)])
      (stepWord 0x0020D863 (start 0x1000 [(1, 0x00000005), (2, 0x00000005)])) = true := by
  decide

theorem test_bltu_B14 :
    nextIs (leaves 0x00001010 [(1, 0x00000001), (2, 0xFFFFFFFF)])
      (stepWord 0x0020E863 (start 0x1000 [(1, 0x00000001), (2, 0xFFFFFFFF)])) = true := by
  decide

theorem test_bltu_B24 :
    nextIs (leaves 0x00001004 [(1, 0x80000000), (2, 0x7FFFFFFF)])
      (stepWord 0x0020E863 (start 0x1000 [(1, 0x80000000), (2, 0x7FFFFFFF)])) = true := by
  decide

theorem test_bgeu_B16 :
    nextIs (leaves 0x00001010 [(1, 0xFFFFFFFF), (2, 0x00000001)])
      (stepWord 0x0020F863 (start 0x1000 [(1, 0xFFFFFFFF), (2, 0x00000001)])) = true := by
  decide

theorem test_bgeu_B22 :
    nextIs (leaves 0x00000FF8 [(1, 0x00000000), (2, 0x00000000)])
      (stepWord 0xFE20FCE3 (start 0x1000 [(1, 0x00000000), (2, 0x00000000)])) = true := by
  decide

theorem test_lui_P1 :
    nextIs (leaves 0x00001004 [(5, 0x12345000)])
      (stepWord 0x123452B7 (start 0x1000 [(5, 0xFFFFFFFF)])) = true := by
  decide

theorem test_lui_P4 :
    nextIs (leaves 0x00001004 [(0, 0x00000000)])
      (stepWord 0x12345037 (start 0x1000 [])) = true := by
  decide

theorem test_auipc_P6 :
    nextIs (leaves 0x00001238 [(5, 0x00001234)])
      (stepWord 0x00000297 (start 0x00001234 [])) = true := by
  decide

theorem test_auipc_P8 :
    nextIs (leaves 0x00008004 [(5, 0x80008000)])
      (stepWord 0x80000297 (start 0x00008000 [])) = true := by
  decide

theorem test_jal_J2 :
    nextIs (leaves 0x00000FF8 [(0, 0x00000000)])
      (stepWord 0xFF9FF06F (start 0x1000 [])) = true := by
  decide

theorem test_jal_J5 :
    nextIs (leaves 0xFFF08000 [(1, 0x00008004)])
      (stepWord 0x800000EF (start 0x00008000 [])) = true := by
  decide

theorem test_jalr_J10 :
    nextIs (leaves 0x00002000 [(1, 0x00001004)])
      (stepWord 0x000080E7 (start 0x1000 [(1, 0x00002000)])) = true := by
  decide

theorem test_jalr_J12 :
    nextIs (leaves 0x000000FE [(2, 0x00001004)])
      (stepWord 0xFFF08167 (start 0x1000 [(1, 0x00000100)])) = true := by
  decide

theorem test_ecall_E1 :
    nextIs (fun t => t.pc == 0x00001000 && t.halted && t.runState == .halted && t.haltCause == .exit && t.exitCode == 0x0000002A && t.getReg 10 == 0x0000002A)
      (stepWord 0x00000073 (start 0x1000 [(10, 0x0000002A), (17, 0x00000000)])) = true := by
  decide

theorem test_ecall_E6 :
    nextIs (fun t => leaves 0x00001004 [(10, 0x00000000)] t && t.consoleOutput == [0x41])
      (stepWord 0x00000073 (start 0x1000 [(10, 0x00000141), (17, 0x00000001)])) = true := by
  decide

theorem test_ebreak_E8 :
    nextIs (fun t => t.pc == 0x00001000 && t.halted && t.runState == .halted && t.haltCause == .breakpoint && t.exitCode == 0 && t.getReg 10 == 0x0000002A)
      (stepWord 0x00100073 (start 0x1000 [(10, 0x0000002A), (17, 0x00000000)])) = true := by
  decide

theorem test_fence_E11 :
    nextIs (leaves 0x00001004 [(1, 0x00000001)])
      (stepWord 0x8330000F (start 0x1000 [(1, 0x00000001)])) = true := by
  decide

/-- L21: two reads of the keyboard window, in ascending order, whose answers are set beforehand. -/
theorem test_lhu_L21 :
    nextIs (fun t => leaves 0x1004 [(3, 0x0201)] t && t.events == [.devRead 0x30000000 0x01, .devRead 0x30000001 0x02])
      (stepWord 0x0000D183 ((start 0x1000 [(1, 0x30000000)]).setInputs { EnvInputs.none with devReads := [1, 2] })) = true := by
  decide

/-- X4: the engine halts at an illegal word. -/
theorem test_illegal_word_X4 :
    nextIs (fun t => t.pc == 0x1000 && t.halted && t.haltCause == .decodeError && t.exitCode == 0xFFFFFFFF && t.getReg 1 == 1)
      (stepWord 0x02208033 (start 0x1000 [(1, 1), (2, 2)])) = true := by
  decide

/-- M4, M11: the two stops of the bus and the fetch. -/
theorem test_lw_M4 : faultIs .ramOutOfRange (stepWord 0x0000A183 (start 0x1000 [(1, 0xFFFD)])) = true := by decide

theorem test_fetch_M11 : faultIs .misalignedFetch (step (start 0x1002 [])) = true := by decide

/-- M6: a store across the start of the graphics window; every byte goes its own way. -/
theorem test_sw_M6 :
    nextIs (fun t => t.ramBytes 0x0FFFFFFE 2 == [0x11, 0x22] &&
        t.events == [.devWrite 0x10000000 0x33, .devWrite 0x10000001 0x44])
      (stepWord 0x0020A023 ((((State.construct 0x10000000 0x100000 0x20000 0x1000 0).setPc 0x1000).setReg 1 0x0FFFFFFE).setReg 2
        0x44332211)) = true := by
  decide

/-! ## Reset and the fetch word -/

theorem test_reset_memory_canonical : Memory.wf State.reset.ram := by decide

theorem test_fetch_word_from_reset : nextIs (leaves 0x64 [(1, 4)]) (step (State.reset.withFetchWord 32 0x064000EF)) = true := by
  decide

/-! ## One step of each syscall that the vectors above leave out (95_test_vectors.md, part 5) -/

theorem test_getline_T6 :
    nextIs (fun t => t.pc == 0x1000 && !t.halted && t.getReg 10 == 0x300 && t.ram == [(0x1000, 0x73#8)] &&
        t.pending == some { buffer := 0x300, maxlen := 16, chars := [] })
      (stepWord 0x73 ((start 0x1000 [(17, 6), (10, 0x300), (11, 16)]).setInputs
        { EnvInputs.none with lines := [{ erased := 0, typed := [], echo := [], enter := false }] })) = true := by
  decide

/-- A getline that is pending at an ECALL, as T6 leaves it, with the keys that come next. -/
def pendingGetline (inputs : List LineInput) : State :=
  ((start 0x1000 [(17, 6), (10, 0x300), (11, 16)]).setInputs { EnvInputs.none with lines := inputs }).setRunState
    (.suspended { buffer := 0x300, maxlen := 16, chars := [] })

theorem test_getline_T7 :
    nextIs (fun t => leaves 0x1004 [(10, 2)] t && t.ramBytes 0x300 3 == [0x68, 0x69, 0x00] &&
        t.consoleOutput == [0x68, 0x69])
      (step (pendingGetline [{ erased := 0, typed := [0x68, 0x69], echo := [0x68, 0x69], enter := true }])) = true := by
  decide

theorem test_getchar_T8 :
    nextIs (leaves 0x1004 [(10, 0xFFFFFFFF)])
      (stepWord 0x73 ((start 0x1000 [(17, 2)]).setInputs { EnvInputs.none with keys := [none] })) = true := by
  decide

theorem test_read_sector_T10 :
    nextIs (fun t => leaves 0x1004 [(10, 0xFFFFFFFF)] t && t.ram == [(0x1000, 0x73#8)])
      (stepWord 0x73 ((start 0x1000 [(17, 4), (10, 3), (11, 0x400)]).setInputs
        { EnvInputs.none with sectorReads := [none] })) = true := by
  decide

theorem test_fopen_T11 :
    nextIs (fun t => leaves 0x1004 [(10, 3)] t &&
        t.events == [.fopen [0x61, 0x2E, 0x74, 0x78, 0x74] 0 (some 3)])
      (stepWord 0x73 ((withBytes 0x500 [0x61, 0x2E, 0x74, 0x78, 0x74] (start 0x1000 [(17, 7), (10, 0x500)])).setInputs
        { EnvInputs.none with fopens := [some 3] })) = true := by
  decide

theorem test_fread_T12 :
    nextIs (fun t => leaves 0x1004 [(10, 5)] t && t.ramBytes 0x600 6 == [0x48, 0x65, 0x6C, 0x6C, 0x6F, 0x00])
      (stepWord 0x73 ((start 0x1000 [(17, 8), (10, 3), (11, 0x600), (12, 100)]).setInputs
        { EnvInputs.none with freads := [some [0x48, 0x65, 0x6C, 0x6C, 0x6F]] })) = true := by
  decide

/-- P7: puts of the string of the program. -/
theorem test_puts_P7 :
    nextIs (fun t => leaves 0x1004 [(10, 4)] t && t.consoleOutput == [0x48, 0x69, 0x21, 0x0A] &&
        t.console.col == 0 && t.console.row == 1)
      (stepWord 0x73 (withBytes 0x20 [0x48, 0x69, 0x21, 0x0A] (start 0x1000 [(17, 3), (10, 0x20)]))) = true := by
  decide

/-- The last byte of the text VRAM is the attribute of column 79, row 24: `0x10001000 + 2*(80*24 + 79) + 1` (20_memory.md
R62); a read there leaves the console alone. -/
theorem test_vram_last_cell :
    let c := State.reset.console
    TextConsole.cellAt (TextConsole.access [] c 0x10001F9F (some 0x07)) 79 24 = { char := 0x00, attr := 0x07 } ∧
    TextConsole.access [] c 0x10001F9F none = c ∧ vramOffset 0x10001FA0 = none ∧ vramOffset 0x10000FFF = none := by
  decide

/-- S10: the byte at column 79 wraps to column 0 of the next row; LF at row 24 stays on row 24. -/
theorem test_console_S10 :
    (TextConsole.put [] { State.reset.console with col := 79 } 0x2E).col = 0 ∧
    (TextConsole.put [] { State.reset.console with col := 79 } 0x2E).row = 1 ∧
    (TextConsole.put [] { State.reset.console with row := 24 } 0x0A).row = 24 := by
  decide

/-! ## Witnesses
For each statement with hypotheses, states and operands that meet all of them together, at the ends of their ranges. -/

/-- Low addresses are in RAM in every state made from reset. -/
theorem ramRange_low {s : State} {a : Word} {n : Nat} (hw : s.windows = State.reset.windows)
    (hs : s.ramSize = State.reset.ramSize) (h : a.toNat + n ≤ 0x10000) : s.RamRange a n := by
  intro i hi
  have hb : (byteAddress a i).toNat = a.toNat + i := by
    rw [byteAddress_toNat]
    omega
  refine ⟨?_, by rw [hb, hs]; show a.toNat + i < 0x10000; omega⟩
  rw [hw]
  exact route_below (by omega)

theorem witness_ConstructionMeetsInvariant :
    (∃ memSize g st k, memSize = 1 ∧ g = 0x10001 ∧ st = 0x10001 ∧ k = 1 ∧ 0 < memSize ∧ memSize ≤ 2 ^ 32 ∧
      LegalWindows (platformWindows g st k)) ∧
    ∃ memSize g st k, memSize = 2 ^ 32 ∧ g = 0x10000000 ∧ st = 0x10000000 ∧ k = 0xD0000000 ∧ 0 < memSize ∧
      memSize ≤ 2 ^ 32 ∧ LegalWindows (platformWindows g st k) := by
  refine ⟨⟨1, 0x10001, 0x10001, 1, rfl, rfl, rfl, rfl, by decide, by decide, 0x10001, 0x10001, 1, rfl, ?_⟩,
    ⟨2 ^ 32, 0x10000000, 0x10000000, 0xD0000000, rfl, rfl, rfl, rfl, by decide, by decide, 0x10000000, 0x10000000, 0xD0000000,
      rfl, ?_⟩⟩ <;> decide

theorem legalWindows_reset : LegalWindows State.reset.windows :=
  ⟨0x100000, 0x20000, 0x1000, rfl, by decide, by decide, by decide, by decide, by decide, by decide⟩

theorem witness_RouteFindsTheWindowOfAnAddress :
    LegalWindows (platformWindows 0x10001 0x10000000 0xD0000000) ∧
    [{ base := 0x30000000, len := 0xD0000000, device := Device.keyboard },
      { base := 0x10000000, len := 0x10001, device := Device.graphics },
      { base := 0x20000000, len := 0x10000000, device := Device.storage }].Perm
      (platformWindows 0x10001 0x10000000 0xD0000000) := by
  refine ⟨⟨0x10001, 0x10000000, 0xD0000000, rfl, by decide, by decide, by decide, by decide, by decide, by decide⟩, ?_⟩
  decide

/-- The invariant of a state made from reset by host writes of registers and pc and a placed word. -/
theorem inv_running (s : State) (h1 : Memory.wf s.ram) (h2 : ∀ c ∈ s.ram, c.1 < s.ramSize)
    (h3 : s.ramSize = State.reset.ramSize) (h4 : s.windows = State.reset.windows) (h5 : s.regs[0] = 0#32)
    (h6 : s.pc.getLsbD 0 = false) (h7 : s.halted = false) (h8 : s.runState = .running) (h9 : s.haltCause = .none)
    (h10 : s.exitCode = 0#32) : s.Inv where
  ramCanonical := h1
  ramInside := h2
  ramSize := by rw [h3]; decide
  windows := h4 ▸ legalWindows_reset
  x0 := h5
  pcEven := h6
  haltedFlag := by simp [h7, h8]
  haltCause := by simp [h7, h9]
  exitCode := fun _ => h10
  pendingLine := fun p hp => by simp [State.pending, h8] at hp

theorem witness_StepKeepsInvariant :
    ∃ s t, State.Inv s ∧ step s = .next t ∧ t.runState = .halted := by
  refine ⟨State.reset.withFetchWord 32 0x00100073, halt .breakpoint 0 (State.reset.withFetchWord 32 0x00100073), ?_, ?_, rfl⟩
  · apply inv_running <;> decide
  · rfl

theorem witness_DecodeOfEncodeGivesInstruction :
    (Instr.jal 31 0x0FFFFE).wellFormed = true ∧ (Instr.bgeu 31 31 0x1000).wellFormed = true ∧
    (Instr.sw 31 31 0xFFF).wellFormed = true ∧ Instr.fence.wellFormed = true := by
  decide

theorem witness_EncodeOfDecodeGivesWord :
    decode 0xFFFFF0EF = .ok (.jal 1 0x1FFFFE) ∧ Instr.jal 1 0x1FFFFE ≠ .ecall ∧ Instr.jal 1 0x1FFFFE ≠ .ebreak ∧
    Instr.jal 1 0x1FFFFE ≠ .fence := by
  decide

theorem witness_DecodeAgreesWithOpcodeTable :
    ∃ w row, row ∈ opcodeTable ∧ w &&& row.mask = row.bits ∧ ∃ i, decode w = .ok i ∧ i.mnemonic = row.mnemonic :=
  ⟨0x4020D1B3, ⟨"SRA", 0x40005033, 0xFE00707F⟩, by decide, by decide, .sra 3 1 2, by decide, rfl⟩

theorem witness_DecodeRejectsExactlyUnmatchedWords :
    (∃ r, decode 0x02208033 = .error r) ∧
    ∃ row ∈ opcodeTable, (0x00000073#32) &&& row.mask = row.bits :=
  ⟨⟨.unknownFunct7, by decide⟩, ⟨"ECALL", 0x00000073, 0xFFF0707F⟩, by decide, by decide⟩

/-- Every `DecodesAs` of the statements has a word with those fixed bits and every other bit set. -/
theorem witness_DecodesAs : opcodeTable.all (fun row => (row.bits ||| ~~~row.mask) &&& row.mask == row.bits) = true := by
  decide

theorem witness_StepRunsDecodedInstruction :
    ∃ s i, s.runState = .running ∧ s.pc.toNat % 4 = 0 ∧ s.pc.toNat + 4 = s.ramSize ∧ s.RamRange s.pc 4 ∧
      decodeBytes (s.ramBytes s.pc 4) = .ok (i, []) ∧ Fetches s i s := by
  refine ⟨(start 0xFFFC []).withFetchWord 32 0x002081B3, .add 3 1 2, rfl, by decide, by decide,
    ramRange_low rfl rfl (by decide), by decide, rfl, 0x002081B3, by rfl, by decide⟩

/-- Bytes of the text VRAM, up to its last. -/
theorem graphicsOnlyInVram_text {s : State} {a : Word} {n : Nat} (low : 0x10001000 ≤ a.toNat)
    (high : a.toNat + n ≤ 0x10001FA0) : s.GraphicsOnlyInVram a n := by
  intro k hk _
  have hb : (byteAddress a k).toNat = a.toNat + k := by
    rw [byteAddress_toNat]
    omega
  exact exists_vramAddress (by omega) (by omega)

theorem accessible_window {s : State} {a : Word} {n : Nat} (hw : s.windows = State.reset.windows)
    (h : ∀ i, i < n → route State.reset.windows (byteAddress a i) ≠ none) : s.AccessibleRange a n :=
  fun i hi => .inl (hw ▸ h i hi)

/-- The last word of RAM, the last of the text VRAM, the last of the keyboard window. -/
theorem witness_FetchReadsLittleEndianWordAtPc :
    (∃ s : State, s.pc.toNat % 4 = 0 ∧ s.RamRange s.pc 4 ∧ s.ramByte (byteAddress s.pc 3).toNat ≠ 0) ∧
    (∃ s : State, s.pc.toNat % 4 = 0 ∧ s.AccessibleRange s.pc 4 ∧ s.GraphicsOnlyInVram s.pc 4 ∧
      route s.windows (byteAddress s.pc 3) = some .graphics) ∧
    ∃ s : State, s.pc.toNat % 4 = 0 ∧ s.AccessibleRange s.pc 4 ∧ route s.windows (byteAddress s.pc 3) = some .keyboard :=
  ⟨⟨withBytes 0xFFFC [1, 2, 3, 4] (start 0xFFFC []), by decide, ramRange_low rfl rfl (by decide), by decide⟩,
    ⟨start 0x10001F9C [], by decide, accessible_window rfl (by decide),
      graphicsOnlyInVram_text (by decide) (by decide), by decide⟩,
    ⟨start 0x30000FFC [], by decide, accessible_window rfl (by decide), by decide⟩⟩

theorem witness_FetchStopsByName :
    ((start 0x1002 []).runState = .running ∧ (start 0x1002 []).pc.toNat % 4 ≠ 0) ∧
    (start 0x10000 []).runState = .running ∧ (start 0x10000 []).pc.toNat % 4 = 0 ∧
      ¬ (start 0x10000 []).AccessibleRange (start 0x10000 []).pc 4 := by
  refine ⟨by decide, by decide, by decide, fun h => ?_⟩
  have := h 0 (by decide)
  simp only [State.Accessible] at this
  revert this
  decide

theorem witness_IllegalWordHaltsEngine :
    ∃ s w t r, s.runState = .running ∧ fetch s = .ok (w, t) ∧ decode w = .error r :=
  ⟨State.reset, 0, State.reset, .unknownOpcode, rfl, by rfl, by decide⟩

theorem witness_StepInHaltedChangesNothing : ∃ s : State, s.runState = .halted ∧ s.exitCode = 42 :=
  ⟨halt .exit 42 (start 0x1000 []), rfl, rfl⟩

theorem witness_RunStopsAtBudgetOrHalt :
    (∃ n s t, run n s = .next t ∧ n = 5 ∧ t.runState = .halted) ∧
    ∃ m s t, run m s = .next t ∧ m = 1 ∧ t.runState = .running :=
  ⟨⟨5, State.reset, raiseDecodeError State.reset, by rfl, rfl, rfl⟩,
    ⟨1, (start 0 []).withFetchWord 32 0x0FF0000F, ((start 0 []).withFetchWord 32 0x0FF0000F).setPc 4, by rfl, rfl, rfl⟩⟩

theorem witness_LoadsFromRam :
    (start 0 [(1, 0xFFFF)]).RamRange (BitVec.ofInt 32 (((start 0 [(1, 0xFFFF)]).getReg 1).toInt + (0x000#12).toInt)) 1 ∧
    (start 0 [(1, 0)]).RamRange (BitVec.ofInt 32 (((start 0 [(1, 0)]).getReg 1).toInt + (0x7FF#12).toInt)) 2 ∧
    (start 0 [(1, 0x107FC)]).RamRange (BitVec.ofInt 32 (((start 0 [(1, 0x107FC)]).getReg 1).toInt + (0x800#12).toInt)) 4 :=
  ⟨ramRange_low rfl rfl (by decide), ramRange_low rfl rfl (by decide), ramRange_low rfl rfl (by decide)⟩

/-- A machine whose RAM is the whole address space but the windows: an access there may wrap (20_memory.md R59). -/
def wholeSpace : State := State.construct (2 ^ 32) 0x10001 0x10001 1 0

theorem not_accessibleRange {s : State} {a : Word} {n : Nat} (i : Nat) (hi : i < n) (h : ¬ s.Accessible (byteAddress a i)) :
    ¬ s.AccessibleRange a n :=
  fun hr => h (hr i hi)

/-- The last four bytes of the keyboard window, the last two of RAM, a byte in the graphics window, the last two of the text
VRAM. -/
theorem witness_LoadsReadEachDeviceByteOnce :
    (start 0 [(1, 0x30000FFC)]).AccessibleRange (effectiveAddress (start 0 [(1, 0x30000FFC)]) 1 0) 4 ∧
    (start 0 [(1, 0xFFFE)]).AccessibleRange (effectiveAddress (start 0 [(1, 0xFFFE)]) 1 0) 2 ∧
    (start 0 [(1, 0x10000000)]).AccessibleRange (effectiveAddress (start 0 [(1, 0x10000000)]) 1 0) 1 ∧
    (start 0 [(1, 0x10001F9E)]).AccessibleRange (effectiveAddress (start 0 [(1, 0x10001F9E)]) 1 0) 2 ∧
      (start 0 [(1, 0x10001F9E)]).GraphicsOnlyInVram (effectiveAddress (start 0 [(1, 0x10001F9E)]) 1 0) 2 :=
  ⟨accessible_window rfl (by decide), accessibleRange_of_ramRange (ramRange_low rfl rfl (by decide)),
    accessible_window rfl (by decide), accessible_window rfl (by decide),
    graphicsOnlyInVram_text (by decide) (by decide)⟩

/-- A window's first byte; a halfword and a word that end in the last byte of a window; a word with two bytes in RAM
and two in a window. -/
theorem witness_LoadsTakeAnswersOfDevices :
    (start 0 [(1, 0x30000000)]).AccessibleRange (effectiveAddress (start 0 [(1, 0x30000000)]) 1 0) 1 ∧
    (start 0 [(1, 0x100FFFFE)]).AccessibleRange (effectiveAddress (start 0 [(1, 0x100FFFFE)]) 1 0) 2 ∧
    (start 0 [(1, 0x2001FFFC)]).AccessibleRange (effectiveAddress (start 0 [(1, 0x2001FFFC)]) 1 0) 4 ∧
    ∃ s : State, s.getReg 1 = 0xFFFFFFE ∧ s.AccessibleRange (effectiveAddress s 1 0) 4 ∧
      route s.windows (byteAddress (effectiveAddress s 1 0) 1) = none ∧
      route s.windows (byteAddress (effectiveAddress s 1 0) 2) = some .graphics := by
  refine ⟨accessible_window rfl (by decide), accessible_window rfl (by decide), accessible_window rfl (by decide),
    wholeSpace.setReg 1 0xFFFFFFE, by decide, fun i hi => .inr (BitVec.isLt _), by decide, by decide⟩

theorem witness_StoresRouteEachByte :
    (Memory.wf (start 0 [(1, 0xFFFC)]).ram ∧
      (start 0 [(1, 0xFFFC)]).AccessibleRange (effectiveAddress (start 0 [(1, 0xFFFC)]) 1 0) 4) ∧
    (Memory.wf (start 0 [(1, 0x100FFFFE)]).ram ∧
      (start 0 [(1, 0x100FFFFE)]).AccessibleRange (effectiveAddress (start 0 [(1, 0x100FFFFE)]) 1 0) 2 ∧
      route (start 0 [(1, 0x100FFFFE)]).windows (byteAddress (effectiveAddress (start 0 [(1, 0x100FFFFE)]) 1 0) 1)
        = some .graphics) ∧
    (Memory.wf (start 0 [(1, 0x2001FFFF)]).ram ∧
      (start 0 [(1, 0x2001FFFF)]).AccessibleRange (effectiveAddress (start 0 [(1, 0x2001FFFF)]) 1 0) 1 ∧
      route (start 0 [(1, 0x2001FFFF)]).windows (byteAddress (effectiveAddress (start 0 [(1, 0x2001FFFF)]) 1 0) 0)
        ≠ some .graphics) ∧
    Memory.wf (start 0 [(1, 0x10001F9C)]).ram ∧
      (start 0 [(1, 0x10001F9C)]).AccessibleRange (effectiveAddress (start 0 [(1, 0x10001F9C)]) 1 0) 4 ∧
      (start 0 [(1, 0x10001F9C)]).GraphicsOnlyInVram (effectiveAddress (start 0 [(1, 0x10001F9C)]) 1 0) 4 ∧
      (byteAddress (effectiveAddress (start 0 [(1, 0x10001F9C)]) 1 0) 3).toNat = vramAddress 79 24 1 :=
  ⟨⟨by decide, accessibleRange_of_ramRange (ramRange_low rfl rfl (by decide))⟩,
    ⟨by decide, accessible_window rfl (by decide), by decide⟩, ⟨by decide, accessible_window rfl (by decide), by decide⟩,
    by decide, accessible_window rfl (by decide), graphicsOnlyInVram_text (by decide) (by decide), by decide⟩

/-- The last offset below the RAM size is in reach; one more byte is not. -/
theorem witness_OutOfRangeAccessStopsByName :
    ¬ (start 0 [(1, 0x10000)]).AccessibleRange (effectiveAddress (start 0 [(1, 0x10000)]) 1 0) 1 ∧
    ¬ (start 0 [(1, 0xFFFF)]).AccessibleRange (effectiveAddress (start 0 [(1, 0xFFFF)]) 1 0) 2 ∧
    ¬ (start 0 [(1, 0xFFFD)]).AccessibleRange (effectiveAddress (start 0 [(1, 0xFFFD)]) 1 0) 4 :=
  ⟨not_accessibleRange 0 (by decide) (by simp only [State.Accessible]; decide),
    not_accessibleRange 1 (by decide) (by simp only [State.Accessible]; decide),
    not_accessibleRange 3 (by decide) (by simp only [State.Accessible]; decide)⟩

theorem witness_MemReadAfterMemWrite :
    (Memory.wf wholeSpace.ram ∧ wholeSpace.RamRange 0xFFFFFFFF 2 ∧ wholeSpace.RamRange 0xFFFFFFFE 4) ∧
    Memory.wf State.reset.ram ∧ State.reset.RamRange 0xFFFF 1 ∧ State.reset.RamRange 0xFFFC 4 := by
  have h : ∀ a : Word, route wholeSpace.windows a = none → wholeSpace.InRam a := fun a ha => ⟨ha, a.isLt⟩
  refine ⟨⟨by decide, fun i hi => h _ ?_, fun i hi => h _ ?_⟩, by decide, ramRange_low rfl rfl (by decide),
    ramRange_low rfl rfl (by decide)⟩
  · revert i
    decide
  · revert i
    decide

/-- A store to the last word of RAM; a store to its last byte and a store across two words, with words fetched that they
reach and, for the first, a byte of the word that it does not. -/
theorem witness_FetchSeesEarlierStore :
    (Memory.wf (start 0 [(1, 0xFFFC)]).ram ∧
      (start 0 [(1, 0xFFFC)]).RamRange (effectiveAddress (start 0 [(1, 0xFFFC)]) 1 0) 4 ∧
      (effectiveAddress (start 0 [(1, 0xFFFC)]) 1 0).toNat % 4 = 0) ∧
    (Memory.wf (start 0 [(1, 0xFFFF)]).ram ∧
      (start 0 [(1, 0xFFFF)]).AccessibleRange (effectiveAddress (start 0 [(1, 0xFFFF)]) 1 0) 1 ∧
      (start 0 [(1, 0xFFFF)]).RamRange 0xFFFC 4 ∧
      byteAddress 0xFFFC 3 = byteAddress (effectiveAddress (start 0 [(1, 0xFFFF)]) 1 0) 0 ∧
      byteAddress 0xFFFC 2 ≠ byteAddress (effectiveAddress (start 0 [(1, 0xFFFF)]) 1 0) 0) ∧
    Memory.wf (start 0 [(1, 0x203)]).ram ∧
      (start 0 [(1, 0x203)]).AccessibleRange (effectiveAddress (start 0 [(1, 0x203)]) 1 0) 2 ∧
      (start 0 [(1, 0x203)]).RamRange 0x204 4 ∧
      byteAddress 0x204 0 = byteAddress (effectiveAddress (start 0 [(1, 0x203)]) 1 0) 1 :=
  ⟨⟨by decide, ramRange_low rfl rfl (by decide), by decide⟩,
    ⟨by decide, accessibleRange_of_ramRange (ramRange_low rfl rfl (by decide)), ramRange_low rfl rfl (by decide),
      by decide, by decide⟩,
    by decide, accessibleRange_of_ramRange (ramRange_low rfl rfl (by decide)), ramRange_low rfl rfl (by decide), by decide⟩

theorem witness_ExitHaltsWithCodeFromA0 : (start 0 [(10, 42)]).getReg 17 = 0 := by decide

theorem witness_UnknownSyscallReturnsSentinel :
    10 < ((start 0 [(17, 11)]).getReg 17).toNat ∧ 10 < ((start 0 [(17, 0xFFFFFFFF)]).getReg 17).toNat := by
  decide

theorem witness_PutcharWritesOneByte : (start 0 [(17, 1), (10, 0x141)]).getReg 17 = 1 := by decide

theorem witness_GetcharReturnsKeyOrSentinel :
    let s := (start 0 [(17, 2)]).setInputs { EnvInputs.none with keys := [some 0xFFFFFFFE, none] }
    s.getReg 17 = 2 ∧ s.inputs.keys = some 0xFFFFFFFE :: [none] := by
  decide

theorem exists_memory_of_ones (n : Nat) : ∃ m : Memory, Memory.wf m ∧ ∀ a, a < n → m.read a = 1 := by
  induction n with
  | zero => exact ⟨[], by decide, fun a ha => absurd ha (Nat.not_lt_zero a)⟩
  | succ n ih =>
    obtain ⟨m, hm, h⟩ := ih
    refine ⟨m.write n 1, Memory.wf_write n 1 hm, fun a ha => ?_⟩
    by_cases e : a = n
    · rw [e, Memory.read_write_same n 1 hm]
    · rw [Memory.read_write_ne 1 e, h a (by omega)]

/-- A string that never ends: RAM is the whole address space, holds ones only, and no window is in it. (With a window the
device's free answers decide.) -/
theorem exists_endless {each : State → Byte → State} (heach : ∀ s b, CallFrame s (each s b) ∧ (each s b).ram = s.ram)
    (number : Word) :
    ∃ (s : State) (u : Nat → State) (byte : Nat → Byte), s.getReg 17 = number ∧ u 0 = s ∧
      ∀ n, Scans each (s.getReg 10) n u byte := by
  obtain ⟨size, hsize⟩ : ∃ size, size = 2 ^ 32 := ⟨_, rfl⟩
  obtain ⟨m, -, hm⟩ := exists_memory_of_ones size
  let s : State := { (wholeSpace.setReg 17 number).setRam m with windows := [] }
  let u : Nat → State := fun i => i.rec s fun _ v => each v 1
  have keeps : ∀ i, CallFrame s (u i) ∧ (u i).ram = m := by
    intro i
    induction i with
    | zero => exact ⟨.refl s, rfl⟩
    | succ i ih =>
      obtain ⟨f, e⟩ := heach (u i) 1
      exact ⟨ih.1.trans f, e.trans ih.2⟩
  have inRam : ∀ a, s.InRam a := fun a => ⟨rfl, a.isLt⟩
  have ones : ∀ i (a : Word), byteRead a (u i) = .ok (1, u i) := by
    intro i a
    obtain ⟨f, e⟩ := keeps i
    rw [byteRead_inRam ((inRam_congr f.windows f.ramSize a).mpr (inRam a)), State.ramByte, e, hm a.toNat (hsize ▸ a.isLt)]
  exact ⟨s, u, fun _ => 1, rfl, rfl, fun n => ⟨fun i _ => by decide, fun i _ => ⟨u i, ones i _, rfl⟩⟩⟩

/-- A scan of one byte. -/
theorem scans_one (each : State → Byte → State) {a : Word} {s v : State} {b : Byte} (hb : b ≠ 0)
    (hv : byteRead a s = .ok (b, v)) : Scans each a 1 (fun i => if i = 0 then s else each v b) fun _ => b where
  nonzero _ _ := hb
  reads i hi := by
    obtain rfl : i = 0 := by omega
    exact ⟨v, by simpa [byteAddress_zero] using hv, rfl⟩

/-- A string of one byte in the keyboard window, whose answers are set. -/
theorem exists_windowString {each : State → Byte → State}
    (heach : ∀ s b, (CallFrame s (each s b) ∧ (each s b).ram = s.ram) ∧ (each s b).inputs = s.inputs) (number : Word) :
    ∃ (s : State) (u : Nat → State) (byte : Nat → Byte) (v : State), s.getReg 17 = number ∧ u 0 = s ∧
      Scans each (s.getReg 10) 1 u byte ∧ byteRead (byteAddress (s.getReg 10) 1) (u 1) = .ok (0, v) ∧
      route s.windows (byteAddress (s.getReg 10) 1) ≠ none := by
  let s := (start 0 [(17, number), (10, 0x30000000)]).setInputs { EnvInputs.none with devReads := [0x48, 0] }
  have hr : route s.windows (s.getReg 10) = some .keyboard :=
    show route State.reset.windows 0x30000000 = some .keyboard by decide
  have hr1 : route s.windows (byteAddress (s.getReg 10) 1) = some .keyboard :=
    show route State.reset.windows (byteAddress 0x30000000 1) = some .keyboard by decide
  have hd : s.inputs.devReads = [0x48, 0] := rfl
  let w := each (devRead .keyboard (s.getReg 10) s).2 0x48
  obtain ⟨⟨f, -⟩, i⟩ := heach (devRead .keyboard (s.getReg 10) s).2 0x48
  have hw : route w.windows (byteAddress (s.getReg 10) 1) = some .keyboard := by
    rw [f.windows, (devRead_frame .keyboard (s.getReg 10) s).1.windows]
    exact hr1
  have hd : w.inputs.devReads = [0] := by
    rw [i]
    rfl
  refine ⟨s, fun i => if i = 0 then s else w, fun _ => 0x48, (devRead .keyboard (byteAddress (s.getReg 10) 1) w).2, rfl, rfl,
    scans_one each (by decide) (byteRead_window hr), ?_, fun h => Option.some_ne_none _ (hr1.symm.trans h)⟩
  show byteRead _ w = _
  rw [byteRead_window hw]
  simp [devRead, hd]

/-- A string whose second byte is the first beyond RAM. -/
theorem exists_stringOutOfRange (each : State → Byte → State) (number : Word) :
    ∃ (s : State) (u : Nat → State) (byte : Nat → Byte), s.getReg 17 = number ∧ u 0 = s ∧
      Scans each (s.getReg 10) 1 u byte ∧ ¬ s.Accessible (byteAddress (s.getReg 10) 1) := by
  let s := withBytes 0xFFFF [0x48] (start 0 [(17, number), (10, 0xFFFF)])
  have hr : s.InRam (s.getReg 10) :=
    show route State.reset.windows 0xFFFF = none ∧ (0xFFFF : Word).toNat < State.reset.ramSize by decide
  refine ⟨s, fun i => if i = 0 then s else each s 0x48, fun _ => 0x48, rfl, rfl,
    scans_one each (by decide) (byteRead_inRam hr), ?_⟩
  show ¬ (route State.reset.windows (byteAddress 0xFFFF 1) ≠ none ∨ (byteAddress 0xFFFF 1).toNat < State.reset.ramSize)
  decide

/-- In RAM: an empty string at its last byte; a string of two bytes; a string that runs past its last byte. On the bus: a
string in a window, one that runs out of reach, one that does not end. -/
theorem witness_PutsWritesStringAndReturnsLength :
    (∃ (s : State) (n : Nat), s.getReg 17 = 3 ∧ n = 0 ∧ s.InRam (byteAddress (s.getReg 10) n) ∧
      s.ramByte (byteAddress (s.getReg 10) n).toNat = 0) ∧
    (∃ (s : State) (n : Nat), s.getReg 17 = 3 ∧ n = 2 ∧
      (∀ i, i < n → s.InRam (byteAddress (s.getReg 10) i) ∧ s.ramByte (byteAddress (s.getReg 10) i).toNat ≠ 0) ∧
      s.InRam (byteAddress (s.getReg 10) n) ∧ s.ramByte (byteAddress (s.getReg 10) n).toNat = 0) ∧
    (∃ (s : State) (n : Nat), s.getReg 17 = 3 ∧ n = 1 ∧
      (∀ i, i < n → s.InRam (byteAddress (s.getReg 10) i) ∧ s.ramByte (byteAddress (s.getReg 10) i).toNat ≠ 0) ∧
      ¬ s.Accessible (byteAddress (s.getReg 10) n)) ∧
    (∃ (s : State) (u : Nat → State) (byte : Nat → Byte) (v : State), s.getReg 17 = 3 ∧ u 0 = s ∧
      Scans State.consolePut (s.getReg 10) 1 u byte ∧ byteRead (byteAddress (s.getReg 10) 1) (u 1) = .ok (0, v) ∧
      route s.windows (byteAddress (s.getReg 10) 1) ≠ none) ∧
    (∃ (s : State) (u : Nat → State) (byte : Nat → Byte), s.getReg 17 = 3 ∧ u 0 = s ∧
      Scans State.consolePut (s.getReg 10) 1 u byte ∧ ¬ s.Accessible (byteAddress (s.getReg 10) 1)) ∧
    ∃ (s : State) (u : Nat → State) (byte : Nat → Byte), s.getReg 17 = 3 ∧ u 0 = s ∧
      ∀ n, Scans State.consolePut (s.getReg 10) n u byte := by
  have hput : ∀ (s : State) b, (CallFrame s (s.consolePut b) ∧ (s.consolePut b).ram = s.ram) ∧
      (s.consolePut b).inputs = s.inputs := fun s b => ⟨consolePut_frame s b, by simp⟩
  refine ⟨⟨start 0 [(17, 3), (10, 0xFFFF)], 0, by decide, rfl, by simp only [State.InRam]; decide, by decide⟩,
    ⟨withBytes 0x20 [0x48, 0x69] (start 0 [(17, 3), (10, 0x20)]), 2, by decide, rfl, by simp only [State.InRam]; decide,
      by simp only [State.InRam]; decide, by decide⟩,
    ⟨withBytes 0xFFFF [0x48] (start 0 [(17, 3), (10, 0xFFFF)]), 1, by decide, rfl, by simp only [State.InRam]; decide,
      by simp only [State.Accessible]; decide⟩,
    exists_windowString hput 3, exists_stringOutOfRange _ 3, exists_endless (fun s b => (hput s b).1) 3⟩

theorem witness_ReadSectorFillsBuffer :
    let s := (start 0 [(17, 4), (10, 3), (11, 0xFE00)]).setInputs
      { EnvInputs.none with sectorReads := [some (Vector.replicate 512 0xAA), none] }
    Memory.wf s.ram ∧ s.getReg 17 = 4 ∧ s.RamRange (s.getReg 11) 512 ∧ ∃ a rest, s.inputs.sectorReads = a :: rest :=
  ⟨by decide, by decide, ramRange_low rfl rfl (by decide), _, _, rfl⟩

theorem witness_WriteSectorHandsOverBuffer :
    let s := (start 0 [(17, 5), (11, 0xFE00)]).setInputs { EnvInputs.none with sectorWrites := [false] }
    s.getReg 17 = 5 ∧ s.RamRange (s.getReg 11) 512 ∧ ∃ a rest, s.inputs.sectorWrites = a :: rest :=
  ⟨by decide, ramRange_low rfl rfl (by decide), _, _, rfl⟩

/-- maxlen 1, the smallest with a meaning: the line is empty, and its NUL is the last byte of RAM or the first beyond it; a
line in the text VRAM; keys without Enter; no keys set. -/
theorem witness_GetlineSuspendsOrReturnsLine :
    let call := fun (buffer maxlen : Word) (lines : List LineInput) =>
      (start 0 [(17, 6), (10, buffer), (11, maxlen)]).setInputs { EnvInputs.none with lines := lines }
    let keys := fun enter => ({ erased := 0, typed := [0x68], echo := [0x68], enter := enter } : LineInput)
    let applies := fun (s : State) (line : List Byte) => s.getReg 17 = 6 ∧ s.getReg 11 ≠ 0 ∧ Memory.wf s.ram ∧
      let input := (pollKeys { buffer := s.getReg 10, maxlen := s.getReg 11, chars := [] } s).1
      input.enter = true ∧ (input.typed.filter fun b => b != 0).take ((s.getReg 11).toNat - 1) = line
    (applies (call 0xFFFF 1 [keys true]) [] ∧ (call 0xFFFF 1 [keys true]).AccessibleRange 0xFFFF 1) ∧
    (applies (call 0x10000 1 [keys true]) [] ∧ ¬ (call 0x10000 1 [keys true]).AccessibleRange 0x10000 1) ∧
    (applies (call 0xFFFF 2 [keys true]) [0x68] ∧ ¬ (call 0xFFFF 2 [keys true]).AccessibleRange 0xFFFF 2) ∧
    (applies (call 0x10001F9E 2 [keys true]) [0x68] ∧ (call 0x10001F9E 2 [keys true]).AccessibleRange 0x10001F9E 2 ∧
      (call 0x10001F9E 2 [keys true]).GraphicsOnlyInVram 0x10001F9E 2) ∧
    ((call 0xFFFF 16 [keys false]).getReg 17 = 6 ∧ (call 0xFFFF 16 [keys false]).getReg 11 ≠ 0 ∧
      (pollKeys { buffer := 0xFFFF, maxlen := 16, chars := [] } (call 0xFFFF 16 [keys false])).1.enter = false) ∧
    (call 0xFFFF 16 []).getReg 17 = 6 ∧ (call 0xFFFF 16 []).getReg 11 ≠ 0 := by
  refine ⟨⟨by decide, accessibleRange_of_ramRange (ramRange_low rfl rfl (by decide))⟩,
    ⟨by decide, not_accessibleRange 0 (by decide) (by simp only [State.Accessible]; decide)⟩,
    ⟨by decide, not_accessibleRange 1 (by decide) (by simp only [State.Accessible]; decide)⟩,
    ⟨by decide, accessible_window rfl (by decide), graphicsOnlyInVram_text (by decide) (by decide)⟩, by decide, by decide,
    by decide⟩

/-- maxlen 0; a line of one byte whose NUL is the last byte of RAM or the first beyond it; keys without Enter. -/
theorem witness_SuspendedStepCompletesLine :
    let pending := fun (p : PendingLine) (lines : List LineInput) =>
      ((start 0 []).setInputs { EnvInputs.none with lines := lines }).setRunState (.suspended p)
    let record := fun (buffer maxlen : Word) => ({ buffer := buffer, maxlen := maxlen, chars := [0x68] } : PendingLine)
    let keys := fun enter => ({ erased := 1, typed := [0x69], echo := [], enter := enter } : LineInput)
    let applies := fun (s : State) (p : PendingLine) (line : List Byte) => s.runState = .suspended p ∧ p.maxlen ≠ 0 ∧
      Memory.wf s.ram ∧ (pollKeys p s).1.enter = true ∧
      ((p.chars.take (p.chars.length - (pollKeys p s).1.erased) ++ (pollKeys p s).1.typed).filter fun b => b != 0).take
        (p.maxlen.toNat - 1) = line
    (pending (record 0 0) []).runState = .suspended (record 0 0) ∧
    (applies (pending (record 0xFFFE 2) [keys true]) (record 0xFFFE 2) [0x69] ∧
      (pending (record 0xFFFE 2) [keys true]).AccessibleRange 0xFFFE 2) ∧
    (applies (pending (record 0xFFFF 2) [keys true]) (record 0xFFFF 2) [0x69] ∧
      ¬ (pending (record 0xFFFF 2) [keys true]).AccessibleRange 0xFFFF 2) ∧
    (pending (record 0xFFFE 2) [keys false]).runState = .suspended (record 0xFFFE 2) ∧
      (pollKeys (record 0xFFFE 2) (pending (record 0xFFFE 2) [keys false])).1.enter = false := by
  refine ⟨rfl, ⟨by decide, accessibleRange_of_ramRange (ramRange_low rfl rfl (by decide))⟩,
    ⟨by decide, not_accessibleRange 1 (by decide) (by simp only [State.Accessible]; decide)⟩, rfl, by decide⟩

/-- In RAM: a name whose NUL is its last byte. On the bus: a name in a window, one that runs out of reach, one that does not
end. -/
theorem witness_FopenReturnsHandleOrSentinel :
    (∃ (s : State) (n : Nat), s.getReg 17 = 7 ∧ n = 1 ∧
      (∀ i, i < n → s.InRam (byteAddress (s.getReg 10) i) ∧ s.ramByte (byteAddress (s.getReg 10) i).toNat ≠ 0) ∧
      s.InRam (byteAddress (s.getReg 10) n) ∧ s.ramByte (byteAddress (s.getReg 10) n).toNat = 0 ∧
      s.inputs.fopens = [some 0x7FFFFFFF, none]) ∧
    (∃ (s : State) (u : Nat → State) (byte : Nat → Byte) (v : State), s.getReg 17 = 7 ∧ u 0 = s ∧
      Scans (fun v _ => v) (s.getReg 10) 1 u byte ∧ byteRead (byteAddress (s.getReg 10) 1) (u 1) = .ok (0, v) ∧
      route s.windows (byteAddress (s.getReg 10) 1) ≠ none) ∧
    (∃ (s : State) (u : Nat → State) (byte : Nat → Byte), s.getReg 17 = 7 ∧ u 0 = s ∧
      Scans (fun v _ => v) (s.getReg 10) 1 u byte ∧ ¬ s.Accessible (byteAddress (s.getReg 10) 1)) ∧
    ∃ (s : State) (u : Nat → State) (byte : Nat → Byte), s.getReg 17 = 7 ∧ u 0 = s ∧
      ∀ n, Scans (fun v _ => v) (s.getReg 10) n u byte := by
  have hnone : ∀ (s : State) (_ : Byte), (CallFrame s s ∧ s.ram = s.ram) ∧ s.inputs = s.inputs :=
    fun s _ => ⟨⟨.refl s, rfl⟩, rfl⟩
  refine ⟨⟨(withBytes 0xFFFE [0x61] (start 0 [(17, 7), (10, 0xFFFE)])).setInputs
      { EnvInputs.none with fopens := [some 0x7FFFFFFF, none] }, 1, by decide, rfl, by simp only [State.InRam]; decide,
    by simp only [State.InRam]; decide, by decide, rfl⟩,
    exists_windowString hnone 7, exists_stringOutOfRange _ 7, exists_endless (fun s b => (hnone s b).1) 7⟩

theorem witness_FreadStoresAtMostMaxCount :
    let s := (start 0 [(17, 8), (11, 0xFFFF), (12, 1)]).setInputs { EnvInputs.none with freads := [some [1, 2], none] }
    Memory.wf s.ram ∧ s.getReg 17 = 8 ∧ s.RamRange (s.getReg 11) (s.getReg 12).toNat ∧
      ∃ a rest, s.inputs.freads = a :: rest :=
  ⟨by decide, by decide, ramRange_low rfl rfl (by decide), _, _, rfl⟩

theorem witness_FwriteHandsOverBytes :
    let s := (start 0 [(17, 9), (11, 0xFFFF), (12, 1)]).setInputs { EnvInputs.none with fwrites := [some 1] }
    s.getReg 17 = 9 ∧ s.RamRange (s.getReg 11) (s.getReg 12).toNat ∧ ∃ a rest, s.inputs.fwrites = a :: rest :=
  ⟨by decide, ramRange_low rfl rfl (by decide), _, _, rfl⟩

theorem witness_FcloseReturnsZeroOrSentinel :
    let s := (start 0 [(17, 10), (10, 3)]).setInputs { EnvInputs.none with fcloses := [false, true] }
    s.getReg 17 = 10 ∧ s.inputs.fcloses = false :: [true] := by
  decide

/-- The last 512 bytes of the storage window. -/
theorem storage_window : ∀ i, i < 512 → route State.reset.windows (byteAddress 0x2001FE00 i) ≠ none := by
  intro i hi
  have hb : (byteAddress 0x2001FE00 i).toNat = 0x2001FE00 + i := by
    rw [byteAddress_toNat, show (0x2001FE00 : Word).toNat = 0x2001FE00 from rfl]
    omega
  have hw : Window.contains { base := 0x20000000, len := 0x20000, device := .storage } (byteAddress 0x2001FE00 i) = true := by
    simp only [Window.contains, hb, Bool.and_eq_true, decide_eq_true_eq]
    omega
  rw [ne_eq, route, Option.map_eq_none_iff, List.find?_eq_none]
  exact fun h => h _ (by decide) hw

/-- Buffers in a window and buffers that run one byte past RAM, for each of the four calls; a read that fails. -/
theorem witness_SyscallBuffersUseTheBus :
    let sectorCall := fun (number buffer : Word) (reads : List (Option Sector)) =>
      (start 0 [(17, number), (11, buffer)]).setInputs { EnvInputs.none with sectorReads := reads }
    let fileCall := fun (number buffer count : Word) (reads : List (Option (List Byte))) =>
      (start 0 [(17, number), (11, buffer), (12, count)]).setInputs { EnvInputs.none with freads := reads }
    let sector := some (Vector.replicate 512 0xAA#8)
    let bytes := some [1#8, 2, 3]
    ((sectorCall 4 0x2001FE00 [sector]).getReg 17 = 4 ∧ Memory.wf (sectorCall 4 0x2001FE00 [sector]).ram ∧
      (readSector 0 (sectorCall 4 0x2001FE00 [sector])).1 = sector ∧
      (sectorCall 4 0x2001FE00 [sector]).AccessibleRange 0x2001FE00 512) ∧
    ((sectorCall 4 0xFE01 [sector]).getReg 17 = 4 ∧ (readSector 0 (sectorCall 4 0xFE01 [sector])).1 = sector ∧
      ¬ (sectorCall 4 0xFE01 [sector]).AccessibleRange 0xFE01 512) ∧
    (readSector 0 (sectorCall 4 0xFE01 [none])).1 = none ∧
    ((sectorCall 5 0x2001FE00 []).getReg 17 = 5 ∧ (sectorCall 5 0x2001FE00 []).AccessibleRange 0x2001FE00 512) ∧
    ((sectorCall 5 0xFE01 []).getReg 17 = 5 ∧ ¬ (sectorCall 5 0xFE01 []).AccessibleRange 0xFE01 512) ∧
    ((fileCall 8 0x10001F9E 2 [bytes]).getReg 17 = 8 ∧ Memory.wf (fileCall 8 0x10001F9E 2 [bytes]).ram ∧
      (fread 0 2 (fileCall 8 0x10001F9E 2 [bytes])).1 = some [1, 2] ∧
      (fileCall 8 0x10001F9E 2 [bytes]).AccessibleRange 0x10001F9E 2 ∧
      (fileCall 8 0x10001F9E 2 [bytes]).GraphicsOnlyInVram 0x10001F9E 2) ∧
    ((fileCall 8 0xFFFF 2 [bytes]).getReg 17 = 8 ∧ (fread 0 2 (fileCall 8 0xFFFF 2 [bytes])).1 = some [1, 2] ∧
      ¬ (fileCall 8 0xFFFF 2 [bytes]).AccessibleRange 0xFFFF 2) ∧
    (fread 0 2 (fileCall 8 0xFFFF 2 [none])).1 = none ∧
    ((fileCall 9 0x2001FFFF 1 []).getReg 17 = 9 ∧ (fileCall 9 0x2001FFFF 1 []).AccessibleRange 0x2001FFFF 1) ∧
    ((fileCall 9 0xFFFF 2 []).getReg 17 = 9 ∧ ¬ (fileCall 9 0xFFFF 2 []).AccessibleRange 0xFFFF 2) := by
  refine ⟨⟨by decide, by decide, rfl, accessible_window rfl storage_window⟩,
    ⟨by decide, rfl, not_accessibleRange 511 (by decide) (by simp only [State.Accessible]; decide)⟩, rfl,
    ⟨by decide, accessible_window rfl storage_window⟩,
    ⟨by decide, not_accessibleRange 511 (by decide) (by simp only [State.Accessible]; decide)⟩,
    ⟨by decide, by decide, rfl, accessible_window rfl (by decide), graphicsOnlyInVram_text (by decide) (by decide)⟩,
    ⟨by decide, rfl, not_accessibleRange 1 (by decide) (by simp only [State.Accessible]; decide)⟩, rfl,
    ⟨by decide, accessible_window rfl (by decide)⟩,
    ⟨by decide, not_accessibleRange 1 (by decide) (by simp only [State.Accessible]; decide)⟩⟩

/-- A step from reset with an instruction placed: the address map's statement and the two records' statement. -/
theorem witness_StepNeverChangesAddressMap : ∃ s t, step s = .next t ∧ t.runState = .halted :=
  ⟨State.reset, raiseDecodeError State.reset, by rfl, rfl⟩

theorem witness_OutputOnlyGrows : ∃ s t, step s = .next t ∧ t.consoleOutput = s.consoleOutput ++ [0x0A] :=
  ⟨(start 0 [(17, 1), (10, 0x0A)]).withFetchWord 32 0x73, _, by rfl, by decide⟩

theorem witness_OnlyDestinationRegisterChanges :
    (∃ s t, step s = .next t ∧ t.getReg 1 ≠ s.getReg 1) ∧
    ∃ s t, step s = .next t ∧ t.getReg 10 ≠ s.getReg 10 ∧ s.pending ≠ none :=
  ⟨⟨State.reset.withFetchWord 32 0x064000EF, _, by rfl, by decide⟩,
    ⟨pendingGetline [{ erased := 0, typed := [0x68], echo := [], enter := true }], _, by rfl, by decide, by decide⟩⟩

theorem witness_OnlyStoresAndReadingSyscallsWriteRam :
    (∃ s t, step s = .next t ∧ t.ramByte 0x200 ≠ s.ramByte 0x200) ∧
    ∃ s t, step s = .next t ∧ t.ramByte 0x300 ≠ s.ramByte 0x300 ∧ s.pending ≠ none :=
  ⟨⟨(start 0x1000 [(1, 0x200), (2, 0x12345678)]).withFetchWord 32 0x00208023, _, by rfl, by decide⟩,
    ⟨pendingGetline [{ erased := 0, typed := [0x68], echo := [], enter := true }], _, by rfl, by decide, by decide⟩⟩

theorem witness_OnlyNamedEventsLeaveRunning :
    (∃ s t, step s = .next t ∧ s.runState ≠ .halted ∧ t.runState = .halted) ∧
    ∃ s t, step s = .next t ∧ s.runState = .running ∧ t.pending ≠ none :=
  ⟨⟨State.reset.withFetchWord 32 0x73, _, by rfl, by decide, by decide⟩,
    ⟨((start 0x1000 [(17, 6), (10, 0x300), (11, 16)]).setInputs
        { EnvInputs.none with lines := [{ erased := 0, typed := [], echo := [], enter := false }] }).withFetchWord 32 0x73,
      _, by rfl, by decide, by decide⟩⟩

theorem witness_OnlyMemoryInstructionsStop :
    (exec .ecall (start 0 [(17, 6)]) = .refused .getlineZeroMaxlen) ∧
    exec (.lw 3 1 0) (start 0 [(1, 0xFFFD)]) = .fault .ramOutOfRange :=
  ⟨by rfl, by rfl⟩

theorem witness_LoadProgramCopiesBytes :
    Memory.wf State.reset.ram ∧ 0xFFFC + ([1, 2, 3, 4] : List Byte).length ≤ State.reset.ramSize ∧
    State.reset.ramSize < 0xFFFD + ([1, 2, 3, 4] : List Byte).length := by
  decide

theorem witness_LineEndsMoveToNextRowOrScroll :
    ({ State.reset.console with row := 23 }).row.val < 24 ∧ ({ State.reset.console with row := 24 }).row.val = 24 := by
  decide

theorem witness_OtherBytesMoveCursor :
    ({ State.reset.console with col := 71 }).col.val < 72 ∧ ({ State.reset.console with col := 78 }).col.val < 79 ∧
    ({ State.reset.console with col := 79, row := 23 }).col.val = 79 ∧
    ({ State.reset.console with col := 79, row := 23 }).row.val < 24 ∧
    (({ State.reset.console with col := 79, row := 24 }).col.val = 79 ∧
      ({ State.reset.console with col := 79, row := 24 }).row.val = 24) ∧
    (0x00#8) ≠ 0x08 ∧ (0x00#8) ≠ 0x09 ∧ (0x00#8) ≠ 0x0A ∧ (0x00#8) ≠ 0x0D := by
  decide

end Sys2Proof.Tests
end

section
/-! SUPPORT. Proofs about the register file (10_state.md R21). -/

namespace Sys2Proof.Machine

/-- The write to x0 is discarded as a whole: the state itself comes back, not only its register reads. -/
@[simp] theorem setReg_zero (s : State) (v : Word) : s.setReg 0#5 v = s := if_pos rfl

/-- Settles O57: x0 by its own two laws, every other register by read after write. -/
theorem registerFileReadsLastWrite : Obligations.RegisterFileReadsLastWrite := by
  unfold Obligations.RegisterFileReadsLastWrite
  intro s r q v
  exact ⟨getReg_zero s, setReg_zero s v, getReg_setReg s r q v⟩

end Sys2Proof.Machine
end

section
/-! SUPPORT. Proofs about the bus: how it routes an address (20_memory.md R52, R53, R54), and what a read gives after a
write in RAM (R63, R69). -/

namespace Sys2Proof.Machine

/-! ## Routing -/

/-- Two windows hold no address in common (20_memory.md R61). -/
def Apart (w w' : Window) : Prop :=
  ∀ a, Window.contains w a = true → Window.contains w' a = true → False

theorem apart_symm : Std.Symm Apart :=
  ⟨fun _ _ h a hw' hw => h a hw hw'⟩

theorem contains_iff {w : Window} {a : Word} :
    Window.contains w a = true ↔ w.base ≤ a.toNat ∧ a.toNat < w.base + w.len := by
  simp [Window.contains]

/-- A window that ends at or below the base of another is apart from it. -/
theorem apart_of_end_le_base {w w' : Window} (h : w.base + w.len ≤ w'.base) : Apart w w' := by
  intro a hw hw'
  rw [contains_iff] at hw hw'
  omega

theorem LegalWindows.pairwise_apart {windows : List Window} (h : LegalWindows windows) : windows.Pairwise Apart := by
  obtain ⟨graphicsLen, storageLen, keyboardLen, rfl, -, hgraphics, -, hstorage, -, -⟩ := h
  have hascending : (platformWindows graphicsLen storageLen keyboardLen).Pairwise
      (fun w w' => w.base + w.len ≤ w'.base) := by
    simp only [platformWindows, Config.graphicsBase, Config.storageBase, Config.keyboardBase, List.pairwise_cons,
      List.mem_cons, List.not_mem_nil, or_false, forall_eq_or_imp, forall_eq, IsEmpty.forall_iff, implies_true,
      List.Pairwise.nil, and_true]
    omega
  exact hascending.imp apart_of_end_le_base

/-- Where windows are apart the scan order drops out: the device found is that of whichever window holds the address. -/
theorem route_eq_some_iff {windows : List Window} (h : windows.Pairwise Apart) {a : Word} {d : Device} :
    route windows a = some d ↔ ∃ w ∈ windows, Window.contains w a = true ∧ w.device = d := by
  simp only [route, Option.map_eq_some_iff]
  constructor
  · rintro ⟨w, hfind, hd⟩
    exact ⟨w, List.mem_of_find?_eq_some hfind, (List.find?_some hfind :), hd⟩
  · rintro ⟨w, hw, hholds, hd⟩
    obtain ⟨w', hfind⟩ := Option.isSome_iff_exists.mp
      (List.find?_isSome (p := (Window.contains · a)).mpr ⟨w, hw, hholds⟩)
    have hsame : w' = w := by
      by_contra hne
      have := apart_symm
      exact h.forall (List.mem_of_find?_eq_some hfind) hw hne a (List.find?_some hfind :) hholds
    exact ⟨w, hsame ▸ hfind, hd⟩

theorem route_perm {windows windows' : List Window} (h : windows.Pairwise Apart) (p : windows'.Perm windows)
    (a : Word) : route windows' a = route windows a := by
  have h' : windows'.Pairwise Apart := (p.pairwise_iff (apart_symm.symm _ _)).mpr h
  ext d
  simp only [route_eq_some_iff h, route_eq_some_iff h', p.mem_iff]

/-- Settles O27: legal windows are apart, so routing asks only which window holds the address. -/
theorem routeFindsTheWindowOfAnAddress : Obligations.RouteFindsTheWindowOfAnAddress := by
  unfold Obligations.RouteFindsTheWindowOfAnAddress
  intro graphicsLen storageLen keyboardLen hlegal a
  have hapart := hlegal.pairwise_apart
  refine ⟨?graphics, ?storage, ?keyboard, fun windows p => route_perm hapart p a⟩ <;>
  · rw [route_eq_some_iff hapart]
    simp [platformWindows, contains_iff, Config.graphicsBase, Config.storageBase, Config.keyboardBase]

/-! ## A read after a write -/

theorem ramRange_congr {s t : State} (hw : t.windows = s.windows) (hr : t.ramSize = s.ramSize) (a : Word) (n : Nat) :
    t.RamRange a n ↔ s.RamRange a n := by simp only [State.RamRange, inRam_congr hw hr]

theorem ramRange_byteAddress {s : State} {a : Word} {k m n : Nat} (h : s.RamRange a n) (hm : k + m ≤ n) :
    s.RamRange (byteAddress a k) m :=
  fun i hi => byteAddress_add a k i ▸ h (k + i) (by omega)

/-- The RAM bytes of a part of a range that holds the bytes of a number are bytes of that number's higher part. -/
theorem StoresBytes.ramBytes {s t : State} {a : Word} {k m n v : Nat} (h : StoresBytes (bytesOf n v) a s t)
    (hm : k + m ≤ n) : t.ramBytes (byteAddress a k) m = bytesOf m (v / 256 ^ k) := by
  refine List.ext_getElem (by simp [ramBytes_length, bytesOf_length]) fun i hi _ => ?_
  have hi : i < m := by rwa [ramBytes_length] at hi
  have hstored := h.stored (k + i) (by rw [bytesOf_length]; omega)
  simp only [State.ramBytes, List.getElem_map, List.getElem_range, byteAddress_add]
  rw [hstored, bytesOf_getElem, bytesOf_getElem, Nat.div_div_eq_div_mul, Nat.pow_add]

/-- A read of `m` of the bytes that a write of `n` bytes left in RAM, from byte `k` on, gives those bytes of the value
(20_memory.md R63, R69). -/
theorem memRead_part_of_memWrite {s t : State} {a v : Word} {k m n : Nat} (hwrite : memWrite a n v s = .ok t)
    (hram : s.RamRange a n) (hwf : Memory.wf s.ram) (hn : n ≤ 2 ^ 32) (hm : k + m ≤ n) :
    memRead (byteAddress a k) m t = .ok (BitVec.ofNat 32 (v.toNat / 256 ^ k % 256 ^ m), t) := by
  have hframe : BusFrame s t := writeBytes_frame hwrite
  have hrange : t.RamRange (byteAddress a k) m :=
    (ramRange_congr hframe.windows hframe.ramSize _ _).mpr (ramRange_byteAddress hram hm)
  have hstores : StoresBytes (bytesOf n v.toNat) a s t :=
    writeBytes_ram_stores (by rwa [bytesOf_length]) (by rwa [bytesOf_length]) hwf hwrite
  rw [memRead_ram hrange, hstores.ramBytes hm, littleEndian_bytesOf]

/-- Settles O33: each read named is a part of the write, the whole of it in the round trip. -/
theorem memReadAfterMemWrite : Obligations.MemReadAfterMemWrite := by
  unfold Obligations.MemReadAfterMemWrite
  constructor
  · intro n a v s hn hwf hram
    obtain ⟨t, hwrite⟩ := memWrite_completes (v := v) (accessibleRange_of_ramRange hram)
    have hwhole := memRead_part_of_memWrite (k := 0) (m := n) hwrite hram hwf (by omega) (by omega)
    refine ⟨t, hwrite, ?_⟩
    simpa [Nat.pow_mul] using hwhole
  · intro a v s hwf hram
    obtain ⟨t, hwrite⟩ := memWrite_completes (v := v) (accessibleRange_of_ramRange hram)
    have hpart (k m : Nat) (hm : k + m ≤ 4) := memRead_part_of_memWrite hwrite hram hwf (by decide) hm
    exact ⟨t, hwrite, fun k hk => hpart k 1 (by omega), fun k hk => hpart k 2 (by omega)⟩

end Sys2Proof.Machine
end

section
/-! SUPPORT. Proofs about the encoding (30_encoding.md): the opcode table and the decoder (R104 to R114), and the
immediates as sums of instruction bits (R96 to R101). -/

namespace Sys2Proof

/-! ## A word is its fields -/

theorem packU_fields (w : Word) : packU (immUField w) (rdField w) (opcodeField w) = w := by
  apply BitVec.eq_of_toNat_eq
  simp only [packU_toNat, immUField, rdField, opcodeField, BitVec.extractLsb'_toNat, Nat.shiftRight_eq_div_pow]
  omega

theorem packI_fields (w : Word) :
    packI (immIField w) (rs1Field w) (funct3Field w) (rdField w) (opcodeField w) = w := by
  apply BitVec.eq_of_toNat_eq
  simp only [packI_toNat, immIField, rs1Field, funct3Field, rdField, opcodeField, BitVec.extractLsb'_toNat,
    Nat.shiftRight_eq_div_pow]
  omega

theorem packR_fields (w : Word) :
    packR (funct7Field w) (rs2Field w) (rs1Field w) (funct3Field w) (rdField w) (opcodeField w) = w := by
  apply BitVec.eq_of_toNat_eq
  simp only [packR_toNat, funct7Field, rs2Field, rs1Field, funct3Field, rdField, opcodeField, BitVec.extractLsb'_toNat,
    Nat.shiftRight_eq_div_pow]
  omega

/-- The mask of ECALL and EBREAK: all of `inst[31:20]`, funct3 and opcode. -/
theorem packI_and_system_mask (imm : BitVec 12) (rs1 : BitVec 5) (f3 : BitVec 3) (rd : BitVec 5) (op : BitVec 7) :
    packI imm rs1 f3 rd op &&& 0xFFF0707F#32 = packI imm 0#5 f3 0#5 op := by
  rw [show 0xFFF0707F#32 = packI (BitVec.allOnes 12) 0#5 (BitVec.allOnes 3) 0#5 (BitVec.allOnes 7) by decide]
  unfold packI
  erw [BitVec.and_append, BitVec.and_append, BitVec.and_append, BitVec.and_append]
  simp only [BitVec.and_allOnes, BitVec.and_zero]

/-- The mask of the upper immediate (R99). -/
theorem packU_and_upper_mask (imm20 : BitVec 20) (rd : BitVec 5) (op : BitVec 7) :
    packU imm20 rd op &&& 0xFFFFF000#32 = packU imm20 0#5 0#7 := by
  rw [show 0xFFFFF000#32 = packU (BitVec.allOnes 20) 0#5 0#7 by decide]
  unfold packU
  erw [BitVec.and_append, BitVec.and_append]
  simp only [BitVec.and_allOnes, BitVec.and_zero]

/-! ## What each of the four masks of R104 asks of a word -/

theorem and_opcode_mask_eq_iff {w bits : Word} (hbits : bits &&& 0x0000007F#32 = bits) :
    w &&& 0x0000007F#32 = bits ↔ opcodeField w = opcodeField bits := by
  refine ⟨fun h => field_of_and h rfl, fun hop => ?_⟩
  rw [← hbits, ← packU_fields w, ← packU_fields bits, packU_and_mask, packU_and_mask, hop]

theorem and_funct3_mask_eq_iff {w bits : Word} (hbits : bits &&& 0x0000707F#32 = bits) :
    w &&& 0x0000707F#32 = bits ↔ opcodeField w = opcodeField bits ∧ funct3Field w = funct3Field bits := by
  refine ⟨fun h => ⟨field_of_and h rfl, field_of_and h rfl⟩, fun ⟨hop, h3⟩ => ?_⟩
  rw [← hbits, ← packI_fields w, ← packI_fields bits, packI_and_mask, packI_and_mask, hop, h3]

theorem and_funct7_mask_eq_iff {w bits : Word} (hbits : bits &&& 0xFE00707F#32 = bits) :
    w &&& 0xFE00707F#32 = bits ↔
      opcodeField w = opcodeField bits ∧ funct3Field w = funct3Field bits ∧ funct7Field w = funct7Field bits := by
  refine ⟨fun h => ⟨field_of_and h rfl, field_of_and h rfl, field_of_and h rfl⟩, fun ⟨hop, h3, h7⟩ => ?_⟩
  rw [← hbits, ← packR_fields w, ← packR_fields bits, packR_and_mask, packR_and_mask, hop, h3, h7]

theorem and_system_mask_eq_iff {w bits : Word} (hbits : bits &&& 0xFFF0707F#32 = bits) :
    w &&& 0xFFF0707F#32 = bits ↔
      opcodeField w = opcodeField bits ∧ funct3Field w = funct3Field bits ∧ immIField w = immIField bits := by
  refine ⟨fun h => ⟨field_of_and h rfl, field_of_and h rfl, field_of_and h rfl⟩, fun ⟨hop, h3, h12⟩ => ?_⟩
  rw [← hbits, ← packI_fields w, ← packI_fields bits, packI_and_system_mask, packI_and_system_mask, hop, h3, h12]

/-! ## The fields of a written-out word -/

@[simp] theorem opcodeField_ofNat (n : Nat) : opcodeField (BitVec.ofNat 32 n) = BitVec.ofNat 7 n := by
  apply BitVec.eq_of_toNat_eq
  simp [opcodeField]

@[simp] theorem funct3Field_ofNat (n : Nat) : funct3Field (BitVec.ofNat 32 n) = BitVec.ofNat 3 (n / 2 ^ 12) := by
  apply BitVec.eq_of_toNat_eq
  simp only [funct3Field, BitVec.extractLsb'_toNat, BitVec.toNat_ofNat, Nat.shiftRight_eq_div_pow]
  omega

@[simp] theorem funct7Field_ofNat (n : Nat) : funct7Field (BitVec.ofNat 32 n) = BitVec.ofNat 7 (n / 2 ^ 25) := by
  apply BitVec.eq_of_toNat_eq
  simp only [funct7Field, BitVec.extractLsb'_toNat, BitVec.toNat_ofNat, Nat.shiftRight_eq_div_pow]
  omega

@[simp] theorem immIField_ofNat (n : Nat) : immIField (BitVec.ofNat 32 n) = BitVec.ofNat 12 (n / 2 ^ 20) := by
  apply BitVec.eq_of_toNat_eq
  simp only [immIField, BitVec.extractLsb'_toNat, BitVec.toNat_ofNat, Nat.shiftRight_eq_div_pow]
  omega

/-! ## The decoder, one equation for each major opcode (R114) -/

theorem decode_load {w : Word} (hop : opcodeField w = 0b0000011#7) : decode w = decodeLoad w := by
  rw [decode, hop]; rfl

theorem decode_miscMem {w : Word} (hop : opcodeField w = 0b0001111#7) : decode w = decodeMiscMem w := by
  rw [decode, hop]; rfl

theorem decode_opImm {w : Word} (hop : opcodeField w = 0b0010011#7) : decode w = decodeOpImm w := by
  rw [decode, hop]; rfl

theorem decode_auipc {w : Word} (hop : opcodeField w = 0b0010111#7) :
    decode w = .ok (.auipc (rdField w) (immUField w)) := by
  rw [decode, hop]; rfl

theorem decode_store {w : Word} (hop : opcodeField w = 0b0100011#7) : decode w = decodeStore w := by
  rw [decode, hop]; rfl

theorem decode_op {w : Word} (hop : opcodeField w = 0b0110011#7) : decode w = decodeOp w := by
  rw [decode, hop]; rfl

theorem decode_lui {w : Word} (hop : opcodeField w = 0b0110111#7) :
    decode w = .ok (.lui (rdField w) (immUField w)) := by
  rw [decode, hop]; rfl

theorem decode_branch {w : Word} (hop : opcodeField w = 0b1100011#7) : decode w = decodeBranch w := by
  rw [decode, hop]; rfl

theorem decode_jalr {w : Word} (hop : opcodeField w = 0b1100111#7) : decode w = decodeJalr w := by
  rw [decode, hop]; rfl

theorem decode_jal {w : Word} (hop : opcodeField w = 0b1101111#7) :
    decode w = .ok (.jal (rdField w) (immJField w)) := by
  rw [decode, hop]; rfl

theorem decode_system {w : Word} (hop : opcodeField w = 0b1110011#7) : decode w = decodeSystem w := by
  rw [decode, hop]; rfl

theorem decode_shiftLeft {w : Word} (hop : opcodeField w = 0b0010011#7) (h3 : funct3Field w = 0b001#3) :
    decode w = decodeShiftLeft w := by
  rw [decode_opImm hop, decodeOpImm, h3]; rfl

theorem decode_shiftRight {w : Word} (hop : opcodeField w = 0b0010011#7) (h3 : funct3Field w = 0b101#3) :
    decode w = decodeShiftRight w := by
  rw [decode_opImm hop, decodeOpImm, h3]; rfl

end Sys2Proof

namespace Sys2Proof.Machine

/-! ## The words of each row and what they decode to (R106 to R114) -/

theorem decodesAs_of_opcode {bits : Word} {f : Word → Instr}
    (h : ∀ w, opcodeField w = opcodeField bits → decode w = .ok (f w)) : DecodesAs 0x0000007F bits f :=
  fun w hw => h w (field_of_and hw rfl)

theorem decodesAs_of_funct3 {bits : Word} {f : Word → Instr}
    (h : ∀ w, opcodeField w = opcodeField bits → funct3Field w = funct3Field bits → decode w = .ok (f w)) :
    DecodesAs 0x0000707F bits f :=
  fun w hw => h w (field_of_and hw rfl) (field_of_and hw rfl)

theorem decodesAs_of_funct7 {bits : Word} {f : Word → Instr}
    (h : ∀ w, opcodeField w = opcodeField bits → funct3Field w = funct3Field bits →
      funct7Field w = funct7Field bits → decode w = .ok (f w)) :
    DecodesAs 0xFE00707F bits f :=
  fun w hw => h w (field_of_and hw rfl) (field_of_and hw rfl) (field_of_and hw rfl)

theorem decodesAs_of_immI {bits : Word} {f : Word → Instr}
    (h : ∀ w, opcodeField w = opcodeField bits → funct3Field w = funct3Field bits →
      immIField w = immIField bits → decode w = .ok (f w)) :
    DecodesAs 0xFFF0707F bits f :=
  fun w hw => h w (field_of_and hw rfl) (field_of_and hw rfl) (field_of_and hw rfl)

theorem decodesAs_lui : DecodesAs 0x0000007F 0x00000037 (fun w => .lui (rdField w) (immUField w)) :=
  decodesAs_of_opcode fun _ => decode_lui

theorem decodesAs_auipc : DecodesAs 0x0000007F 0x00000017 (fun w => .auipc (rdField w) (immUField w)) :=
  decodesAs_of_opcode fun _ => decode_auipc

theorem decodesAs_jal : DecodesAs 0x0000007F 0x0000006F (fun w => .jal (rdField w) (immJField w)) :=
  decodesAs_of_opcode fun _ => decode_jal

theorem decodesAs_jalr :
    DecodesAs 0x0000707F 0x00000067 (fun w => .jalr (rdField w) (rs1Field w) (immIField w)) :=
  decodesAs_of_funct3 fun w hop h3 => by rw [decode_jalr hop, decodeJalr, h3]; rfl

theorem decodesAs_branch :
    DecodesAs 0x0000707F 0x00000063 (fun w => .beq (rs1Field w) (rs2Field w) (immBField w)) ∧
    DecodesAs 0x0000707F 0x00001063 (fun w => .bne (rs1Field w) (rs2Field w) (immBField w)) ∧
    DecodesAs 0x0000707F 0x00004063 (fun w => .blt (rs1Field w) (rs2Field w) (immBField w)) ∧
    DecodesAs 0x0000707F 0x00005063 (fun w => .bge (rs1Field w) (rs2Field w) (immBField w)) ∧
    DecodesAs 0x0000707F 0x00006063 (fun w => .bltu (rs1Field w) (rs2Field w) (immBField w)) ∧
    DecodesAs 0x0000707F 0x00007063 (fun w => .bgeu (rs1Field w) (rs2Field w) (immBField w)) := by
  refine ⟨?_, ?_, ?_, ?_, ?_, ?_⟩ <;>
  · refine decodesAs_of_funct3 fun w hop h3 => ?_
    rw [decode_branch hop, decodeBranch, h3]; rfl

theorem decodesAs_load :
    DecodesAs 0x0000707F 0x00000003 (fun w => .lb (rdField w) (rs1Field w) (immIField w)) ∧
    DecodesAs 0x0000707F 0x00001003 (fun w => .lh (rdField w) (rs1Field w) (immIField w)) ∧
    DecodesAs 0x0000707F 0x00002003 (fun w => .lw (rdField w) (rs1Field w) (immIField w)) ∧
    DecodesAs 0x0000707F 0x00004003 (fun w => .lbu (rdField w) (rs1Field w) (immIField w)) ∧
    DecodesAs 0x0000707F 0x00005003 (fun w => .lhu (rdField w) (rs1Field w) (immIField w)) := by
  refine ⟨?_, ?_, ?_, ?_, ?_⟩ <;>
  · refine decodesAs_of_funct3 fun w hop h3 => ?_
    rw [decode_load hop, decodeLoad, h3]; rfl

theorem decodesAs_store :
    DecodesAs 0x0000707F 0x00000023 (fun w => .sb (rs2Field w) (rs1Field w) (immSField w)) ∧
    DecodesAs 0x0000707F 0x00001023 (fun w => .sh (rs2Field w) (rs1Field w) (immSField w)) ∧
    DecodesAs 0x0000707F 0x00002023 (fun w => .sw (rs2Field w) (rs1Field w) (immSField w)) := by
  refine ⟨?_, ?_, ?_⟩ <;>
  · refine decodesAs_of_funct3 fun w hop h3 => ?_
    rw [decode_store hop, decodeStore, h3]; rfl

theorem decodesAs_opImm :
    DecodesAs 0x0000707F 0x00000013 (fun w => .addi (rdField w) (rs1Field w) (immIField w)) ∧
    DecodesAs 0x0000707F 0x00002013 (fun w => .slti (rdField w) (rs1Field w) (immIField w)) ∧
    DecodesAs 0x0000707F 0x00003013 (fun w => .sltiu (rdField w) (rs1Field w) (immIField w)) ∧
    DecodesAs 0x0000707F 0x00004013 (fun w => .xori (rdField w) (rs1Field w) (immIField w)) ∧
    DecodesAs 0x0000707F 0x00006013 (fun w => .ori (rdField w) (rs1Field w) (immIField w)) ∧
    DecodesAs 0x0000707F 0x00007013 (fun w => .andi (rdField w) (rs1Field w) (immIField w)) := by
  refine ⟨?_, ?_, ?_, ?_, ?_, ?_⟩ <;>
  · refine decodesAs_of_funct3 fun w hop h3 => ?_
    rw [decode_opImm hop, decodeOpImm, h3]; rfl

theorem decodesAs_slli :
    DecodesAs 0xFE00707F 0x00001013 (fun w => .slli (rdField w) (rs1Field w) (shamtField w)) :=
  decodesAs_of_funct7 fun w hop h3 h7 => by rw [decode_shiftLeft hop h3, decodeShiftLeft, h7]; rfl

theorem decodesAs_shiftRight :
    DecodesAs 0xFE00707F 0x00005013 (fun w => .srli (rdField w) (rs1Field w) (shamtField w)) ∧
    DecodesAs 0xFE00707F 0x40005013 (fun w => .srai (rdField w) (rs1Field w) (shamtField w)) := by
  refine ⟨?_, ?_⟩ <;>
  · refine decodesAs_of_funct7 fun w hop h3 h7 => ?_
    rw [decode_shiftRight hop h3, decodeShiftRight, h7]; rfl

theorem decodesAs_op :
    DecodesAs 0xFE00707F 0x00000033 (fun w => .add (rdField w) (rs1Field w) (rs2Field w)) ∧
    DecodesAs 0xFE00707F 0x40000033 (fun w => .sub (rdField w) (rs1Field w) (rs2Field w)) ∧
    DecodesAs 0xFE00707F 0x00001033 (fun w => .sll (rdField w) (rs1Field w) (rs2Field w)) ∧
    DecodesAs 0xFE00707F 0x00002033 (fun w => .slt (rdField w) (rs1Field w) (rs2Field w)) ∧
    DecodesAs 0xFE00707F 0x00003033 (fun w => .sltu (rdField w) (rs1Field w) (rs2Field w)) ∧
    DecodesAs 0xFE00707F 0x00004033 (fun w => .xor (rdField w) (rs1Field w) (rs2Field w)) ∧
    DecodesAs 0xFE00707F 0x00005033 (fun w => .srl (rdField w) (rs1Field w) (rs2Field w)) ∧
    DecodesAs 0xFE00707F 0x40005033 (fun w => .sra (rdField w) (rs1Field w) (rs2Field w)) ∧
    DecodesAs 0xFE00707F 0x00006033 (fun w => .or (rdField w) (rs1Field w) (rs2Field w)) ∧
    DecodesAs 0xFE00707F 0x00007033 (fun w => .and (rdField w) (rs1Field w) (rs2Field w)) := by
  refine ⟨?_, ?_, ?_, ?_, ?_, ?_, ?_, ?_, ?_, ?_⟩ <;>
  · refine decodesAs_of_funct7 fun w hop h3 h7 => ?_
    rw [decode_op hop, decodeOp, h3, h7]; rfl

theorem decodesAs_fence : DecodesAs 0x0000707F 0x0000000F (fun _ => .fence) :=
  decodesAs_of_funct3 fun w hop h3 => by rw [decode_miscMem hop, decodeMiscMem, h3]; rfl

theorem decodesAs_system :
    DecodesAs 0xFFF0707F 0x00000073 (fun _ => .ecall) ∧ DecodesAs 0xFFF0707F 0x00100073 (fun _ => .ebreak) := by
  refine ⟨?_, ?_⟩ <;>
  · refine decodesAs_of_immI fun w hop h3 h12 => ?_
    rw [decode_system hop, decodeSystem, h3, h12]; rfl

/-! ## From a row to the decoder -/

/-- Every word of the row decodes, to instructions of the row's mnemonic only. -/
def RowDecodes (row : OpcodeRow) : Prop :=
  ∃ f : Word → Instr, DecodesAs row.mask row.bits f ∧ ∀ w, (f w).mnemonic = row.mnemonic

theorem rowDecodes_upperAndJumpRows : ∀ row ∈ upperAndJumpRows, RowDecodes row := by
  simp only [upperAndJumpRows, List.forall_mem_cons]
  exact ⟨⟨_, decodesAs_lui, fun _ => rfl⟩, ⟨_, decodesAs_auipc, fun _ => rfl⟩, ⟨_, decodesAs_jal, fun _ => rfl⟩,
    ⟨_, decodesAs_jalr, fun _ => rfl⟩, List.forall_mem_nil _⟩

theorem rowDecodes_branchRows : ∀ row ∈ branchRows, RowDecodes row := by
  obtain ⟨beq, bne, blt, bge, bltu, bgeu⟩ := decodesAs_branch
  simp only [branchRows, List.forall_mem_cons]
  exact ⟨⟨_, beq, fun _ => rfl⟩, ⟨_, bne, fun _ => rfl⟩, ⟨_, blt, fun _ => rfl⟩, ⟨_, bge, fun _ => rfl⟩,
    ⟨_, bltu, fun _ => rfl⟩, ⟨_, bgeu, fun _ => rfl⟩, List.forall_mem_nil _⟩

theorem rowDecodes_loadRows : ∀ row ∈ loadRows, RowDecodes row := by
  obtain ⟨lb, lh, lw, lbu, lhu⟩ := decodesAs_load
  simp only [loadRows, List.forall_mem_cons]
  exact ⟨⟨_, lb, fun _ => rfl⟩, ⟨_, lh, fun _ => rfl⟩, ⟨_, lw, fun _ => rfl⟩, ⟨_, lbu, fun _ => rfl⟩,
    ⟨_, lhu, fun _ => rfl⟩, List.forall_mem_nil _⟩

theorem rowDecodes_storeRows : ∀ row ∈ storeRows, RowDecodes row := by
  obtain ⟨sb, sh, sw⟩ := decodesAs_store
  simp only [storeRows, List.forall_mem_cons]
  exact ⟨⟨_, sb, fun _ => rfl⟩, ⟨_, sh, fun _ => rfl⟩, ⟨_, sw, fun _ => rfl⟩, List.forall_mem_nil _⟩

theorem rowDecodes_immediateRows : ∀ row ∈ immediateRows, RowDecodes row := by
  obtain ⟨addi, slti, sltiu, xori, ori, andi⟩ := decodesAs_opImm
  simp only [immediateRows, List.forall_mem_cons]
  exact ⟨⟨_, addi, fun _ => rfl⟩, ⟨_, slti, fun _ => rfl⟩, ⟨_, sltiu, fun _ => rfl⟩, ⟨_, xori, fun _ => rfl⟩,
    ⟨_, ori, fun _ => rfl⟩, ⟨_, andi, fun _ => rfl⟩, List.forall_mem_nil _⟩

theorem rowDecodes_immediateShiftRows : ∀ row ∈ immediateShiftRows, RowDecodes row := by
  obtain ⟨srli, srai⟩ := decodesAs_shiftRight
  simp only [immediateShiftRows, List.forall_mem_cons]
  exact ⟨⟨_, decodesAs_slli, fun _ => rfl⟩, ⟨_, srli, fun _ => rfl⟩, ⟨_, srai, fun _ => rfl⟩, List.forall_mem_nil _⟩

theorem rowDecodes_registerRows : ∀ row ∈ registerRows, RowDecodes row := by
  obtain ⟨add, sub, sll, slt, sltu, xor, srl, sra, or, and⟩ := decodesAs_op
  simp only [registerRows, List.forall_mem_cons]
  exact ⟨⟨_, add, fun _ => rfl⟩, ⟨_, sub, fun _ => rfl⟩, ⟨_, sll, fun _ => rfl⟩, ⟨_, slt, fun _ => rfl⟩,
    ⟨_, sltu, fun _ => rfl⟩, ⟨_, xor, fun _ => rfl⟩, ⟨_, srl, fun _ => rfl⟩, ⟨_, sra, fun _ => rfl⟩,
    ⟨_, or, fun _ => rfl⟩, ⟨_, and, fun _ => rfl⟩, List.forall_mem_nil _⟩

theorem rowDecodes_systemRows : ∀ row ∈ systemRows, RowDecodes row := by
  obtain ⟨ecall, ebreak⟩ := decodesAs_system
  simp only [systemRows, List.forall_mem_cons]
  exact ⟨⟨_, decodesAs_fence, fun _ => rfl⟩, ⟨_, ecall, fun _ => rfl⟩, ⟨_, ebreak, fun _ => rfl⟩,
    List.forall_mem_nil _⟩

theorem rowDecodes_opcodeTable : ∀ row ∈ opcodeTable, RowDecodes row := by
  simp only [opcodeTable, List.forall_mem_append, and_assoc]
  exact ⟨rowDecodes_upperAndJumpRows, rowDecodes_branchRows, rowDecodes_loadRows, rowDecodes_storeRows,
    rowDecodes_immediateRows, rowDecodes_immediateShiftRows, rowDecodes_registerRows, rowDecodes_systemRows⟩

/-! ## From the decoder to a row -/

/-- One of these rows is the instruction's own, and the word matches it. -/
def MatchesIn (rows : List OpcodeRow) (w : Word) (i : Instr) : Prop :=
  ∃ row ∈ rows, row.mnemonic = i.mnemonic ∧ w &&& row.mask = row.bits

theorem MatchesIn.mono {rows rows' : List OpcodeRow} {w : Word} {i : Instr} (h : MatchesIn rows w i)
    (hrows : rows ⊆ rows') : MatchesIn rows' w i := by
  obtain ⟨row, hrow, hmatch⟩ := h
  exact ⟨row, hrows hrow, hmatch⟩

section
variable {w : Word} {i : Instr}

theorem matchesIn_of_decodeLoad (hop : opcodeField w = 0b0000011#7) (h : decodeLoad w = .ok i) :
    MatchesIn loadRows w i := by
  unfold decodeLoad at h
  split at h <;> cases h <;> simp [MatchesIn, loadRows, Instr.mnemonic, and_funct3_mask_eq_iff, *]

theorem matchesIn_of_decodeStore (hop : opcodeField w = 0b0100011#7) (h : decodeStore w = .ok i) :
    MatchesIn storeRows w i := by
  unfold decodeStore at h
  split at h <;> cases h <;> simp [MatchesIn, storeRows, Instr.mnemonic, and_funct3_mask_eq_iff, *]

theorem matchesIn_of_decodeBranch (hop : opcodeField w = 0b1100011#7) (h : decodeBranch w = .ok i) :
    MatchesIn branchRows w i := by
  unfold decodeBranch at h
  split at h <;> cases h <;> simp [MatchesIn, branchRows, Instr.mnemonic, and_funct3_mask_eq_iff, *]

theorem matchesIn_of_decodeJalr (hop : opcodeField w = 0b1100111#7) (h : decodeJalr w = .ok i) :
    MatchesIn upperAndJumpRows w i := by
  unfold decodeJalr at h
  split at h <;> cases h
  simp [MatchesIn, upperAndJumpRows, Instr.mnemonic, and_funct3_mask_eq_iff, *]

theorem matchesIn_of_decodeMiscMem (hop : opcodeField w = 0b0001111#7) (h : decodeMiscMem w = .ok i) :
    MatchesIn systemRows w i := by
  unfold decodeMiscMem at h
  split at h <;> cases h
  simp [MatchesIn, systemRows, Instr.mnemonic, and_funct3_mask_eq_iff, *]

theorem matchesIn_of_decodeShiftLeft (hop : opcodeField w = 0b0010011#7) (h3 : funct3Field w = 0b001#3)
    (h : decodeShiftLeft w = .ok i) : MatchesIn immediateShiftRows w i := by
  unfold decodeShiftLeft at h
  split at h <;> cases h
  simp [MatchesIn, immediateShiftRows, Instr.mnemonic, and_funct7_mask_eq_iff, *]

theorem matchesIn_of_decodeShiftRight (hop : opcodeField w = 0b0010011#7) (h3 : funct3Field w = 0b101#3)
    (h : decodeShiftRight w = .ok i) : MatchesIn immediateShiftRows w i := by
  unfold decodeShiftRight at h
  split at h <;> cases h <;> simp [MatchesIn, immediateShiftRows, Instr.mnemonic, and_funct7_mask_eq_iff, *]

theorem matchesIn_of_decodeOpImm (hop : opcodeField w = 0b0010011#7) (h : decodeOpImm w = .ok i) :
    MatchesIn (immediateRows ++ immediateShiftRows) w i := by
  unfold decodeOpImm at h
  split at h
  case h_7 h3 => exact (matchesIn_of_decodeShiftLeft hop h3 h).mono (List.subset_append_right _ _)
  case h_8 h3 => exact (matchesIn_of_decodeShiftRight hop h3 h).mono (List.subset_append_right _ _)
  all_goals cases h
  all_goals simp [MatchesIn, immediateRows, Instr.mnemonic, and_funct3_mask_eq_iff, *]

theorem matchesIn_of_decodeOp (hop : opcodeField w = 0b0110011#7) (h : decodeOp w = .ok i) :
    MatchesIn registerRows w i := by
  unfold decodeOp at h
  split at h <;> cases h <;> simp [MatchesIn, registerRows, Instr.mnemonic, and_funct7_mask_eq_iff, *]

theorem matchesIn_of_decodeSystem (hop : opcodeField w = 0b1110011#7) (h : decodeSystem w = .ok i) :
    MatchesIn systemRows w i := by
  unfold decodeSystem at h
  split at h <;> cases h <;> simp [MatchesIn, systemRows, Instr.mnemonic, and_system_mask_eq_iff, *]

theorem matchesIn_of_decode (h : decode w = .ok i) : MatchesIn opcodeTable w i := by
  unfold decode at h
  split at h
  · exact (matchesIn_of_decodeLoad ‹_› h).mono (by decide)
  · exact (matchesIn_of_decodeMiscMem ‹_› h).mono (by decide)
  · exact (matchesIn_of_decodeOpImm ‹_› h).mono (by decide)
  · cases h
    exact ⟨⟨"AUIPC", 0x00000017, 0x0000007F⟩, by decide, rfl, (and_opcode_mask_eq_iff rfl).mpr ‹_›⟩
  · exact (matchesIn_of_decodeStore ‹_› h).mono (by decide)
  · exact (matchesIn_of_decodeOp ‹_› h).mono (by decide)
  · cases h
    exact ⟨⟨"LUI", 0x00000037, 0x0000007F⟩, by decide, rfl, (and_opcode_mask_eq_iff rfl).mpr ‹_›⟩
  · exact (matchesIn_of_decodeBranch ‹_› h).mono (by decide)
  · exact (matchesIn_of_decodeJalr ‹_› h).mono (by decide)
  · cases h
    exact ⟨⟨"JAL", 0x0000006F, 0x0000007F⟩, by decide, rfl, (and_opcode_mask_eq_iff rfl).mpr ‹_›⟩
  · exact (matchesIn_of_decodeSystem ‹_› h).mono (by decide)
  · cases h

end

/-- The mnemonics of the table's rows are its keys. -/
theorem row_eq_of_mnemonic_eq {row row' : OpcodeRow} (hrow : row ∈ opcodeTable) (hrow' : row' ∈ opcodeTable)
    (h : row.mnemonic = row'.mnemonic) : row = row' := by
  have hkeys : (opcodeTable.map OpcodeRow.mnemonic).Nodup := by decide
  exact List.inj_on_of_nodup_map hkeys hrow hrow' h

/-- Settles O6: a word of a row decodes to the row's mnemonic, and a word that decodes matches the row of its mnemonic,
which is the only one of that mnemonic. -/
theorem decodeAgreesWithOpcodeTable : Obligations.DecodeAgreesWithOpcodeTable := by
  unfold Obligations.DecodeAgreesWithOpcodeTable
  intro w row hrow
  constructor
  · intro hmatch
    obtain ⟨f, hdecodes, hmnemonic⟩ := rowDecodes_opcodeTable row hrow
    exact ⟨f w, hdecodes w hmatch, hmnemonic w⟩
  · rintro ⟨i, hdecode, hmnemonic⟩
    obtain ⟨row', hrow', hmnemonic', hmatch⟩ := matchesIn_of_decode hdecode
    rwa [row_eq_of_mnemonic_eq hrow hrow' (hmnemonic.symm.trans hmnemonic'.symm)]

/-! ## The immediates as sums of instruction bits
A field's signed reading is its number, less twice the weight of its top bit where that bit, `inst[31]`, is set. -/

theorem imm12_immIField_toInt (w : Word) :
    (imm12 (immIField w)).toInt = (w.extractLsb' 20 11).toNat - 2048 * ((w.extractLsb' 31 1).toNat : Int) := by
  rw [imm12_toInt, BitVec.toInt_eq_toNat_cond, immIField]
  simp only [BitVec.extractLsb'_toNat, Nat.shiftRight_eq_div_pow]
  split <;> omega

theorem imm12_immSField_toInt (w : Word) :
    (imm12 (immSField w)).toInt = (w.extractLsb' 7 5).toNat + 32 * (w.extractLsb' 25 6).toNat
      - 2048 * ((w.extractLsb' 31 1).toNat : Int) := by
  have hsign : w.toNat / 2 ^ 25 % 128 = w.toNat / 2 ^ 31 % 2 * 64 + w.toNat / 2 ^ 25 % 64 := by omega
  rw [imm12_toInt, BitVec.toInt_eq_toNat_cond, immSField_toNat, hsign]
  simp only [BitVec.extractLsb'_toNat, Nat.shiftRight_eq_div_pow]
  split <;> omega

theorem immB_immBField_toInt (w : Word) :
    (immB (immBField w)).toInt = 2 * (w.extractLsb' 8 4).toNat + 32 * (w.extractLsb' 25 6).toNat
      + 2048 * (w.extractLsb' 7 1).toNat - 4096 * ((w.extractLsb' 31 1).toNat : Int) := by
  rw [immB_toInt, BitVec.toInt_eq_toNat_cond, immBField_toNat]
  simp only [BitVec.extractLsb'_toNat, Nat.shiftRight_eq_div_pow]
  split <;> omega

theorem immJ_immJField_toInt (w : Word) :
    (immJ (immJField w)).toInt = 2 * (w.extractLsb' 21 10).toNat + 2048 * (w.extractLsb' 20 1).toNat
      + 4096 * (w.extractLsb' 12 8).toNat - 1048576 * ((w.extractLsb' 31 1).toNat : Int) := by
  rw [immJ_toInt, BitVec.toInt_eq_toNat_cond, immJField_toNat]
  simp only [BitVec.extractLsb'_toNat, Nat.shiftRight_eq_div_pow]
  split <;> omega

theorem immU_immUField (w : Word) : immU (immUField w) = w &&& 0xFFFFF000#32 :=
  calc immU (immUField w) = packU (immUField w) 0#5 0#7 := by
        apply BitVec.eq_of_toNat_eq
        simp [immU_toNat, packU_toNat]
    _ = packU (immUField w) (rdField w) (opcodeField w) &&& 0xFFFFF000#32 := (packU_and_upper_mask _ _ _).symm
    _ = w &&& 0xFFFFF000#32 := by rw [packU_fields]

theorem shamtField_toNat (w : Word) : (shamtField w).toNat = w.toNat / 2 ^ 20 % 32 := by
  rw [shamtField, BitVec.extractLsb'_toNat, Nat.shiftRight_eq_div_pow]

/-- Settles O8: one law for each immediate. -/
theorem immediatesAreAssembledFromTheirBits : Obligations.ImmediatesAreAssembledFromTheirBits := by
  unfold Obligations.ImmediatesAreAssembledFromTheirBits
  intro w
  exact ⟨imm12_immIField_toInt w, imm12_immSField_toInt w, immB_immBField_toInt w, immU_immUField w,
    immJ_immJField_toInt w, shamtField_toNat w⟩

end Sys2Proof.Machine
end

section
/-! SUPPORT. Proofs about the execution cycle (40_execution_cycle.md): `step` and `run` in Halted (R135, R137). -/

namespace Sys2Proof.Machine

theorem step_of_halted {s : State} (h : s.runState = .halted) : step s = .next s := by
  rw [step, h]

theorem run_of_halted {s : State} (h : s.runState = .halted) (n : Nat) : run n s = .next s := by
  cases n with
  | zero => rfl
  | succ n => rw [run, if_pos h]

/-- Settles O14: `step` looks at the run state first, and `run` stops before its first step. -/
theorem stepInHaltedChangesNothing : Obligations.StepInHaltedChangesNothing := by
  unfold Obligations.StepInHaltedChangesNothing
  exact fun s h => ⟨step_of_halted h, run_of_halted h⟩

end Sys2Proof.Machine
end

section
/-! SUPPORT. Proofs about the arithmetic and logic instructions (41_alu_register.md R141 to R151,
42_alu_immediate.md R160 to R169): what each operation computes, then what the instructions that call it write. -/

namespace Sys2Proof.Machine

/-! ## Sum and difference (R141, R142, R161) -/

theorem aluAdd_eq_ofNat (a b : Word) : aluAdd a b = BitVec.ofNat 32 (a.toNat + b.toNat) :=
  BitVec.add_def a b

theorem aluAdd_imm12_eq_ofInt (a : Word) (imm : BitVec 12) :
    aluAdd a (imm12 imm) = BitVec.ofInt 32 (a.toInt + imm.toInt) := by
  rw [← imm12_toInt, ofInt_toInt_add, aluAdd]

theorem aluSub_eq_ofInt (a b : Word) : aluSub a b = BitVec.ofInt 32 (a.toInt - b.toInt) := by
  apply BitVec.eq_of_toInt_eq
  rw [aluSub, BitVec.toInt_sub, BitVec.toInt_ofInt]

/-! ## Shifts (R143, R147, R148, R167 to R169) -/

theorem aluSll_eq_ofNat (a : Word) (amount : BitVec 5) :
    aluSll a amount = BitVec.ofNat 32 (a.toNat * 2 ^ amount.toNat) := by
  apply BitVec.eq_of_toNat_eq
  rw [aluSll, BitVec.toNat_shiftLeft, Nat.shiftLeft_eq, BitVec.toNat_ofNat]

theorem aluSrl_eq_ofNat (a : Word) (amount : BitVec 5) :
    aluSrl a amount = BitVec.ofNat 32 (a.toNat / 2 ^ amount.toNat) := by
  rw [aluSrl, ← Nat.shiftRight_eq_div_pow, ← BitVec.toNat_ushiftRight, BitVec.ofNat_toNat, BitVec.setWidth_eq]

theorem aluSra_eq_ofInt (a : Word) (amount : BitVec 5) :
    aluSra a amount = BitVec.ofInt 32 (a.toInt / 2 ^ amount.toNat) := by
  rw [aluSra, ← BitVec.ofInt_toInt (x := a.sshiftRight _), BitVec.toInt_sshiftRight, Int.shiftRight_eq_div_pow]
  norm_cast

/-- The low 5 bits of a register, as a number (R151). -/
theorem shiftAmount_toNat (v : Word) : (shiftAmount v).toNat = v.toNat % 32 :=
  BitVec.extractLsb'_toNat ..

/-! ## Comparisons (R144, R145, R162) -/

theorem truthValue_decide (p : Prop) [Decidable p] : truthValue (decide p) = if p then 1#32 else 0#32 := by
  simp only [truthValue, decide_eq_true_eq]

theorem aluSlt_eq_ite (a b : Word) : aluSlt a b = if a.toInt < b.toInt then 1#32 else 0#32 :=
  truthValue_decide _

theorem aluSlt_imm12_eq_ite (a : Word) (imm : BitVec 12) :
    aluSlt a (imm12 imm) = if a.toInt < imm.toInt then 1#32 else 0#32 := by
  rw [aluSlt_eq_ite, imm12_toInt]

theorem aluSltu_eq_ite (a b : Word) : aluSltu a b = if a.toNat < b.toNat then 1#32 else 0#32 :=
  truthValue_decide _

/-! ## Bits (R146, R149, R150, R164 to R166) -/

/-- Above bit 11 the extended immediate repeats it (R96). -/
theorem getLsbD_imm12 (imm : BitVec 12) {k : Nat} (hk : k < 32) :
    (imm12 imm).getLsbD k = imm.getLsbD (min k 11) := by
  rw [imm12, BitVec.getLsbD_signExtend, decide_eq_true hk, Bool.true_and]
  split
  · rw [Nat.min_eq_left (by omega)]
  · rw [Nat.min_eq_right (by omega), BitVec.msb_eq_getLsbD_last]

theorem getLsbD_aluXor (a b : Word) (k : Nat) : (aluXor a b).getLsbD k = (a.getLsbD k ^^ b.getLsbD k) :=
  BitVec.getLsbD_xor

theorem getLsbD_aluOr (a b : Word) (k : Nat) : (aluOr a b).getLsbD k = (a.getLsbD k || b.getLsbD k) :=
  BitVec.getLsbD_or

theorem getLsbD_aluAnd (a b : Word) (k : Nat) : (aluAnd a b).getLsbD k = (a.getLsbD k && b.getLsbD k) :=
  BitVec.getLsbD_and

/-! ## What the instructions write
Each is `writeResult` of its operation, by the definitions of `exec` and of the three shapes (R140, R143, R160). -/

theorem writeResult_spec_of_eq {v v' : Word} (rd : Reg) (s : State) (h : v = v') :
    ∃ t, writeResult rd v s = .next t ∧ WritesReg rd v' (s.pc + 4#32) s t :=
  h ▸ writeResult_spec rd v s

theorem writeResult_spec_of_bits {v : Word} {bit : Nat → Bool} (rd : Reg) (s : State)
    (h : ∀ k, k < 32 → v.getLsbD k = bit k) :
    ∃ t v', writeResult rd v s = .next t ∧ WritesReg rd v' (s.pc + 4#32) s t ∧ ∀ k, k < 32 → v'.getLsbD k = bit k := by
  obtain ⟨t, hnext, hwrites⟩ := writeResult_spec rd v s
  exact ⟨t, v, hnext, hwrites, h⟩

/-- Settles O16: the decoder's rows, then the sum and the difference as integers. -/
theorem addAndSubtractResults : Obligations.AddAndSubtractResults := by
  unfold Obligations.AddAndSubtractResults
  obtain ⟨add, sub, -⟩ := decodesAs_op
  obtain ⟨addi, -⟩ := decodesAs_opImm
  refine ⟨add, sub, addi, fun rd rs1 rs2 imm s => ⟨?add, ?sub, ?addi⟩⟩
  case add => exact writeResult_spec_of_eq rd s (aluAdd_eq_ofNat _ _)
  case sub => exact writeResult_spec_of_eq rd s (aluSub_eq_ofInt _ _)
  case addi => exact writeResult_spec_of_eq rd s (aluAdd_imm12_eq_ofInt _ _)

/-- Settles O17: each shift by its 5-bit amount, which a register gives modulo 32. -/
theorem shiftResults : Obligations.ShiftResults := by
  unfold Obligations.ShiftResults
  obtain ⟨-, -, sll, -, -, -, srl, sra, -, -⟩ := decodesAs_op
  obtain ⟨srli, srai⟩ := decodesAs_shiftRight
  refine ⟨sll, srl, sra, decodesAs_slli, srli, srai, fun rd rs1 rs2 shamt s => ?_⟩
  simp only [← shiftAmount_toNat]
  refine ⟨?sll, ?srl, ?sra, ?slli, ?srli, ?srai⟩
  case sll | slli => exact writeResult_spec_of_eq rd s (aluSll_eq_ofNat _ _)
  case srl | srli => exact writeResult_spec_of_eq rd s (aluSrl_eq_ofNat _ _)
  case sra | srai => exact writeResult_spec_of_eq rd s (aluSra_eq_ofInt _ _)

/-- Settles O18: a comparison's truth value is 1 or 0. -/
theorem comparisonResults : Obligations.ComparisonResults := by
  unfold Obligations.ComparisonResults
  obtain ⟨-, -, -, slt, sltu, -⟩ := decodesAs_op
  obtain ⟨-, slti, -⟩ := decodesAs_opImm
  refine ⟨slt, sltu, slti, fun rd rs1 rs2 imm s => ⟨?slt, ?sltu, ?slti⟩⟩
  case slt => exact writeResult_spec_of_eq rd s (aluSlt_eq_ite _ _)
  case sltu => exact writeResult_spec_of_eq rd s (aluSltu_eq_ite _ _)
  case slti => exact writeResult_spec_of_eq rd s (aluSlt_imm12_eq_ite _ _)

/-- Settles O20: each operation bit by bit, the immediate's bits by sign extension. -/
theorem bitwiseResults : Obligations.BitwiseResults := by
  unfold Obligations.BitwiseResults
  obtain ⟨-, -, -, -, -, xor, -, -, or, and⟩ := decodesAs_op
  obtain ⟨-, -, -, xori, ori, andi⟩ := decodesAs_opImm
  refine ⟨xor, or, and, xori, ori, andi, fun rd rs1 rs2 imm s => ⟨?xor, ?or, ?and, ?xori, ?ori, ?andi⟩⟩
  case xor => exact writeResult_spec_of_bits rd s fun k _ => getLsbD_aluXor _ _ k
  case or => exact writeResult_spec_of_bits rd s fun k _ => getLsbD_aluOr _ _ k
  case and => exact writeResult_spec_of_bits rd s fun k _ => getLsbD_aluAnd _ _ k
  case xori => exact writeResult_spec_of_bits rd s fun k hk => getLsbD_imm12 imm hk ▸ getLsbD_aluXor _ _ k
  case ori => exact writeResult_spec_of_bits rd s fun k hk => getLsbD_imm12 imm hk ▸ getLsbD_aluOr _ _ k
  case andi => exact writeResult_spec_of_bits rd s fun k hk => getLsbD_imm12 imm hk ▸ getLsbD_aluAnd _ _ k

end Sys2Proof.Machine
end

section
/-! SUPPORT. Proofs about the conditional branches (45_branches.md R200 to R206): what each condition says of the two
patterns, then where the branch that tests it goes. -/

namespace Sys2Proof.Machine

/-! ## The conditions -/

theorem beq_eq_true_iff_toNat_eq (a b : Word) : (a == b) = true ↔ a.toNat = b.toNat :=
  beq_iff_eq.trans BitVec.toNat_inj.symm

theorem bne_eq_true_iff_toNat_ne (a b : Word) : (a != b) = true ↔ ¬ a.toNat = b.toNat :=
  bne_iff_ne.trans (not_congr BitVec.toNat_inj.symm)

theorem lessSigned_eq_true_iff (a b : Word) : lessSigned a b = true ↔ a.toInt < b.toInt :=
  BitVec.slt_iff_toInt_lt

theorem not_lessSigned_eq_true_iff (a b : Word) : (!lessSigned a b) = true ↔ b.toInt ≤ a.toInt := by
  rw [Bool.not_eq_true', ← Bool.not_eq_true, lessSigned_eq_true_iff, Int.not_lt]

theorem lessUnsigned_eq_true_iff (a b : Word) : lessUnsigned a b = true ↔ a.toNat < b.toNat :=
  BitVec.ult_iff_toNat_lt

theorem not_lessUnsigned_eq_true_iff (a b : Word) : (!lessUnsigned a b) = true ↔ b.toNat ≤ a.toNat := by
  rw [Bool.not_eq_true', ← Bool.not_eq_true, lessUnsigned_eq_true_iff, Nat.not_lt]

/-! ## Where a branch goes
Each instruction is `branch` of its condition, by the definition of `exec` (R200). -/

theorem branch_spec_of_iff {taken : Bool} {p : Prop} [Decidable p] (offset : BitVec 13) (s : State)
    (h : taken = true ↔ p) :
    ∃ t, branch taken offset s = .next t ∧
      MovesPc (if p then BitVec.ofInt 32 (s.pc.toInt + offset.toInt) else s.pc + 4#32) s t := by
  rw [← branchTarget_eq, ← if_congr h rfl rfl]
  exact branch_spec taken offset s

/-- Settles O24: the decoder's rows, then equal patterns are equal numbers; BNE's condition is the negation of BEQ's. -/
theorem equalityBranches : Obligations.EqualityBranches := by
  unfold Obligations.EqualityBranches
  obtain ⟨beq, bne, -⟩ := decodesAs_branch
  refine ⟨beq, bne, fun rs1 rs2 offset s => ⟨?beq, ?bne⟩⟩
  case beq => exact branch_spec_of_iff offset s (beq_eq_true_iff_toNat_eq _ _)
  case bne =>
    simp only [← ite_not (_ = _)]
    exact branch_spec_of_iff offset s (bne_eq_true_iff_toNat_ne _ _)

/-- Settles O25: the signed comparison for BLT, its negation for BGE. -/
theorem signedBranches : Obligations.SignedBranches := by
  unfold Obligations.SignedBranches
  obtain ⟨-, -, blt, bge, -⟩ := decodesAs_branch
  refine ⟨blt, bge, fun rs1 rs2 offset s => ⟨?blt, ?bge⟩⟩
  case blt => exact branch_spec_of_iff offset s (lessSigned_eq_true_iff _ _)
  case bge => exact branch_spec_of_iff offset s (not_lessSigned_eq_true_iff _ _)

/-- Settles O26: the unsigned comparison for BLTU, its negation for BGEU. -/
theorem unsignedBranches : Obligations.UnsignedBranches := by
  unfold Obligations.UnsignedBranches
  obtain ⟨-, -, -, -, bltu, bgeu⟩ := decodesAs_branch
  refine ⟨bltu, bgeu, fun rs1 rs2 offset s => ⟨?bltu, ?bgeu⟩⟩
  case bltu => exact branch_spec_of_iff offset s (lessUnsigned_eq_true_iff _ _)
  case bgeu => exact branch_spec_of_iff offset s (not_lessUnsigned_eq_true_iff _ _)

end Sys2Proof.Machine
end

section
/-! SUPPORT. Proofs about the upper-immediate instructions (46_upper_immediate.md R215, R216): the two values as
numbers, then the instructions that write them. -/

namespace Sys2Proof.Machine

theorem immU_eq_ofNat (imm20 : BitVec 20) : immU imm20 = BitVec.ofNat 32 (imm20.toNat * 4096) := by
  rw [← immU_toNat, BitVec.ofNat_toNat, BitVec.setWidth_eq]

theorem add_immU_eq_ofNat (pc : Word) (imm20 : BitVec 20) :
    pc + immU imm20 = BitVec.ofNat 32 (pc.toNat + imm20.toNat * 4096) := by
  rw [BitVec.add_def, immU_toNat]

/-- Settles O21: the decoder's rows, then each instruction is `writeResult` of its value, by the definition of `exec`. -/
theorem upperImmediateResults : Obligations.UpperImmediateResults := by
  unfold Obligations.UpperImmediateResults
  refine ⟨decodesAs_lui, decodesAs_auipc, fun rd imm20 s => ⟨?lui, ?auipc⟩⟩
  case lui => exact writeResult_spec_of_eq rd s (immU_eq_ofNat imm20)
  case auipc => exact writeResult_spec_of_eq rd s (add_immU_eq_ofNat s.pc imm20)

end Sys2Proof.Machine
end

section
/-! SUPPORT. Proofs about the unconditional jumps (47_jumps.md R220 to R223): each is `linkAndJump` to its target. -/

namespace Sys2Proof.Machine

/-- JAL checks nothing about its target (R223), so one frame holds for every offset. -/
theorem execJal_spec (rd : Reg) (offset : BitVec 21) (s : State) :
    ∃ t, execJal rd offset s = .next t ∧
      WritesReg rd (s.pc + 4#32) (BitVec.ofInt 32 (s.pc.toInt + offset.toInt)) s t := by
  rw [← jalTarget_eq]
  exact linkAndJump_spec rd (jalTarget s offset) s

/-- Settles O22: the decoder's row, then `exec` runs JAL as `execJal`. -/
theorem jalLinksAndJumps : Obligations.JalLinksAndJumps := by
  unfold Obligations.JalLinksAndJumps
  exact ⟨decodesAs_jal, execJal_spec⟩

end Sys2Proof.Machine
end

section
/-! SUPPORT. Proofs about the text console (60_exceptions.md R262, R265): the byte that ends a line, then what the next
row is above the last one and on it. -/

namespace Sys2Proof.Machine

theorem put_lineEnd (h : List EnvEvent) (c : TextConsole) {b : Byte} (hb : b = 0x0D#8 ∨ b = 0x0A#8) :
    TextConsole.put h c b = TextConsole.newline h c := by
  rcases hb with rfl | rfl <;> rfl

theorem newline_of_row_lt {c : TextConsole} (h : List EnvEvent) (hrow : c.row.val < 24) :
    TextConsole.newline h c = { c with col := 0, row := ⟨c.row.val + 1, Nat.succ_lt_succ hrow⟩ } :=
  dif_pos (Nat.succ_lt_succ hrow)

theorem newline_of_row_eq {c : TextConsole} (h : List EnvEvent) (hrow : c.row.val = 24) :
    TextConsole.newline h c = { c with col := 0, cells := TextConsole.scrolled h c } :=
  dif_neg (by omega)

@[simp] theorem newline_col (h : List EnvEvent) (c : TextConsole) : (TextConsole.newline h c).col = 0 := by
  unfold TextConsole.newline
  split <;> rfl

/-- Settles O59: both bytes are `newline`, which takes the next row above row 24 and scrolls on it. -/
theorem lineEndsMoveToNextRowOrScroll : Obligations.LineEndsMoveToNextRowOrScroll := by
  unfold Obligations.LineEndsMoveToNextRowOrScroll
  intro h c b hb
  rw [put_lineEnd h c hb]
  refine ⟨congrArg Fin.val (newline_col h c), fun hrow => ?nextRow, fun hrow => ?scroll⟩
  case nextRow =>
    rw [newline_of_row_lt h hrow]
    exact ⟨rfl, rfl⟩
  case scroll =>
    rw [newline_of_row_eq h hrow]
    exact ⟨hrow, fun r next col => cellAt_scrolled h c col r next⟩

end Sys2Proof.Machine
end

section
/-! SUPPORT. Proofs about the encoding (30_encoding.md): decoding undoes encoding and the other way round (R90, R92),
and which words are rejected (R105). -/

namespace Sys2Proof.Machine

/-! ## A packed word decodes to its operands
One lemma for each format: the fixed bits are those of the row (R104), the operands are the fields that were packed
(R92). -/

section
variable {bits : Word} {f7 : BitVec 7} {f3 : BitVec 3} {op : BitVec 7}

theorem decode_packR {f : Reg → Reg → Reg → Instr}
    (h : DecodesAs 0xFE00707F bits fun w => f (rdField w) (rs1Field w) (rs2Field w))
    (hbits : packR f7 0#5 0#5 f3 0#5 op = bits) (rd rs1 rs2 : Reg) :
    decode (packR f7 rs2 rs1 f3 rd op) = .ok (f rd rs1 rs2) := by
  rw [h _ ((packR_and_mask ..).trans hbits)]
  simp only [rdField_packR, rs1Field_packR, rs2Field_packR]

theorem decode_packR_shamt {f : Reg → Reg → BitVec 5 → Instr}
    (h : DecodesAs 0xFE00707F bits fun w => f (rdField w) (rs1Field w) (shamtField w))
    (hbits : packR f7 0#5 0#5 f3 0#5 op = bits) (rd rs1 : Reg) (shamt : BitVec 5) :
    decode (packR f7 shamt rs1 f3 rd op) = .ok (f rd rs1 shamt) := by
  rw [h _ ((packR_and_mask ..).trans hbits)]
  simp only [rdField_packR, rs1Field_packR, shamtField_packR]

theorem decode_packI {f : Reg → Reg → BitVec 12 → Instr}
    (h : DecodesAs 0x0000707F bits fun w => f (rdField w) (rs1Field w) (immIField w))
    (hbits : packI 0#12 0#5 f3 0#5 op = bits) (rd rs1 : Reg) (imm : BitVec 12) :
    decode (packI imm rs1 f3 rd op) = .ok (f rd rs1 imm) := by
  rw [h _ ((packI_and_mask ..).trans hbits)]
  simp only [rdField_packI, rs1Field_packI, immIField_packI]

theorem decode_packS {f : Reg → Reg → BitVec 12 → Instr}
    (h : DecodesAs 0x0000707F bits fun w => f (rs2Field w) (rs1Field w) (immSField w))
    (hbits : packR 0#7 0#5 0#5 f3 0#5 op = bits) (rs2 rs1 : Reg) (imm : BitVec 12) :
    decode (packS imm rs2 rs1 f3 op) = .ok (f rs2 rs1 imm) := by
  have hread := h (packS imm rs2 rs1 f3 op) ((packR_and_short_mask ..).trans hbits)
  simp only [immSField_packS] at hread
  rwa [packS_eq_packR, rs1Field_packR, rs2Field_packR] at hread

theorem decode_packB {f : Reg → Reg → BitVec 13 → Instr}
    (h : DecodesAs 0x0000707F bits fun w => f (rs1Field w) (rs2Field w) (immBField w))
    (hbits : packB 0#13 0#5 0#5 f3 op = bits) (rs1 rs2 : Reg) {offset : BitVec 13} (heven : evenOffset offset = true) :
    decode (packB offset rs2 rs1 f3 op) = .ok (f rs1 rs2 offset) := by
  rw [h _ ((packB_and_mask ..).trans hbits)]
  simp only [rs1Field_packB, rs2Field_packB, immBField_packB _ _ _ _ _ (beq_iff_eq.mp heven)]

theorem decode_packU {f : Reg → BitVec 20 → Instr}
    (h : DecodesAs 0x0000007F bits fun w => f (rdField w) (immUField w))
    (hbits : packU 0#20 0#5 op = bits) (rd : Reg) (imm20 : BitVec 20) :
    decode (packU imm20 rd op) = .ok (f rd imm20) := by
  rw [h _ ((packU_and_mask ..).trans hbits)]
  simp only [rdField_packU, immUField_packU]

theorem decode_packJ {f : Reg → BitVec 21 → Instr}
    (h : DecodesAs 0x0000007F bits fun w => f (rdField w) (immJField w))
    (hbits : packJ 0#21 0#5 op = bits) (rd : Reg) {offset : BitVec 21} (heven : evenOffset offset = true) :
    decode (packJ offset rd op) = .ok (f rd offset) := by
  rw [h _ ((packJ_and_mask ..).trans hbits)]
  simp only [rdField_packJ, immJField_packJ _ _ _ (beq_iff_eq.mp heven)]

end

theorem decode_encode {i : Instr} (h : i.wellFormed = true) : decode (encode i) = .ok i := by
  obtain ⟨add, sub, sll, slt, sltu, xor, srl, sra, or, and⟩ := decodesAs_op
  obtain ⟨addi, slti, sltiu, xori, ori, andi⟩ := decodesAs_opImm
  obtain ⟨srli, srai⟩ := decodesAs_shiftRight
  obtain ⟨lb, lh, lw, lbu, lhu⟩ := decodesAs_load
  obtain ⟨sb, sh, sw⟩ := decodesAs_store
  obtain ⟨beq, bne, blt, bge, bltu, bgeu⟩ := decodesAs_branch
  cases i with
  | add rd rs1 rs2 => exact decode_packR add rfl rd rs1 rs2
  | sub rd rs1 rs2 => exact decode_packR sub rfl rd rs1 rs2
  | sll rd rs1 rs2 => exact decode_packR sll rfl rd rs1 rs2
  | slt rd rs1 rs2 => exact decode_packR slt rfl rd rs1 rs2
  | sltu rd rs1 rs2 => exact decode_packR sltu rfl rd rs1 rs2
  | xor rd rs1 rs2 => exact decode_packR xor rfl rd rs1 rs2
  | srl rd rs1 rs2 => exact decode_packR srl rfl rd rs1 rs2
  | sra rd rs1 rs2 => exact decode_packR sra rfl rd rs1 rs2
  | or rd rs1 rs2 => exact decode_packR or rfl rd rs1 rs2
  | and rd rs1 rs2 => exact decode_packR and rfl rd rs1 rs2
  | addi rd rs1 imm => exact decode_packI addi rfl rd rs1 imm
  | slti rd rs1 imm => exact decode_packI slti rfl rd rs1 imm
  | sltiu rd rs1 imm => exact decode_packI sltiu rfl rd rs1 imm
  | xori rd rs1 imm => exact decode_packI xori rfl rd rs1 imm
  | ori rd rs1 imm => exact decode_packI ori rfl rd rs1 imm
  | andi rd rs1 imm => exact decode_packI andi rfl rd rs1 imm
  | slli rd rs1 shamt => exact decode_packR_shamt decodesAs_slli rfl rd rs1 shamt
  | srli rd rs1 shamt => exact decode_packR_shamt srli rfl rd rs1 shamt
  | srai rd rs1 shamt => exact decode_packR_shamt srai rfl rd rs1 shamt
  | lb rd rs1 imm => exact decode_packI lb rfl rd rs1 imm
  | lh rd rs1 imm => exact decode_packI lh rfl rd rs1 imm
  | lw rd rs1 imm => exact decode_packI lw rfl rd rs1 imm
  | lbu rd rs1 imm => exact decode_packI lbu rfl rd rs1 imm
  | lhu rd rs1 imm => exact decode_packI lhu rfl rd rs1 imm
  | sb rs2 rs1 imm => exact decode_packS sb rfl rs2 rs1 imm
  | sh rs2 rs1 imm => exact decode_packS sh rfl rs2 rs1 imm
  | sw rs2 rs1 imm => exact decode_packS sw rfl rs2 rs1 imm
  | beq rs1 rs2 offset => exact decode_packB beq rfl rs1 rs2 h
  | bne rs1 rs2 offset => exact decode_packB bne rfl rs1 rs2 h
  | blt rs1 rs2 offset => exact decode_packB blt rfl rs1 rs2 h
  | bge rs1 rs2 offset => exact decode_packB bge rfl rs1 rs2 h
  | bltu rs1 rs2 offset => exact decode_packB bltu rfl rs1 rs2 h
  | bgeu rs1 rs2 offset => exact decode_packB bgeu rfl rs1 rs2 h
  | lui rd imm20 => exact decode_packU decodesAs_lui rfl rd imm20
  | auipc rd imm20 => exact decode_packU decodesAs_auipc rfl rd imm20
  | jal rd offset => exact decode_packJ decodesAs_jal rfl rd h
  | jalr rd rs1 imm => exact decode_packI decodesAs_jalr rfl rd rs1 imm
  | ecall => exact decodesAs_system.1 _ rfl
  | ebreak => exact decodesAs_system.2 _ rfl
  | fence => exact decodesAs_fence _ rfl

/-- Four bytes of memory decode as their little-endian word does (R90). -/
theorem decodeBytes_bytesOf {w : Word} {i : Instr} (h : decode w = .ok i) (rest : List Byte) :
    decodeBytes (bytesOf 4 w.toNat ++ rest) = .ok (i, rest) := by
  have hword : BitVec.ofNat 32 (littleEndian (bytesOf 4 w.toNat)) = w := by
    rw [littleEndian_bytesOf, show 256 ^ 4 = 2 ^ 32 by rfl, Nat.mod_eq_of_lt w.isLt, BitVec.ofNat_toNat,
      BitVec.setWidth_eq]
  simp only [bytesOf] at hword
  simp only [bytesOf, List.cons_append, List.nil_append, decodeBytes, hword, h]

/-- Settles O4: the word by its format, the bytes by the word they make. -/
theorem decodeOfEncodeGivesInstruction : Obligations.DecodeOfEncodeGivesInstruction := by
  unfold Obligations.DecodeOfEncodeGivesInstruction
  exact fun i h => ⟨decode_encode h, decodeBytes_bytesOf (decode_encode h)⟩

/-! ## Encoding what was decoded -/

theorem packS_fields (w : Word) :
    packS (immSField w) (rs2Field w) (rs1Field w) (funct3Field w) (opcodeField w) = w := by
  have hhigh : (immSField w).extractLsb' 5 7 = funct7Field w := by
    apply BitVec.eq_of_toNat_eq
    simp only [funct7Field, BitVec.extractLsb'_toNat, immSField_toNat, Nat.shiftRight_eq_div_pow]
    omega
  have hlow : (immSField w).extractLsb' 0 5 = rdField w := by
    apply BitVec.eq_of_toNat_eq
    simp only [rdField, BitVec.extractLsb'_toNat, immSField_toNat, Nat.shiftRight_eq_div_pow]
    omega
  rw [packS_eq_packR, hhigh, hlow, packR_fields]

/-- The four parts of a B immediate, each read back from their sum (R98). -/
theorem immBField_parts (w : Word) :
    (immBField w).toNat / 4096 = w.toNat / 2 ^ 31 % 2 ∧ (immBField w).toNat / 2048 % 2 = w.toNat / 2 ^ 7 % 2 ∧
      (immBField w).toNat / 32 % 64 = w.toNat / 2 ^ 25 % 64 ∧ (immBField w).toNat / 2 % 16 = w.toNat / 2 ^ 8 % 16 := by
  rw [immBField_toNat]
  have h1 : w.toNat / 2 ^ 31 % 2 < 2 := Nat.mod_lt _ (by decide)
  have h2 : w.toNat / 2 ^ 7 % 2 < 2 := Nat.mod_lt _ (by decide)
  have h3 : w.toNat / 2 ^ 25 % 64 < 64 := Nat.mod_lt _ (by decide)
  have h4 : w.toNat / 2 ^ 8 % 16 < 16 := Nat.mod_lt _ (by decide)
  generalize w.toNat / 2 ^ 31 % 2 = p at *
  generalize w.toNat / 2 ^ 7 % 2 = q at *
  generalize w.toNat / 2 ^ 25 % 64 = r at *
  generalize w.toNat / 2 ^ 8 % 16 = t at *
  omega

theorem packB_fields (w : Word) :
    packB (immBField w) (rs2Field w) (rs1Field w) (funct3Field w) (opcodeField w) = w := by
  obtain ⟨hp, hq, hr, ht⟩ := immBField_parts w
  apply BitVec.eq_of_toNat_eq
  simp only [packB_toNat, hp, hq, hr, ht, rs2Field, rs1Field, funct3Field, opcodeField, BitVec.extractLsb'_toNat,
    Nat.shiftRight_eq_div_pow]
  clear hp hq hr ht
  omega

/-- The four parts of a J immediate, each read back from their sum (R100). -/
theorem immJField_parts (w : Word) :
    (immJField w).toNat / 1048576 % 2 = w.toNat / 2 ^ 31 % 2 ∧
      (immJField w).toNat / 4096 % 256 = w.toNat / 2 ^ 12 % 256 ∧
      (immJField w).toNat / 2048 % 2 = w.toNat / 2 ^ 20 % 2 ∧
      (immJField w).toNat / 2 % 1024 = w.toNat / 2 ^ 21 % 1024 := by
  rw [immJField_toNat]
  have h1 : w.toNat / 2 ^ 31 % 2 < 2 := Nat.mod_lt _ (by decide)
  have h2 : w.toNat / 2 ^ 12 % 256 < 256 := Nat.mod_lt _ (by decide)
  have h3 : w.toNat / 2 ^ 20 % 2 < 2 := Nat.mod_lt _ (by decide)
  have h4 : w.toNat / 2 ^ 21 % 1024 < 1024 := Nat.mod_lt _ (by decide)
  generalize w.toNat / 2 ^ 31 % 2 = p at *
  generalize w.toNat / 2 ^ 12 % 256 = q at *
  generalize w.toNat / 2 ^ 20 % 2 = r at *
  generalize w.toNat / 2 ^ 21 % 1024 = t at *
  omega

theorem packJ_fields (w : Word) : packJ (immJField w) (rdField w) (opcodeField w) = w := by
  obtain ⟨hp, hq, hr, ht⟩ := immJField_parts w
  apply BitVec.eq_of_toNat_eq
  simp only [packJ_toNat, hp, hq, hr, ht, rdField, opcodeField, BitVec.extractLsb'_toNat, Nat.shiftRight_eq_div_pow]
  clear hp hq hr ht
  omega

/-- What the decoder reads from a word is a well-formed instruction, and the word is its encoding but for the three that
leave bits of their words unread (R105). -/
def EncodesTo (i : Instr) (w : Word) : Prop :=
  i.wellFormed = true ∧ (i ≠ .ecall → i ≠ .ebreak → i ≠ .fence → encode i = w)

section
variable {w : Word} {i : Instr}

theorem evenOffset_immBField (w : Word) : evenOffset (immBField w) = true := by
  rw [evenOffset, immBField, BitVec.getLsbD_append]
  rfl

theorem evenOffset_immJField (w : Word) : evenOffset (immJField w) = true := by
  rw [evenOffset, immJField, BitVec.getLsbD_append]
  rfl

theorem encodesTo_of_decodeLoad (hop : opcodeField w = 0b0000011#7) (h : decodeLoad w = .ok i) : EncodesTo i w := by
  have hword := packI_fields w
  unfold decodeLoad at h
  split at h <;> cases h
  all_goals rename_i h3; rw [hop, h3] at hword; exact ⟨rfl, fun _ _ _ => hword⟩

theorem encodesTo_of_decodeStore (hop : opcodeField w = 0b0100011#7) (h : decodeStore w = .ok i) : EncodesTo i w := by
  have hword := packS_fields w
  unfold decodeStore at h
  split at h <;> cases h
  all_goals rename_i h3; rw [hop, h3] at hword; exact ⟨rfl, fun _ _ _ => hword⟩

theorem encodesTo_of_decodeBranch (hop : opcodeField w = 0b1100011#7) (h : decodeBranch w = .ok i) : EncodesTo i w := by
  have hword := packB_fields w
  unfold decodeBranch at h
  split at h <;> cases h
  all_goals rename_i h3; rw [hop, h3] at hword; exact ⟨evenOffset_immBField w, fun _ _ _ => hword⟩

theorem encodesTo_of_decodeJalr (hop : opcodeField w = 0b1100111#7) (h : decodeJalr w = .ok i) : EncodesTo i w := by
  have hword := packI_fields w
  unfold decodeJalr at h
  split at h <;> cases h
  rename_i h3
  rw [hop, h3] at hword
  exact ⟨rfl, fun _ _ _ => hword⟩

theorem encodesTo_of_decodeShiftLeft (hop : opcodeField w = 0b0010011#7) (h3 : funct3Field w = 0b001#3)
    (h : decodeShiftLeft w = .ok i) : EncodesTo i w := by
  have hword := packR_fields w
  unfold decodeShiftLeft at h
  split at h <;> cases h
  rename_i h7
  rw [hop, h3, h7] at hword
  exact ⟨rfl, fun _ _ _ => hword⟩

theorem encodesTo_of_decodeShiftRight (hop : opcodeField w = 0b0010011#7) (h3 : funct3Field w = 0b101#3)
    (h : decodeShiftRight w = .ok i) : EncodesTo i w := by
  have hword := packR_fields w
  unfold decodeShiftRight at h
  split at h <;> cases h
  all_goals rename_i h7; rw [hop, h3, h7] at hword; exact ⟨rfl, fun _ _ _ => hword⟩

theorem encodesTo_of_decodeOpImm (hop : opcodeField w = 0b0010011#7) (h : decodeOpImm w = .ok i) : EncodesTo i w := by
  have hword := packI_fields w
  unfold decodeOpImm at h
  split at h
  case h_7 h3 => exact encodesTo_of_decodeShiftLeft hop h3 h
  case h_8 h3 => exact encodesTo_of_decodeShiftRight hop h3 h
  all_goals cases h
  all_goals rename_i h3; rw [hop, h3] at hword; exact ⟨rfl, fun _ _ _ => hword⟩

theorem encodesTo_of_decodeOp (hop : opcodeField w = 0b0110011#7) (h : decodeOp w = .ok i) : EncodesTo i w := by
  have hword := packR_fields w
  unfold decodeOp at h
  split at h <;> cases h
  all_goals rename_i h7 h3; rw [hop, h3, h7] at hword; exact ⟨rfl, fun _ _ _ => hword⟩

/-- FENCE, whose other bits decode does not read (R113). -/
theorem encodesTo_of_decodeMiscMem (h : decodeMiscMem w = .ok i) : EncodesTo i w := by
  unfold decodeMiscMem at h
  split at h <;> cases h
  exact ⟨rfl, fun _ _ hfence => absurd rfl hfence⟩

/-- ECALL and EBREAK, whose rd and rs1 decode does not read (R112). -/
theorem encodesTo_of_decodeSystem (h : decodeSystem w = .ok i) : EncodesTo i w := by
  unfold decodeSystem at h
  split at h <;> cases h
  · exact ⟨rfl, fun hecall _ _ => absurd rfl hecall⟩
  · exact ⟨rfl, fun _ hebreak _ => absurd rfl hebreak⟩

theorem encodesTo_of_decode (h : decode w = .ok i) : EncodesTo i w := by
  unfold decode at h
  split at h
  case h_1 hop => exact encodesTo_of_decodeLoad hop h
  case h_2 => exact encodesTo_of_decodeMiscMem h
  case h_3 hop => exact encodesTo_of_decodeOpImm hop h
  case h_4 hop =>
    cases h
    have hword := packU_fields w
    rw [hop] at hword
    exact ⟨rfl, fun _ _ _ => hword⟩
  case h_5 hop => exact encodesTo_of_decodeStore hop h
  case h_6 hop => exact encodesTo_of_decodeOp hop h
  case h_7 hop =>
    cases h
    have hword := packU_fields w
    rw [hop] at hword
    exact ⟨rfl, fun _ _ _ => hword⟩
  case h_8 hop => exact encodesTo_of_decodeBranch hop h
  case h_9 hop => exact encodesTo_of_decodeJalr hop h
  case h_10 hop =>
    cases h
    have hword := packJ_fields w
    rw [hop] at hword
    exact ⟨evenOffset_immJField w, fun _ _ _ => hword⟩
  case h_11 => exact encodesTo_of_decodeSystem h
  case h_12 => cases h

end

/-- Settles O5: the word is the packing of its fields, of which decode has read all but those of ECALL, EBREAK and
FENCE. -/
theorem encodeOfDecodeGivesWord : Obligations.EncodeOfDecodeGivesWord := by
  unfold Obligations.EncodeOfDecodeGivesWord
  exact fun w i h => encodesTo_of_decode h

/-! ## Rejection -/

/-- Settles O7: a word of a row decodes and a word that decodes is of a row, so the others are rejected; two rows of one
word have its mnemonic. -/
theorem decodeRejectsExactlyUnmatchedWords : Obligations.DecodeRejectsExactlyUnmatchedWords := by
  unfold Obligations.DecodeRejectsExactlyUnmatchedWords
  intro w
  refine ⟨⟨?unmatched, ?rejected⟩, ?unique⟩
  case unmatched =>
    rintro ⟨r, hreject⟩ row hrow hmatch
    obtain ⟨f, hdecodes, -⟩ := rowDecodes_opcodeTable row hrow
    rw [hdecodes w hmatch] at hreject
    cases hreject
  case rejected =>
    intro hnone
    cases hdecode : decode w with
    | error r => exact ⟨r, rfl⟩
    | ok i =>
      obtain ⟨row, hrow, -, hmatch⟩ := matchesIn_of_decode hdecode
      exact absurd hmatch (hnone row hrow)
  case unique =>
    intro row hrow row' hrow' hmatch hmatch'
    obtain ⟨i, hdecode, hmnemonic⟩ := (decodeAgreesWithOpcodeTable w row hrow).mp hmatch
    obtain ⟨i', hdecode', hmnemonic'⟩ := (decodeAgreesWithOpcodeTable w row' hrow').mp hmatch'
    obtain rfl : i = i' := Except.ok.inj (hdecode.symm.trans hdecode')
    exact row_eq_of_mnemonic_eq hrow hrow' (hmnemonic.symm.trans hmnemonic')

/-- Settles O9: the decoder run on each word. -/
theorem sampleWordsDecode : Obligations.SampleWordsDecode := by
  unfold Obligations.SampleWordsDecode
  decide

end Sys2Proof.Machine
end

section
/-! SUPPORT. Proofs about what every step keeps, and about the whole-machine rules (10_state.md R21 to R30,
60_exceptions.md R245, R258, R266). -/

namespace Sys2Proof.Machine

/-! ## What every step keeps
It holds of each part of a step (bus accesses, a syscall, the result of a syscall, an instruction) and of parts in
turn. -/

theorem SameMap.trans {s t u : State} (h : SameMap s t) (k : SameMap t u) : SameMap s u :=
  ⟨k.ramSize.trans h.ramSize, k.windows.trans h.windows, k.decodeErrorCode.trans h.decodeErrorCode⟩

/-- What every step keeps, whatever the engine's state. -/
structure StepKeeps (s t : State) : Prop where
  map           : SameMap s t
  x0            : t.regs[0] = s.regs[0]
  consoleOutput : s.consoleOutput <+: t.consoleOutput
  events        : s.events <+: t.events
  ramCanonical  : Memory.wf s.ram → Memory.wf t.ram
  ramInside     : (∀ c ∈ s.ram, c.1 < s.ramSize) → ∀ c ∈ t.ram, c.1 < t.ramSize
  pcEven        : s.pc.getLsbD 0 = false → t.pc.getLsbD 0 = false

theorem StepKeeps.refl (s : State) : StepKeeps s s :=
  ⟨⟨rfl, rfl, rfl⟩, rfl, List.prefix_refl _, List.prefix_refl _, id, id, id⟩

theorem StepKeeps.trans {s t u : State} (h : StepKeeps s t) (k : StepKeeps t u) : StepKeeps s u where
  map := h.map.trans k.map
  x0 := k.x0.trans h.x0
  consoleOutput := h.consoleOutput.trans k.consoleOutput
  events := h.events.trans k.events
  ramCanonical := k.ramCanonical ∘ h.ramCanonical
  ramInside := k.ramInside ∘ h.ramInside
  pcEven := k.pcEven ∘ h.pcEven

theorem CallFrame.stepKeeps {s t : State} (h : CallFrame s t) : StepKeeps s t :=
  { h with
    map := ⟨h.ramSize, h.windows, h.decodeErrorCode⟩
    x0 := by rw [h.regs]
    pcEven := fun heven => h.pc ▸ heven }

theorem ExecFrame.stepKeeps {i : Instr} {s t : State} (h : ExecFrame i s t) (hi : i.wellFormed = true) :
    StepKeeps s t :=
  { h with pcEven := h.pcEven hi }

theorem stepKeeps_setRunState (s : State) (r : RunState) : StepKeeps s (s.setRunState r) :=
  ⟨⟨rfl, rfl, rfl⟩, rfl, List.prefix_refl _, List.prefix_refl _, id, id, id⟩

theorem stepKeeps_halt (cause : HaltCause) (code : Word) (s : State) : StepKeeps s (halt cause code s) :=
  ⟨⟨rfl, rfl, rfl⟩, rfl, List.prefix_refl _, List.prefix_refl _, id, id, id⟩

theorem stepKeeps_applyResult (r : SysResult) (s : State) : StepKeeps s (applyResult r s) := by
  cases r with
  | ret v =>
    exact
      { map := ⟨by simp [applyResult], by simp [applyResult], by simp [applyResult]⟩
        x0 := setReg_entry0 s 10#5 v
        consoleOutput := by simp [applyResult]
        events := by simp [applyResult]
        ramCanonical := by simp [applyResult]
        ramInside := by simp [applyResult]
        pcEven := fun heven => by simpa [applyResult] using even_advance heven }
  | exit code => exact stepKeeps_halt .exit code s
  | block p => exact stepKeeps_setRunState s (.suspended p)

/-- Every step is made of parts that keep it (`step_cases`); what is executed was decoded, so its offset is even. -/
theorem step_keeps {s t : State} (h : step s = .next t) : StepKeeps s t := by
  rcases step_cases h with ⟨-, rfl⟩ | ⟨p, r, u, -, hline, rfl⟩ | ⟨-, w, u, e, hfetch, -, rfl⟩ |
    ⟨i, u, ⟨-, w, hfetch, hdecode⟩, hexec⟩
  · exact .refl _
  · exact (getlineAttempt_frame hline).stepKeeps.trans
      ((stepKeeps_setRunState u .running).trans (stepKeeps_applyResult r _))
  · exact (fetch_frame hfetch).1.callFrame.stepKeeps.trans (stepKeeps_halt _ _ u)
  · exact (fetch_frame hfetch).1.callFrame.stepKeeps.trans
      ((exec_next hexec).stepKeeps (encodesTo_of_decode hdecode).1)

/-- Settles O51: among what every step keeps. -/
theorem stepNeverChangesAddressMap : Obligations.StepNeverChangesAddressMap := by
  unfold Obligations.StepNeverChangesAddressMap
  exact fun s t h => (step_keeps h).map

/-- Settles O55: among what every step keeps. -/
theorem outputOnlyGrows : Obligations.OutputOnlyGrows := by
  unfold Obligations.OutputOnlyGrows
  exact fun s t h => ⟨(step_keeps h).consoleOutput, (step_keeps h).events⟩

/-! ## The engine's state and its halt record -/

theorem pending_eq_some {s : State} {p : PendingLine} : s.pending = some p ↔ s.runState = .suspended p := by
  unfold State.pending
  cases s.runState <;> simp

theorem pending_ne_none {s : State} : s.pending ≠ none ↔ ∃ p, s.runState = .suspended p := by
  simp only [← pending_eq_some, Option.ne_none_iff_exists']

/-- The line fits below its maxlen with its NUL and holds no zero byte (log 7). -/
def LineFits (p : PendingLine) : Prop := p.chars.length + 1 ≤ p.maxlen.toNat ∧ ∀ b ∈ p.chars, b ≠ 0#8

/-- The part of the invariant about the engine's state: its halt record and its pending line agree with it. -/
structure EngineRecord (s : State) : Prop where
  haltedFlag  : s.halted = true ↔ s.runState = .halted
  haltCause   : s.haltCause = .none ↔ s.halted = false
  exitCode    : s.halted = false → s.exitCode = 0#32
  pendingLine : ∀ p, s.runState = .suspended p → LineFits p

theorem State.Inv.engineRecord {s : State} (h : s.Inv) : EngineRecord s :=
  ⟨h.haltedFlag, h.haltCause, h.exitCode, fun p hp => h.pendingLine p (pending_eq_some.mpr hp)⟩

/-- The invariant is what every step keeps and the engine's record. -/
theorem State.Inv.of_stepKeeps {s t : State} (h : s.Inv) (k : StepKeeps s t) (e : EngineRecord t) : t.Inv where
  ramCanonical := k.ramCanonical h.ramCanonical
  ramInside := k.ramInside h.ramInside
  ramSize := k.map.ramSize ▸ h.ramSize
  windows := k.map.windows ▸ h.windows
  x0 := k.x0.trans h.x0
  pcEven := k.pcEven h.pcEven
  haltedFlag := e.haltedFlag
  haltCause := e.haltCause
  exitCode := e.exitCode
  pendingLine := fun p hp => e.pendingLine p (pending_eq_some.mp hp)

theorem EngineRecord.of_sameEngine {s t : State} (h : EngineRecord s) (k : SameEngine s t) : EngineRecord t := by
  obtain ⟨hrun, hhalted, hcode, hcause⟩ := k
  constructor
  · rw [hrun, hhalted]; exact h.haltedFlag
  · rw [hcause, hhalted]; exact h.haltCause
  · rw [hhalted, hcode]; exact h.exitCode
  · rw [hrun]; exact h.pendingLine

theorem Halts.engineRecord {cause : HaltCause} {code : Word} {s t : State} (h : Halts cause code s t)
    (hcause : cause ≠ .none) : EngineRecord t where
  haltedFlag := by simp [h.halted, h.runState]
  haltCause := by simp [h.halted, h.haltCause, hcause]
  exitCode := by simp [h.halted]
  pendingLine := by simp [h.runState]

/-- Between Running and Suspended the halt record stays. -/
theorem EngineRecord.of_not_halted {s t : State} (h : EngineRecord s) (hs : s.runState ≠ .halted)
    (hhalted : t.halted = s.halted) (hcode : t.exitCode = s.exitCode) (hcause : t.haltCause = s.haltCause)
    (ht : t.runState ≠ .halted) (hline : ∀ p, t.runState = .suspended p → LineFits p) : EngineRecord t where
  haltedFlag := by rw [hhalted, h.haltedFlag]; exact iff_of_false hs ht
  haltCause := by rw [hcause, hhalted]; exact h.haltCause
  exitCode := by rw [hhalted, hcode]; exact h.exitCode
  pendingLine := hline

/-- An instruction keeps the engine's record if it starts in Running. -/
theorem ExecFrame.engineRecord {i : Instr} {s t : State} (h : ExecFrame i s t) (hrun : s.runState = .running)
    (e : EngineRecord s) : EngineRecord t := by
  cases h.engine with
  | same k => exact e.of_sameEngine k
  | exit _ _ k => exact k.engineRecord (by decide)
  | breakpoint _ k => exact k.engineRecord (by decide)
  | suspended _ _ _ hhalted hcode hcause k =>
    obtain ⟨p, hp, hfits⟩ := k
    refine e.of_not_halted (by simp [hrun]) hhalted hcode hcause (by simp [hp]) fun q hq => ?_
    obtain rfl : p = q := by simpa [hp] using hq
    exact hfits

/-- What the resumption of a pending getline leaves of the engine: it runs on, or stays suspended with the characters so
far (60_exceptions.md R258). -/
structure Resumes (s t : State) : Prop where
  halted    : t.halted = s.halted
  exitCode  : t.exitCode = s.exitCode
  haltCause : t.haltCause = s.haltCause
  regs      : SameRegsBut 10#5 s t
  engine    : t.runState = .running ∨ ∃ p, t.runState = .suspended p ∧ LineFits p

theorem resumes_of_getlineAttempt {p : PendingLine} {r : SysResult} {s u : State}
    (h : getlineAttempt p s = .ok (r, u)) : Resumes s (applyResult r (u.setRunState .running)) := by
  have f := getlineAttempt_frame h
  obtain ⟨hmaxlen, ⟨v, -, -, -, rfl⟩ | ⟨-, -, rfl⟩⟩ := getlineAttempt_cases h
  · exact
      { halted := by simpa [applyResult] using f.halted
        exitCode := by simpa [applyResult] using f.exitCode
        haltCause := by simpa [applyResult] using f.haltCause
        regs := fun q hq => by simp [applyResult, getReg_setReg_ne _ _ hq, f.getReg]
        engine := .inl (by simp [applyResult]) }
  · exact ⟨f.halted, f.exitCode, f.haltCause, fun q _ => f.getReg q, .inr ⟨_, rfl, lineAfter_fits p _ hmaxlen⟩⟩

theorem Resumes.engineRecord {s t : State} (h : Resumes s t) (hs : s.runState ≠ .halted) (e : EngineRecord s) :
    EngineRecord t := by
  refine e.of_not_halted hs h.halted h.exitCode h.haltCause ?_ fun q hq => ?_
  all_goals rcases h.engine with hrun | ⟨p, hp, hfits⟩
  · simp [hrun]
  · simp [hp]
  · simp [hrun] at hq
  · obtain rfl : p = q := by simpa [hp] using hq
    exact hfits

/-- Settles O3: what every step keeps, and the engine's record in each of the four cases of a step. -/
theorem stepKeepsInvariant : Obligations.StepKeepsInvariant := by
  unfold Obligations.StepKeepsInvariant
  intro s t hinv h
  refine hinv.of_stepKeeps (step_keeps h) ?_
  have e := hinv.engineRecord
  rcases step_cases h with ⟨-, rfl⟩ | ⟨p, r, u, hrun, hline, rfl⟩ | ⟨-, w, u, r, -, -, rfl⟩ |
    ⟨i, u, ⟨hrun, w, hfetch, -⟩, hexec⟩
  · exact e
  · exact (resumes_of_getlineAttempt hline).engineRecord (by simp [hrun]) e
  · exact (halts_halt .decodeError u.decodeErrorCode u).engineRecord (by decide)
  · have f := (fetch_frame hfetch).1
    exact (exec_next hexec).engineRecord (f.runState.trans hrun) (e.of_sameEngine f.sameEngine)

/-! ## Who writes registers and RAM, and what leaves Running -/

/-- Settles O52: an instruction writes its destination only, a getline that completes x10 only. -/
theorem onlyDestinationRegisterChanges : Obligations.OnlyDestinationRegisterChanges := by
  unfold Obligations.OnlyDestinationRegisterChanges
  intro s t h r hchange
  rcases step_cases h with ⟨-, rfl⟩ | ⟨p, _, u, hrun, hline, rfl⟩ | ⟨-, w, u, e, hfetch, -, rfl⟩ |
    ⟨i, u, hfetches, hexec⟩
  · exact absurd rfl hchange
  · refine .inr ⟨pending_ne_none.mpr ⟨p, hrun⟩, ?_⟩
    by_contra hr
    exact hchange ((resumes_of_getlineAttempt hline).regs r hr)
  · exact absurd (by simpa using (fetch_frame hfetch).1.getReg r) hchange
  · refine .inl ⟨i, u, hfetches, ?_⟩
    obtain ⟨-, w, hfetch, -⟩ := hfetches
    by_contra hr
    exact hchange (((exec_next hexec).regs r hr).trans ((fetch_frame hfetch).1.getReg r))

/-- Settles O53: the four cases of a step, of which decode errors and Halted leave RAM as it is. -/
theorem onlyStoresAndReadingSyscallsWriteRam : Obligations.OnlyStoresAndReadingSyscallsWriteRam := by
  unfold Obligations.OnlyStoresAndReadingSyscallsWriteRam
  intro s t h a hchange
  rcases step_cases h with ⟨-, rfl⟩ | ⟨p, _, u, hrun, -, rfl⟩ | ⟨-, w, u, e, hfetch, -, rfl⟩ |
    ⟨i, u, hfetches, hexec⟩
  · exact absurd rfl hchange
  · exact .inr (pending_ne_none.mpr ⟨p, hrun⟩)
  · exact absurd (by simp [State.ramByte, (fetch_frame hfetch).2]) hchange
  · refine .inl ⟨i, u, hfetches, ?_⟩
    obtain ⟨-, w, hfetch, -⟩ := hfetches
    obtain ⟨f, hram⟩ := fetch_frame hfetch
    rw [← f.getReg 17#5]
    exact (exec_next hexec).ram.resolve_left fun hsame => hchange (by simp [State.ramByte, hsame, hram])

/-- Settles O54: in the four cases of a step, only a decode error and the two halting instructions end in Halted, and
only a getline's ECALL in Suspended. -/
theorem onlyNamedEventsLeaveRunning : Obligations.OnlyNamedEventsLeaveRunning := by
  unfold Obligations.OnlyNamedEventsLeaveRunning
  intro s t h
  rw [pending_ne_none]
  rcases step_cases h with ⟨hrun, rfl⟩ | ⟨p, _, u, hrun, hline, rfl⟩ | ⟨hrun, w, u, e, hfetch, hdecode, rfl⟩ |
    ⟨i, u, hfetches, hexec⟩
  · exact ⟨fun hn => absurd hrun hn, fun hr => by simp [hrun] at hr⟩
  · refine ⟨fun _ ht => ?_, fun hr => by simp [hrun] at hr⟩
    rcases (resumes_of_getlineAttempt hline).engine with k | ⟨q, k, -⟩ <;> simp [k] at ht
  · have f := (fetch_frame hfetch).1
    exact ⟨fun _ _ => ⟨f.pc, rfl, .inr (.inr ⟨hrun, ⟨w, u, e, hfetch, hdecode⟩, rfl, f.decodeErrorCode⟩)⟩,
      fun _ ⟨q, hq⟩ => by simp at hq⟩
  · obtain ⟨hrun, w, hfetch, -⟩ := id hfetches
    have f := (fetch_frame hfetch).1
    have hu : u.runState = .running := f.runState.trans hrun
    cases (exec_next hexec).engine with
    | same k =>
      exact ⟨fun _ ht => by simp [k.runState, hu] at ht, fun _ ⟨q, hq⟩ => by simp [k.runState, hu] at hq⟩
    | exit hi hnumber k =>
      subst hi
      exact ⟨fun _ _ => ⟨k.pc.trans f.pc, k.halted, .inl ⟨u, hfetches, (f.getReg _).symm.trans hnumber, k.haltCause,
        k.exitCode.trans (f.getReg _)⟩⟩, fun _ ⟨q, hq⟩ => by simp [k.runState] at hq⟩
    | breakpoint hi k =>
      subst hi
      exact ⟨fun _ _ => ⟨k.pc.trans f.pc, k.halted,
          .inr (.inl ⟨u, hfetches, k.haltCause, k.exitCode.trans f.exitCode⟩)⟩,
        fun _ ⟨q, hq⟩ => by simp [k.runState] at hq⟩
    | suspended hi hnumber hpc _ _ _ k =>
      subst hi
      obtain ⟨q, hq, -⟩ := k
      exact ⟨fun _ ht => by simp [hq] at ht,
        fun _ _ => ⟨u, hfetches, (f.getReg _).symm.trans hnumber, hpc.trans f.pc⟩⟩

/-! ## Which instructions stop -/

/-- A load stops by the fault of the bus only. -/
theorem load_cases (n : Nat) (extend : Word → Word) (rd rs1 : Reg) (imm : BitVec 12) (s : State) :
    (∃ t, load n extend rd rs1 imm s = .next t) ∨ load n extend rd rs1 imm s = .fault .ramOutOfRange := by
  by_cases h : s.AccessibleRange (effectiveAddress s rs1 imm) n
  · obtain ⟨v, t, hread⟩ := memRead_completes h
    exact .inl ⟨_, load_spec hread⟩
  · exact .inr (load_outOfRange h)

/-- A store stops by the fault of the bus only. -/
theorem store_cases (n : Nat) (rs2 rs1 : Reg) (imm : BitVec 12) (s : State) :
    (∃ t, store n rs2 rs1 imm s = .next t) ∨ store n rs2 rs1 imm s = .fault .ramOutOfRange := by
  by_cases h : s.AccessibleRange (effectiveAddress s rs1 imm) n
  · obtain ⟨t, hwrite⟩ := memWrite_completes (v := s.getReg rs2) h
    exact .inl ⟨_, store_spec hwrite⟩
  · exact .inr (store_outOfRange h)

/-- Every instruction but a load, a store and ECALL completes, and those two end in a next state or a fault of the
bus. -/
theorem exec_cases (i : Instr) (s : State) :
    (∃ t, exec i s = .next t) ∨ ((i.IsLoad ∨ i.IsStore) ∧ exec i s = .fault .ramOutOfRange) ∨ i = .ecall := by
  cases i
  case lb rd rs1 imm =>
    exact (load_cases 1 sext8 rd rs1 imm s).imp_right fun h => .inl ⟨.inl ⟨rd, rs1, imm, by simp⟩, h⟩
  case lh rd rs1 imm =>
    exact (load_cases 2 sext16 rd rs1 imm s).imp_right fun h => .inl ⟨.inl ⟨rd, rs1, imm, by simp⟩, h⟩
  case lw rd rs1 imm =>
    exact (load_cases 4 id rd rs1 imm s).imp_right fun h => .inl ⟨.inl ⟨rd, rs1, imm, by simp⟩, h⟩
  case lbu rd rs1 imm =>
    exact (load_cases 1 zext8 rd rs1 imm s).imp_right fun h => .inl ⟨.inl ⟨rd, rs1, imm, by simp⟩, h⟩
  case lhu rd rs1 imm =>
    exact (load_cases 2 zext16 rd rs1 imm s).imp_right fun h => .inl ⟨.inl ⟨rd, rs1, imm, by simp⟩, h⟩
  case sb rs2 rs1 imm =>
    exact (store_cases 1 rs2 rs1 imm s).imp_right fun h => .inl ⟨.inr ⟨rs2, rs1, imm, by simp⟩, h⟩
  case sh rs2 rs1 imm =>
    exact (store_cases 2 rs2 rs1 imm s).imp_right fun h => .inl ⟨.inr ⟨rs2, rs1, imm, by simp⟩, h⟩
  case sw rs2 rs1 imm =>
    exact (store_cases 4 rs2 rs1 imm s).imp_right fun h => .inl ⟨.inr ⟨rs2, rs1, imm, by simp⟩, h⟩
  case ecall => exact .inr (.inr rfl)
  all_goals exact .inl ⟨_, rfl⟩

/-- ECALL is refused exactly at getline with maxlen 0 (60_exceptions.md R252, log 8). -/
theorem execEcall_refused_iff {s : State} {r : Refusal} :
    execEcall s = .refused r ↔ s.getReg 17#5 = 6#32 ∧ s.getReg 11#5 = 0#32 ∧ r = .getlineZeroMaxlen := by
  constructor
  · intro h
    unfold execEcall at h
    cases hdispatch : dispatch s with
    | ok q => rw [hdispatch] at h; cases h
    | error e =>
      rw [hdispatch] at h
      rcases dispatch_error hdispatch with ⟨hnumber, hmaxlen, rfl⟩ | ⟨f, rfl⟩
      · cases h
        exact ⟨hnumber, hmaxlen, rfl⟩
      · cases h
  · rintro ⟨hnumber, hmaxlen, rfl⟩
    have hdispatch : dispatch s = sysGetline s := by rw [dispatch, callNumber, hnumber]; rfl
    rw [execEcall, hdispatch, sysGetline, getlineAttempt, arg1, if_pos hmaxlen]
    rfl

/-- Settles O56: what completes is neither refused nor faults, a load and a store can only fault, and ECALL by its own
lemma. -/
theorem onlyMemoryInstructionsStop : Obligations.OnlyMemoryInstructionsStop := by
  unfold Obligations.OnlyMemoryInstructionsStop
  intro i s
  rcases exec_cases i s with ⟨t, h⟩ | ⟨hi, h⟩ | rfl
  · refine ⟨fun r => iff_of_false (by simp [h]) ?_, fun f hf => by simp [h] at hf⟩
    rintro ⟨rfl, hrefused⟩
    exact absurd (h.symm.trans (execEcall_refused_iff.mpr hrefused)) (by simp)
  · refine ⟨fun r => iff_of_false (by simp [h]) ?_, fun f _ => by tauto⟩
    rintro ⟨rfl, -⟩
    rcases hi with ⟨_, _, _, hi⟩ | ⟨_, _, _, hi⟩ <;> simp at hi
  · exact ⟨fun r => execEcall_refused_iff.trans (by simp), fun f _ => .inr (.inr rfl)⟩

end Sys2Proof.Machine
end

section
/-! SUPPORT. Proofs about construction and reset (10_state.md R38), and about the host's load of a program
(20_memory.md R80). -/

namespace Sys2Proof.Machine

/-! ## Construction -/

theorem getReg_construct (memSize graphicsLen storageLen keyboardLen : Nat) (code : Word) (r : Reg) :
    (State.construct memSize graphicsLen storageLen keyboardLen code).getReg r = 0#32 := by
  simp [State.getReg, State.construct]

/-- Settles O1: field by field, the registers by `getReg_construct`. -/
theorem constructionGivesResetValues : Obligations.ConstructionGivesResetValues := by
  unfold Obligations.ConstructionGivesResetValues
  intro memSize graphicsLen storageLen keyboardLen code
  exact ⟨getReg_construct memSize graphicsLen storageLen keyboardLen code, rfl, rfl, rfl, rfl, rfl, rfl,
    fun _ => rfl, rfl, rfl, rfl, rfl, rfl, rfl, rfl, rfl⟩

theorem inv_construct {memSize graphicsLen storageLen keyboardLen : Nat} (code : Word) (hpos : 0 < memSize)
    (hmax : memSize ≤ 2 ^ 32) (hlegal : LegalWindows (platformWindows graphicsLen storageLen keyboardLen)) :
    (State.construct memSize graphicsLen storageLen keyboardLen code).Inv where
  ramCanonical := Memory.wf_nil
  ramInside := List.forall_mem_nil _
  ramSize := ⟨hpos, hmax⟩
  windows := hlegal
  x0 := rfl
  pcEven := by simp [State.construct]
  haltedFlag := by simp [State.construct]
  haltCause := by simp [State.construct]
  exitCode := fun _ => rfl
  pendingLine := fun p hp => by simp [State.construct, State.pending] at hp

/-- Settles O2: reset is a construction with legal parameters. -/
theorem constructionMeetsInvariant : Obligations.ConstructionMeetsInvariant := by
  unfold Obligations.ConstructionMeetsInvariant
  refine ⟨inv_construct _ (by decide) (by decide) ⟨_, _, _, rfl, ?_⟩, fun _ _ _ _ code => inv_construct code⟩
  decide

/-! ## Loading a program -/

theorem Memory.read_writeList_outside {m : Memory} {a b : Nat} {bs : List Byte} (h : b < a ∨ a + bs.length ≤ b) :
    Memory.read (Memory.writeList m a bs) b = Memory.read m b := by
  induction bs generalizing m a with
  | nil => rfl
  | cons x bs ih =>
    rw [List.length_cons] at h
    rw [Memory.writeList, ih (by omega), Memory.read_write_ne _ (by omega)]

theorem Memory.read_writeList_inside {m : Memory} {a i : Nat} {bs : List Byte} (hwf : Memory.wf m)
    (h : i < bs.length) : Memory.read (Memory.writeList m a bs) (a + i) = bs[i] := by
  induction bs generalizing m a i with
  | nil => exact absurd h (Nat.not_lt_zero i)
  | cons x bs ih =>
    rw [Memory.writeList]
    cases i with
    | zero => rw [Memory.read_writeList_outside (by omega), Nat.add_zero, Memory.read_write_same _ _ hwf]; rfl
    | succ i =>
      rw [show a + (i + 1) = a + 1 + i by omega]
      exact ih (Memory.wf_write a x hwf) (Nat.lt_of_succ_lt_succ h)

/-- Settles O58: a load that fits replaces RAM only, by a list of bytes written. -/
theorem loadProgramCopiesBytes : Obligations.LoadProgramCopiesBytes := by
  unfold Obligations.LoadProgramCopiesBytes
  intro bytes a s hwf
  constructor
  · intro hfits
    exact ⟨_, if_pos hfits, fun i h => Memory.read_writeList_inside hwf h, fun b hb => Memory.read_writeList_outside hb,
      fun _ => rfl, rfl, ⟨rfl, rfl, rfl, rfl⟩, ⟨rfl, rfl, rfl⟩, ⟨rfl, rfl, rfl, rfl⟩⟩
  · intro hlong
    exact if_neg (by omega)

end Sys2Proof.Machine
end

section
/-! SUPPORT. Proofs about the text console (60_exceptions.md R261, R263 to R265): backspace, tab and the printable
bytes. -/

namespace Sys2Proof.Machine

/-! ## Backspace (R263) -/

/-- The cursor goes back one column and stops at column 0; only the cell it left or the one it is on may be blanked. -/
theorem backspace_spec (h : List EnvEvent) (c : TextConsole) :
    (TextConsole.backspace h c).col.val = c.col.val - 1 ∧ (TextConsole.backspace h c).row = c.row ∧
      ∀ col row, row ≠ c.row ∨ (col ≠ c.col ∧ col.val + 1 ≠ c.col.val) →
        TextConsole.cellAt (TextConsole.backspace h c) col row = TextConsole.cellAt c col row := by
  unfold TextConsole.backspace
  split
  case isTrue hzero =>
    split
    · refine ⟨by simp [hzero], rfl, fun col row hcell => ?_⟩
      rw [cellAt_setCell, if_neg (by tauto)]
    · exact ⟨by simp [hzero], rfl, fun _ _ _ => rfl⟩
  case isFalse hpos =>
    refine ⟨rfl, rfl, fun col row hcell => ?_⟩
    refine (cellAt_setCell c _ col c.row row _).trans (if_neg ?_)
    rintro ⟨hcol, hrow⟩
    obtain ⟨hleft, hback⟩ := hcell.resolve_left (not_not_intro hrow)
    split at hcol
    · exact hleft hcol
    · have := congrArg Fin.val hcol
      simp only at this
      omega

/-! ## Tab (R264) -/

theorem tab_of_col_lt (h : List EnvEvent) {c : TextConsole} (hcol : c.col.val < 72) :
    TextConsole.tab h c = { c with col := ⟨8 * (c.col.val / 8 + 1), by omega⟩ } :=
  dif_pos (by omega)

/-! ## Printable bytes (R261) -/

/-- The console with the byte written at the cursor, which has not moved yet. -/
def writtenAtCursor (h : List EnvEvent) (c : TextConsole) (b : Byte) : TextConsole :=
  TextConsole.setCell c c.col c.row { char := b, attr := Config.textAttribute h }

theorem cellAt_writtenAtCursor (h : List EnvEvent) (c : TextConsole) (b : Byte) (col : Fin 80) (row : Fin 25) :
    TextConsole.cellAt (writtenAtCursor h c b) col row =
      if col = c.col ∧ row = c.row then { char := b, attr := Config.textAttribute h }
      else TextConsole.cellAt c col row :=
  cellAt_setCell ..

theorem printable_of_col_lt (h : List EnvEvent) {c : TextConsole} (b : Byte) (hcol : c.col.val < 79) :
    TextConsole.printable h c b = { writtenAtCursor h c b with col := ⟨c.col.val + 1, by omega⟩ } :=
  dif_pos (by omega)

theorem printable_of_col_eq (h : List EnvEvent) {c : TextConsole} (b : Byte) (hcol : c.col.val = 79) :
    TextConsole.printable h c b = TextConsole.newline h (writtenAtCursor h c b) :=
  dif_neg (by omega)

/-- Where the grid does not scroll, its cells are those with the byte written. -/
theorem printable_cells (h : List EnvEvent) {c : TextConsole} (b : Byte) (hroom : c.col.val < 79 ∨ c.row.val < 24) :
    (TextConsole.printable h c b).cells = (writtenAtCursor h c b).cells := by
  by_cases hcol : c.col.val < 79
  · rw [printable_of_col_lt h b hcol]
  · rw [printable_of_col_eq h b (by omega), newline_of_row_lt (c := writtenAtCursor h c b) h (hroom.resolve_left hcol)]

theorem cellAt_congr {c d : TextConsole} (h : d.cells = c.cells) (col : Fin 80) (row : Fin 25) :
    TextConsole.cellAt d col row = TextConsole.cellAt c col row := by
  rw [TextConsole.cellAt, h, TextConsole.cellAt]

/-- Written in the last cell the byte scrolls the grid: each row holds the row below it, the byte among them. -/
theorem cellAt_printable_lastCell (h : List EnvEvent) {c : TextConsole} (b : Byte) (hcol : c.col.val = 79)
    (hrow : c.row.val = 24) (col : Fin 80) (r : Fin 25) (next : r.val + 1 < 25) :
    TextConsole.cellAt (TextConsole.printable h c b) col r =
      if col.val = 79 ∧ r.val = 23 then { char := b, attr := Config.textAttribute h }
      else TextConsole.cellAt c col ⟨r.val + 1, next⟩ := by
  have hcursor : (col = c.col ∧ (⟨r.val + 1, next⟩ : Fin 25) = c.row) ↔ col.val = 79 ∧ r.val = 23 := by
    simp only [Fin.ext_iff, hcol, hrow, Nat.reduceEqDiff]
  rw [printable_of_col_eq h b hcol, newline_of_row_eq (c := writtenAtCursor h c b) h hrow]
  refine (cellAt_scrolled h (writtenAtCursor h c b) col r next).trans ?_
  rw [cellAt_writtenAtCursor, if_congr hcursor rfl rfl]

theorem put_printable (h : List EnvEvent) (c : TextConsole) {b : Byte} (hbs : b ≠ 0x08#8) (htab : b ≠ 0x09#8)
    (hlf : b ≠ 0x0A#8) (hcr : b ≠ 0x0D#8) : TextConsole.put h c b = TextConsole.printable h c b := by
  rw [TextConsole.put, if_neg hbs, if_neg htab, if_neg (by tauto)]

/-- Settles O60: the three kinds of bytes; a printable one by whether it is in the last column, and in the last row. -/
theorem otherBytesMoveCursor : Obligations.OtherBytesMoveCursor := by
  unfold Obligations.OtherBytesMoveCursor
  intro h c
  refine ⟨backspace_spec h c, fun hcol => ?tab, fun b hbs htab hlf hcr => ?printable⟩
  case tab =>
    rw [show TextConsole.put h c 0x09#8 = TextConsole.tab h c from rfl, tab_of_col_lt h hcol]
    exact ⟨rfl, rfl, rfl⟩
  case printable =>
    rw [put_printable h c hbs htab hlf hcr]
    refine ⟨fun hcol => ?inside, fun hcol => ?lastColumn, fun hroom => ?written, fun hcol hrow r next col => ?scroll⟩
    case inside =>
      rw [printable_of_col_lt h b hcol]
      exact ⟨rfl, rfl⟩
    case lastColumn =>
      rw [printable_of_col_eq h b hcol]
      refine ⟨by simp, ?_⟩
      by_cases hrow : c.row.val < 24
      · rw [newline_of_row_lt (c := writtenAtCursor h c b) h hrow]
        exact (Nat.min_eq_left hrow).symm
      · have hlast : c.row.val = 24 := by omega
        rw [newline_of_row_eq (c := writtenAtCursor h c b) h hlast, hlast]
        exact hlast
    case written =>
      simp only [cellAt_congr (printable_cells h b hroom), cellAt_writtenAtCursor]
      exact ⟨by simp, fun col row hother => if_neg (by tauto)⟩
    case scroll =>
      have hcell := cellAt_printable_lastCell h b hcol hrow col r next
      exact ⟨fun hlast => congrArg TextCell.char (hcell.trans (if_pos hlast)),
        fun hother => hcell.trans (if_neg (not_and_or.mpr hother))⟩

end Sys2Proof.Machine
end

section
/-! SUPPORT. Proofs about the execution cycle (40_execution_cycle.md R130 to R135): what a fetch reads, which step
follows it, and what a run is. -/

namespace Sys2Proof.Machine

/-! ## The fetched word -/

theorem fetchAligned_iff {pc : Word} : fetchAligned pc = true ↔ pc.toNat % 4 = 0 := by
  rw [fetchAligned, beq_iff_eq, ← BitVec.toNat_inj, BitVec.extractLsb'_toNat]
  exact Iff.rfl

theorem fetch_of_aligned {s : State} (h : s.pc.toNat % 4 = 0) : fetch s = memRead s.pc 4 s :=
  if_pos (fetchAligned_iff.mpr h)

theorem fetch_of_misaligned {s : State} (h : s.pc.toNat % 4 ≠ 0) : fetch s = .error (.fault .misalignedFetch) :=
  if_neg fun k => h (fetchAligned_iff.mp k)

/-- The value of a bus read is that of its bytes, lowest first (20_memory.md R57). -/
theorem memRead_of_readBytes {s t : State} {a : Word} {n : Nat} {bs : List Byte} (h : readBytes n a s = .ok (bs, t)) :
    memRead a n s = .ok (BitVec.ofNat 32 (littleEndian bs), t) := by
  rw [memRead, h]
  rfl

theorem byteOf_littleEndian_getD {bs : List Byte} (h : bs.length = 4) {i : Nat} (hi : i < 4) :
    byteOf (BitVec.ofNat 32 (littleEndian bs)) i = bs.getD i 0#8 := by
  match bs, h with
  | [b0, b1, b2, b3], _ => exact byteOf_littleEndian b0 b1 b2 b3 i hi

theorem getD_ramBytes (s : State) (a : Word) {n i : Nat} (hi : i < n) :
    (s.ramBytes a n).getD i 0#8 = s.ramByte (byteAddress a i).toNat := by
  simp [State.ramBytes, hi]

/-- Settles O11: the fetch is a read of four bytes, in RAM those of RAM, elsewhere what the bus finds. -/
theorem fetchReadsLittleEndianWordAtPc : Obligations.FetchReadsLittleEndianWordAtPc := by
  unfold Obligations.FetchReadsLittleEndianWordAtPc
  refine ⟨fun s haligned hram => ?_, fun s haligned hreach => ?_⟩
  · refine ⟨_, (fetch_of_aligned haligned).trans (memRead_ram hram), fun i hi => ?_⟩
    rw [byteOf_littleEndian_getD (ramBytes_length ..) hi, getD_ramBytes s s.pc hi]
  · obtain ⟨bs, t, hread⟩ := readBytes_completes hreach
    obtain ⟨f, hram, hlength⟩ := readBytes_frame hread
    obtain ⟨hfinds, hevents, hinputs, hconsole⟩ := readBytes_finds hread
    exact ⟨_, _, t, hfinds, (fetch_of_aligned haligned).trans (memRead_of_readBytes hread),
      fun i hi => byteOf_littleEndian_getD hlength hi, hevents, hinputs, f.pc, f.sameRegs,
      fun a => by rw [State.ramByte, hram, State.ramByte], f.sameEngine, f.sameMap, f.consoleOutput, hconsole⟩

/-! ## The step after a fetch -/

theorem step_of_running {s : State} (h : s.runState = .running) : step s = stepRunning s := by
  rw [step, h]

theorem step_of_fetch {s t : State} {w : Word} (hrun : s.runState = .running) (h : fetch s = .ok (w, t)) :
    step s = executeWord w t := by
  rw [step_of_running hrun, stepRunning, h]

theorem step_of_fetch_fault {s : State} {f : Fault} (hrun : s.runState = .running) (h : fetch s = .error (.fault f)) :
    step s = .fault f := by
  rw [step_of_running hrun, stepRunning, h]

theorem step_of_fetches {s t : State} {i : Instr} (h : Fetches s i t) : step s = exec i t := by
  obtain ⟨hrun, w, hfetch, hdecode⟩ := h
  rw [step_of_fetch hrun hfetch, executeWord, hdecode]

/-- The bytes that decode to an instruction make a word that does (R90). -/
theorem decode_of_decodeBytes {bs rest : List Byte} {i : Instr} (hlength : bs.length = 4)
    (h : decodeBytes bs = .ok (i, rest)) : decode (BitVec.ofNat 32 (littleEndian bs)) = .ok i := by
  match bs, hlength with
  | [b0, b1, b2, b3], _ =>
    rw [decodeBytes] at h
    split at h
    · rename_i hdecode
      cases h
      exact hdecode
    · cases h

/-- Settles O10: by the definition of a step in Running; in RAM the fetch is the read of the four bytes. -/
theorem stepRunsDecodedInstruction : Obligations.StepRunsDecodedInstruction := by
  unfold Obligations.StepRunsDecodedInstruction
  refine ⟨fun s i t => step_of_fetches, fun s i hrun haligned hram hbytes => ?_⟩
  have hfetches : Fetches s i s := ⟨hrun, _, (fetch_of_aligned haligned).trans (memRead_ram hram),
    decode_of_decodeBytes (ramBytes_length ..) hbytes⟩
  exact ⟨hfetches, step_of_fetches hfetches⟩

/-- Settles O12: the two faults of a fetch, the misaligned pc first. -/
theorem fetchStopsByName : Obligations.FetchStopsByName := by
  unfold Obligations.FetchStopsByName
  refine fun s hrun => ⟨fun hmisaligned => ?_, fun haligned hunreachable => ?_⟩
  · exact step_of_fetch_fault hrun (fetch_of_misaligned hmisaligned)
  · exact step_of_fetch_fault hrun ((fetch_of_aligned haligned).trans (memRead_outOfRange hunreachable))

/-- Settles O13: the decode error halts in the state that the fetch left. -/
theorem illegalWordHaltsEngine : Obligations.IllegalWordHaltsEngine := by
  unfold Obligations.IllegalWordHaltsEngine
  intro s w t r hrun hfetch hreject
  obtain ⟨f, hram⟩ := fetch_frame hfetch
  refine ⟨raiseDecodeError t, ?_, f.decodeErrorCode ▸ halts_halt .decodeError t.decodeErrorCode t, f.pc, f.sameRegs,
    fun a => ?_⟩
  · rw [step_of_fetch hrun hfetch, executeWord, hreject]
  · rw [ramByte_raiseDecodeError, State.ramByte, hram, State.ramByte]

/-! ## Runs -/

/-- A list of states, each but the last in Running or Suspended and followed by the state that its step answers. -/
def StepsThrough (states : List State) : Prop :=
  ∀ j (h : j + 1 < states.length), states[j].runState ≠ .halted ∧ step states[j] = .next states[j + 1]

theorem stepsThrough_singleton (s : State) : StepsThrough [s] :=
  fun j h => absurd h (by simp)

theorem StepsThrough.cons {s u : State} {states : List State} (h : StepsThrough states)
    (hhead : states.head? = some u) (hrun : s.runState ≠ .halted) (hstep : step s = .next u) :
    StepsThrough (s :: states) := by
  intro j hj
  cases j with
  | zero =>
    rw [List.head?_eq_getElem?, List.getElem?_eq_some_iff] at hhead
    obtain ⟨_, rfl⟩ := hhead
    exact ⟨hrun, hstep⟩
  | succ j => exact h j (Nat.lt_of_succ_lt_succ hj)

theorem run_succ {s : State} (h : s.runState ≠ .halted) (n : Nat) :
    run (n + 1) s = match step s with
      | .next t => run n t
      | .fault f => .fault f
      | .refused r => .refused r :=
  if_neg h

/-- A run of a budget above 0 that answers a next state made a step, or started in Halted. -/
theorem run_succ_cases {n : Nat} {s t : State} (h : run (n + 1) s = .next t) :
    (s.runState = .halted ∧ t = s) ∨ (s.runState ≠ .halted ∧ ∃ u, step s = .next u ∧ run n u = .next t) := by
  by_cases hhalted : s.runState = .halted
  · rw [run_of_halted hhalted] at h
    cases h
    exact .inl ⟨hhalted, rfl⟩
  · rw [run_succ hhalted] at h
    split at h
    · exact .inr ⟨hhalted, _, ‹_›, h⟩
    · cases h
    · cases h

/-- What a run answers is reached by steps, as many as the budget unless it has halted. -/
theorem run_steps {n : Nat} {s t : State} (h : run n s = .next t) :
    ∃ k, k ≤ n ∧ (k = n ∨ t.runState = .halted) ∧ ∃ states : List State, states.length = k + 1 ∧
      states.head? = some s ∧ states.getLast? = some t ∧ StepsThrough states := by
  induction n generalizing s with
  | zero =>
    cases h
    exact ⟨0, le_rfl, .inl rfl, [t], rfl, rfl, rfl, stepsThrough_singleton t⟩
  | succ n ih =>
    rcases run_succ_cases h with ⟨hhalted, rfl⟩ | ⟨hrun, u, hstep, hrest⟩
    · exact ⟨0, Nat.zero_le _, .inr hhalted, [t], rfl, rfl, rfl, stepsThrough_singleton t⟩
    · obtain ⟨k, hk, hstop, states, hlength, hhead, hlast, hsteps⟩ := ih hrest
      refine ⟨k + 1, Nat.succ_le_succ hk, hstop.imp_left (congrArg (· + 1)), s :: states, by simp [hlength], rfl, ?_,
        hsteps.cons hhead hrun hstep⟩
      simp [List.getLast?_cons, hlast]

/-- A run that answers a next state goes on from it. -/
theorem run_add {m n : Nat} {s t : State} (h : run m s = .next t) : run (m + n) s = run n t := by
  induction m generalizing s with
  | zero =>
    cases h
    rw [Nat.zero_add]
  | succ m ih =>
    rcases run_succ_cases h with ⟨hhalted, rfl⟩ | ⟨hrun, u, hstep, hrest⟩
    · rw [run_of_halted hhalted, run_of_halted hhalted]
    · rw [Nat.add_right_comm, run_succ hrun, hstep]
      exact ih hrest

/-- Settles O15: the steps of a run, and where it is cut. -/
theorem runStopsAtBudgetOrHalt : Obligations.RunStopsAtBudgetOrHalt := by
  unfold Obligations.RunStopsAtBudgetOrHalt
  exact ⟨fun n s t => run_steps, fun m n s t => run_add⟩

end Sys2Proof.Machine
end

section
/-! SUPPORT. Proofs about the instructions that need one fact more than their shape: SLTIU (42_alu_immediate.md R163),
JALR (47_jumps.md R221), FENCE and EBREAK (48_system_fence.md R231, R232). -/

namespace Sys2Proof.Machine

/-- The unsigned reading of the sign-extended immediate: a negative one stands for 2^32 plus its value (D8). -/
theorem imm12_toNat (imm : BitVec 12) :
    ((imm12 imm).toNat : Int) = if imm.toInt < 0 then 2 ^ 32 + imm.toInt else imm.toInt := by
  rw [← imm12_toInt, BitVec.toInt_eq_toNat_cond]
  have := (imm12 imm).isLt
  split <;> split <;> omega

theorem aluSltu_imm12_eq_ite (a : Word) (imm : BitVec 12) :
    aluSltu a (imm12 imm) =
      if (a.toNat : Int) < (if imm.toInt < 0 then 2 ^ 32 + imm.toInt else imm.toInt) then 1#32 else 0#32 := by
  rw [aluSltu_eq_ite, ← imm12_toNat]
  simp only [Nat.cast_lt]

/-- Settles O19: the comparison with the immediate's unsigned reading. -/
theorem sltiuComparesWithSignExtendedImmediate : Obligations.SltiuComparesWithSignExtendedImmediate := by
  unfold Obligations.SltiuComparesWithSignExtendedImmediate
  obtain ⟨-, -, sltiu, -⟩ := decodesAs_opImm
  exact ⟨sltiu, fun rd rs1 imm s => writeResult_spec_of_eq rd s (aluSltu_imm12_eq_ite _ _)⟩

/-- Clearing bit 0 is halving and doubling. -/
theorem and_clear_bit0 (v : Word) : v &&& 0xFFFFFFFE#32 = BitVec.ofNat 32 (2 * (v.toNat / 2)) := by
  have hmask : ∀ i < 31, (0xFFFFFFFE#32).getLsbD (i + 1) = true := by decide
  apply BitVec.eq_of_getLsbD_eq
  intro i hi
  rw [BitVec.getLsbD_and, BitVec.getLsbD_ofNat (x := 2 * (v.toNat / 2)), decide_eq_true hi, Bool.true_and]
  cases i with
  | zero => simp [Nat.testBit_zero]
  | succ i =>
    rw [hmask i (by omega), Bool.and_true, BitVec.getLsbD, Nat.testBit_succ, Nat.testBit_succ,
      Nat.mul_div_cancel_left _ (by decide)]

theorem jalrTarget_eq (s : State) (rs1 : Reg) (imm : BitVec 12) :
    jalrTarget s rs1 imm = BitVec.ofNat 32 (2 * ((BitVec.ofInt 32 ((s.getReg rs1).toInt + imm.toInt)).toNat / 2)) := by
  rw [← effectiveAddress_eq, ← and_clear_bit0]
  rfl

/-- Settles O23: the target is taken before the link is written, also when rd is rs1. -/
theorem jalrLinksAndJumpsThroughOldRegister : Obligations.JalrLinksAndJumpsThroughOldRegister := by
  unfold Obligations.JalrLinksAndJumpsThroughOldRegister
  refine ⟨decodesAs_jalr, fun rd rs1 imm s => ?_⟩
  simp only [← jalrTarget_eq]
  exact linkAndJump_spec rd (jalrTarget s rs1 imm) s

/-- Settles O35: FENCE is a move of pc, by the definition of `exec`. -/
theorem fenceOnlyAdvancesPc : Obligations.FenceOnlyAdvancesPc := by
  unfold Obligations.FenceOnlyAdvancesPc
  exact ⟨decodesAs_fence, fun s => ⟨_, rfl, movesPc_setPc s (s.pc + 4#32)⟩⟩

/-- Settles O36: EBREAK is a halt with the old exit code, by the definition of `exec`. -/
theorem ebreakHaltsWithBreakpoint : Obligations.EbreakHaltsWithBreakpoint := by
  unfold Obligations.EbreakHaltsWithBreakpoint
  exact ⟨decodesAs_system.2, fun s => ⟨_, rfl, halts_halt .breakpoint s.exitCode s⟩⟩

end Sys2Proof.Machine
end

section
/-! SUPPORT. Proofs about loads and stores (43_loads.md, 44_stores.md, 20_memory.md R55 to R63, R75): what the bytes of
an access amount to, and where each of them comes from and goes. -/

namespace Sys2Proof.Machine

/-! ## The bytes of an access -/

theorem map_range_getD {bs : List Byte} {n : Nat} (h : bs.length = n) :
    (List.range n).map (fun k => bs.getD k 0#8) = bs := by
  refine List.ext_getElem (by simp [h]) fun k hk hk' => ?_
  simp [hk']

/-- Everything a read of the bytes `byte 0`, `byte 1`, … at ascending addresses does (20_memory.md R57). -/
structure BusReads (s t : State) (a : Word) (n : Nat) (byte : Nat → Byte) : Prop where
  finds   : s.Finds a n byte
  frame   : BusFrame s t
  ram     : t.ram = s.ram
  events  : t.events = s.events ++ s.readEvents a n byte
  inputs  : t.inputs = { s.inputs with devReads := s.inputs.devReads.drop (s.deviceAddresses a n).length }
  console : s.GraphicsOnlyInVram a n → t.console = s.console

theorem BusReads.sameRam {s t : State} {a : Word} {n : Nat} {byte : Nat → Byte} (h : BusReads s t a n byte) :
    SameRam s t :=
  fun k => congrArg (Memory.read · k) h.ram

theorem readBytes_reads {s : State} {a : Word} {n : Nat} (h : s.AccessibleRange a n) :
    ∃ byte t, readBytes n a s = .ok ((List.range n).map byte, t) ∧ BusReads s t a n byte := by
  obtain ⟨bs, t, hread⟩ := readBytes_completes h
  obtain ⟨hframe, hram, hlength⟩ := readBytes_frame hread
  obtain ⟨hfinds, hevents, hinputs, hconsole⟩ := readBytes_finds hread
  exact ⟨_, t, by rw [map_range_getD hlength]; exact hread, hfinds, hframe, hram, hevents, hinputs, hconsole⟩

theorem flatMap_ite_singleton {α β : Type} (p : α → Prop) [DecidablePred p] (f : α → β) (l : List α) :
    (l.flatMap fun x => if p x then [] else [f x]) = (l.filter fun x => ¬ p x).map f := by
  induction l with
  | nil => rfl
  | cons x l ih =>
    rw [List.flatMap_cons, ih]
    by_cases hx : p x <;> simp [hx]

/-- The accesses to peripherals of a read, each with its answer. -/
def State.deviceReads (s : State) (a : Word) (n : Nat) (byte : Nat → Byte) : List (Word × Byte) :=
  ((List.range n).filter fun k => ¬ route s.windows (byteAddress a k) = none).map fun k => (byteAddress a k, byte k)

theorem readEvents_eq_deviceReads (s : State) (a : Word) (n : Nat) (byte : Nat → Byte) :
    s.readEvents a n byte = (s.deviceReads a n byte).map fun r => .devRead r.1 r.2 := by
  simp only [State.readEvents, State.readEvent, flatMap_ite_singleton, State.deviceReads, List.map_map]
  rfl

theorem deviceReads_map_fst (s : State) (a : Word) (n : Nat) (byte : Nat → Byte) :
    (s.deviceReads a n byte).map Prod.fst = s.deviceAddresses a n := by
  simp only [State.deviceReads, State.deviceAddresses, List.map_map, List.filter_map]
  rfl

theorem writeEvents_map_range (s : State) (a : Word) (n : Nat) (byte : Nat → Byte) :
    s.writeEvents a ((List.range n).map byte) =
      ((List.range n).filter fun k => route s.windows (byteAddress a k) ≠ none).map
        fun k => .devWrite (byteAddress a k) (byte k) := by
  have hbyte : ∀ k ∈ List.range n, s.writeEvent (byteAddress a k) (((List.range n).map byte).getD k 0#8) =
      if route s.windows (byteAddress a k) = none then [] else [.devWrite (byteAddress a k) (byte k)] := by
    intro k hk
    simp [State.writeEvent, List.mem_range.mp hk]
  rw [State.writeEvents, List.length_map, List.length_range, List.flatMap_congr hbyte, flatMap_ite_singleton]

/-! ## What a load writes -/

/-- The value of each kind of load, from its bytes (R181 to R185). -/
def LoadValue (n : Nat) (extend : Word → Word) (value : (Nat → Byte) → Word) : Prop :=
  ∀ byte, extend (BitVec.ofNat 32 (littleEndian ((List.range n).map byte))) = value byte

theorem setWidth_littleEndian_one (byte : Nat → Byte) :
    (BitVec.ofNat 32 (littleEndian ((List.range 1).map byte))).setWidth 8 = byte 0 := by
  apply BitVec.eq_of_toNat_eq
  simp [littleEndian, List.range_succ]

theorem setWidth_littleEndian_two (byte : Nat → Byte) :
    ((BitVec.ofNat 32 (littleEndian ((List.range 2).map byte))).setWidth 16).toNat =
      (byte 0).toNat + 256 * (byte 1).toNat := by
  have := (byte 0).isLt
  have := (byte 1).isLt
  simp [littleEndian, List.range_succ]
  omega

theorem loadValue_lb : LoadValue 1 sext8 fun byte => BitVec.ofInt 32 (byte 0).toInt :=
  fun byte => congrArg (BitVec.signExtend 32) (setWidth_littleEndian_one byte)

theorem loadValue_lbu : LoadValue 1 zext8 fun byte => BitVec.ofNat 32 (byte 0).toNat :=
  fun byte => (congrArg (BitVec.setWidth 32) (setWidth_littleEndian_one byte)).trans (BitVec.ofNat_toNat ..).symm

/-- The signed reading of a halfword takes its sign from the higher byte. -/
theorem loadValue_lh : LoadValue 2 sext16 fun byte => BitVec.ofInt 32 ((byte 0).toNat + 256 * (byte 1).toInt) := by
  intro byte
  refine congrArg (BitVec.ofInt 32) ?_
  rw [BitVec.toInt_eq_toNat_cond, setWidth_littleEndian_two, BitVec.toInt_eq_toNat_cond]
  have := (byte 0).isLt
  split <;> split <;> omega

theorem loadValue_lhu : LoadValue 2 zext16 fun byte => BitVec.ofNat 32 ((byte 0).toNat + 256 * (byte 1).toNat) := by
  intro byte
  dsimp only
  rw [← setWidth_littleEndian_two, BitVec.ofNat_toNat]
  rfl

theorem loadValue_lw : LoadValue 4 id fun byte => BitVec.ofNat 32
    ((byte 0).toNat + 256 * (byte 1).toNat + 65536 * (byte 2).toNat + 16777216 * (byte 3).toNat) := by
  intro byte
  refine congrArg (BitVec.ofNat 32) ?_
  simp only [List.range_succ, List.range_zero, List.nil_append, List.cons_append, List.map_cons, List.map_nil,
    littleEndian]
  omega

section
variable {n : Nat} {extend : Word → Word} {value : (Nat → Byte) → Word}

/-- A load where every byte is reachable: the bytes it reads, and rd and pc written in the state the read leaves. -/
theorem load_reads (hvalue : LoadValue n extend value) (rd : Reg) {rs1 : Reg} {imm : BitVec 12} {s : State}
    (h : s.AccessibleRange (effectiveAddress s rs1 imm) n) :
    ∃ byte t, BusReads s t (effectiveAddress s rs1 imm) n byte ∧
      load n extend rd rs1 imm s = .next (t.setReg rd (value byte)).advance := by
  obtain ⟨byte, t, hread, hreads⟩ := readBytes_reads h
  exact ⟨byte, t, hreads, hvalue byte ▸ load_spec (memRead_of_readBytes hread)⟩

/-- A load from RAM writes rd from the RAM bytes and changes nothing else but pc. -/
theorem load_ram (hvalue : LoadValue n extend value) (rd : Reg) {rs1 : Reg} {imm : BitVec 12} {s : State}
    (h : s.RamRange (effectiveAddress s rs1 imm) n) :
    ∃ t, load n extend rd rs1 imm s = .next t ∧
      WritesReg rd (value fun k => s.ramByte (byteAddress (effectiveAddress s rs1 imm) k).toNat) (s.pc + 4#32) s t :=
  ⟨_, load_spec (memRead_ram h), hvalue _ ▸ writesReg_setReg_advance s rd _⟩

theorem load_takesAnswers (hvalue : LoadValue n extend value) (rd : Reg) {rs1 : Reg} {imm : BitVec 12} {s : State}
    (h : s.AccessibleRange (effectiveAddress s rs1 imm) n) :
    ∃ byte t, s.Finds (effectiveAddress s rs1 imm) n byte ∧ load n extend rd rs1 imm s = .next t ∧
      t.getReg rd = (if rd = 0#5 then 0#32 else value byte) ∧
      t.events = s.events ++ s.readEvents (effectiveAddress s rs1 imm) n byte ∧
      t.inputs = { s.inputs with
        devReads := s.inputs.devReads.drop (s.deviceAddresses (effectiveAddress s rs1 imm) n).length } := by
  obtain ⟨byte, t, hreads, hnext⟩ := load_reads hvalue rd h
  exact ⟨byte, _, hreads.finds, hnext, by simp, by simpa using hreads.events, by simpa using hreads.inputs⟩

/-- The frame of a load, and its accesses to peripherals: one read of each window byte, ascending (D6). -/
theorem load_readsOnce (hvalue : LoadValue n extend value) (rd : Reg) {rs1 : Reg} {imm : BitVec 12} {s : State}
    (h : s.AccessibleRange (effectiveAddress s rs1 imm) n) :
    ∃ t, ∃ reads : List (Word × Byte), load n extend rd rs1 imm s = .next t ∧
      SameRegsBut rd s t ∧ t.pc = s.pc + 4#32 ∧ SameRam s t ∧ SameEngine s t ∧ SameMap s t ∧
      t.consoleOutput = s.consoleOutput ∧ t.events = s.events ++ reads.map (fun r => .devRead r.1 r.2) ∧
      reads.map Prod.fst = s.deviceAddresses (effectiveAddress s rs1 imm) n ∧
      t.inputs = { s.inputs with devReads := s.inputs.devReads.drop reads.length } ∧
      (s.GraphicsOnlyInVram (effectiveAddress s rs1 imm) n → t.console = s.console) := by
  obtain ⟨byte, t, hreads, hnext⟩ := load_reads hvalue rd h
  have f := hreads.frame
  have hfst := deviceReads_map_fst s (effectiveAddress s rs1 imm) n byte
  have hlength : (s.deviceReads (effectiveAddress s rs1 imm) n byte).length =
      (s.deviceAddresses (effectiveAddress s rs1 imm) n).length := by rw [← hfst, List.length_map]
  refine ⟨_, s.deviceReads (effectiveAddress s rs1 imm) n byte, hnext, ?_, ?_, ?_, ?_, ?_, ?_, ?_, hfst, ?_, ?_⟩
  · intro r hr
    rw [getReg_advance, getReg_setReg_ne _ _ hr, f.getReg]
  · simp [f.pc]
  · intro k
    simpa using hreads.sameRam k
  · exact ⟨by simpa using f.runState, by simpa using f.halted, by simpa using f.exitCode, by simpa using f.haltCause⟩
  · exact ⟨by simpa using f.ramSize, by simpa using f.windows, by simpa using f.decodeErrorCode⟩
  · simpa using f.consoleOutput
  · rw [← readEvents_eq_deviceReads]
    simpa using hreads.events
  · rw [hlength]
    simpa using hreads.inputs
  · simpa using hreads.console

end

/-- Settles O28: each load by its value, in RAM. -/
theorem loadsFromRam : Obligations.LoadsFromRam := by
  unfold Obligations.LoadsFromRam
  obtain ⟨lb, lh, lw, lbu, lhu⟩ := decodesAs_load
  refine ⟨lb, lh, lw, lbu, lhu, fun rd rs1 imm s => ?_⟩
  simp only [← effectiveAddress_eq]
  refine ⟨fun h => ?_, fun h => ?_, fun h => ?_, fun h => ?_, fun h => ?_⟩
  · simpa only [byteAddress_zero] using! load_ram loadValue_lb rd h
  · simpa only [byteAddress_zero] using! load_ram loadValue_lbu rd h
  · simpa only [byteAddress_zero] using! load_ram loadValue_lh rd h
  · simpa only [byteAddress_zero] using! load_ram loadValue_lhu rd h
  · simpa only [byteAddress_zero] using! load_ram loadValue_lw rd h

/-- Settles O30: each load by its value, wherever its bytes are. -/
theorem loadsTakeAnswersOfDevices : Obligations.LoadsTakeAnswersOfDevices := by
  unfold Obligations.LoadsTakeAnswersOfDevices
  intro rd rs1 imm s
  exact ⟨load_takesAnswers loadValue_lb rd, load_takesAnswers loadValue_lbu rd, load_takesAnswers loadValue_lh rd,
    load_takesAnswers loadValue_lhu rd, load_takesAnswers loadValue_lw rd⟩

/-- Settles O29: each load by the one bus read that it makes. -/
theorem loadsReadEachDeviceByteOnce : Obligations.LoadsReadEachDeviceByteOnce := by
  unfold Obligations.LoadsReadEachDeviceByteOnce
  intro rd rs1 imm s
  exact ⟨load_readsOnce loadValue_lb rd, load_readsOnce loadValue_lbu rd, load_readsOnce loadValue_lh rd,
    load_readsOnce loadValue_lhu rd, load_readsOnce loadValue_lw rd⟩

/-! ## What a store leaves -/

/-- Everything a write of the bytes `bs` at ascending addresses does (20_memory.md R58, R62). -/
structure BusWrites (s t : State) (a : Word) (bs : List Byte) : Prop where
  frame   : BusFrame s t
  ram     : Memory.wf s.ram → StoresThroughBus bs a s t
  events  : t.events = s.events ++ s.writeEvents a bs
  inputs  : t.inputs = s.inputs
  console : ConsoleAfterWrites s a bs s.console t.console

theorem writeBytes_writes {s : State} {a : Word} {bs : List Byte} (hlength : bs.length ≤ 2 ^ 32)
    (h : s.AccessibleRange a bs.length) : ∃ t, writeBytes bs a s = .ok t ∧ BusWrites s t a bs := by
  obtain ⟨t, hwrite⟩ := writeBytes_completes h
  obtain ⟨hevents, hinputs, -⟩ := writeBytes_transactions hwrite
  exact ⟨t, hwrite, writeBytes_frame hwrite, fun hwf => writeBytes_stores hlength hwf hwrite, hevents, hinputs,
    writeBytes_console hwrite hlength⟩

section
variable {n : Nat} {rs2 rs1 : Reg} {imm : BitVec 12} {s : State}

/-- A store where every byte is reachable: the low bytes of x[rs2] written, and pc moved in the state that leaves. -/
theorem store_writes (hn : n ≤ 2 ^ 32) (h : s.AccessibleRange (effectiveAddress s rs1 imm) n) :
    ∃ t, store n rs2 rs1 imm s = .next t.advance ∧
      BusWrites s t (effectiveAddress s rs1 imm) ((List.range n).map (byteOf (s.getReg rs2))) := by
  have hlength : ((List.range n).map (byteOf (s.getReg rs2))).length = n := by simp
  obtain ⟨t, hwrite, hwrites⟩ := writeBytes_writes (bs := (List.range n).map (byteOf (s.getReg rs2)))
    (hlength.symm ▸ hn) (hlength.symm ▸ h)
  rw [← bytesOf_eq_map] at hwrite
  exact ⟨t, store_spec hwrite, hwrites⟩

/-- Where the bytes of a store go, each by its own address (D5), and what it leaves unchanged. -/
theorem store_routes (hn : n ≤ 2 ^ 32) (hwf : Memory.wf s.ram)
    (h : s.AccessibleRange (effectiveAddress s rs1 imm) n) :
    ∃ t, store n rs2 rs1 imm s = .next t ∧
      SameRegs s t ∧ t.pc = s.pc + 4#32 ∧ SameEngine s t ∧ SameMap s t ∧ t.consoleOutput = s.consoleOutput ∧
      t.inputs = s.inputs ∧
      (∀ k, k < n → route s.windows (byteAddress (effectiveAddress s rs1 imm) k) = none →
        t.ramByte (byteAddress (effectiveAddress s rs1 imm) k).toNat = byteOf (s.getReg rs2) k) ∧
      (∀ a, (∀ k, k < n → a ≠ (byteAddress (effectiveAddress s rs1 imm) k).toNat) → t.ramByte a = s.ramByte a) ∧
      (∀ k, k < n → route s.windows (byteAddress (effectiveAddress s rs1 imm) k) ≠ none →
        t.ramByte (byteAddress (effectiveAddress s rs1 imm) k).toNat =
          s.ramByte (byteAddress (effectiveAddress s rs1 imm) k).toNat) ∧
      t.events = s.events ++
        (((List.range n).filter fun k => route s.windows (byteAddress (effectiveAddress s rs1 imm) k) ≠ none).map
          fun k => .devWrite (byteAddress (effectiveAddress s rs1 imm) k) (byteOf (s.getReg rs2) k)) ∧
      ConsoleAfterWrites s (effectiveAddress s rs1 imm) ((List.range n).map (byteOf (s.getReg rs2))) s.console
        t.console := by
  obtain ⟨t, hnext, hwrites⟩ := store_writes (rs2 := rs2) hn h
  have f := hwrites.frame
  obtain ⟨hstored, hothers⟩ := hwrites.ram hwf
  simp only [List.length_map, List.length_range, List.getElem_map, List.getElem_range] at hstored hothers
  refine ⟨_, hnext, fun r => f.getReg r, by simp [f.pc], ⟨f.runState, f.halted, f.exitCode, f.haltCause⟩,
    ⟨f.ramSize, f.windows, f.decodeErrorCode⟩, f.consoleOutput, hwrites.inputs, fun k hk hram => ?_, hothers,
    fun k hk hwindow => ?_, ?_, hwrites.console⟩
  · rw [ramByte_advance, hstored k hk, if_pos hram]
  · rw [ramByte_advance, hstored k hk, if_neg hwindow]
  · rw [← writeEvents_map_range]
    exact hwrites.events

end

/-- Settles O31: each store by the one bus write that it makes. -/
theorem storesRouteEachByte : Obligations.StoresRouteEachByte := by
  unfold Obligations.StoresRouteEachByte
  obtain ⟨sb, sh, sw⟩ := decodesAs_store
  refine ⟨sb, sh, sw, effectiveAddress_eq, fun rs2 rs1 imm s hwf => ?_⟩
  exact ⟨store_routes (by decide) hwf, store_routes (by decide) hwf, store_routes (by decide) hwf⟩

/-- Settles O32: the two shapes, each by the bus. -/
theorem outOfRangeAccessStopsByName : Obligations.OutOfRangeAccessStopsByName := by
  unfold Obligations.OutOfRangeAccessStopsByName
  intro rd rs1 rs2 imm s
  exact ⟨load_outOfRange, load_outOfRange, load_outOfRange, load_outOfRange, load_outOfRange, store_outOfRange,
    store_outOfRange, store_outOfRange⟩

/-! ## A fetch after a store (R75) -/

/-- A word is known by its four bytes. -/
theorem eq_of_byteOf_eq {v w : Word} (h : ∀ k, k < 4 → byteOf v k = byteOf w k) : v = w := by
  have hbytes : bytesOf 4 v.toNat = bytesOf 4 w.toNat := by
    rw [bytesOf_eq_map, bytesOf_eq_map]
    exact List.map_congr_left fun k hk => h k (List.mem_range.mp hk)
  have hvalue := congrArg littleEndian hbytes
  rw [littleEndian_bytesOf, littleEndian_bytesOf] at hvalue
  apply BitVec.eq_of_toNat_eq
  have := v.isLt
  have := w.isLt
  omega

/-- The fetch of a word of RAM, wherever pc was set. -/
theorem fetch_setPc_ram {t : State} {p : Word} (haligned : p.toNat % 4 = 0) (hram : t.RamRange p 4) :
    ∃ w, fetch (t.setPc p) = .ok (w, t.setPc p) ∧ ∀ k, k < 4 → byteOf w k = t.ramByte (byteAddress p k).toNat :=
  fetchReadsLittleEndianWordAtPc.1 (t.setPc p) haligned hram

theorem store_seenByFetch {n : Nat} {rs2 rs1 : Reg} {imm : BitVec 12} {s : State} (hn : n ≤ 2 ^ 32)
    (hwf : Memory.wf s.ram) (h : s.AccessibleRange (effectiveAddress s rs1 imm) n) :
    ∃ t, store n rs2 rs1 imm s = .next t ∧
      ∀ p : Word, p.toNat % 4 = 0 → s.RamRange p 4 → ∃ w, fetch (t.setPc p) = .ok (w, t.setPc p) ∧
        ∀ k, k < 4 →
          (∀ j, j < n → byteAddress p k = byteAddress (effectiveAddress s rs1 imm) j →
            byteOf w k = byteOf (s.getReg rs2) j) ∧
          ((∀ j, j < n → byteAddress p k ≠ byteAddress (effectiveAddress s rs1 imm) j) →
            byteOf w k = s.ramByte (byteAddress p k).toNat) := by
  obtain ⟨t, hnext, -, -, -, hmap, -, -, hstored, hothers, -⟩ := store_routes (rs2 := rs2) hn hwf h
  refine ⟨t, hnext, fun p haligned hram => ?_⟩
  obtain ⟨w, hfetch, hbytes⟩ := fetch_setPc_ram haligned ((ramRange_congr hmap.windows hmap.ramSize p 4).mpr hram)
  refine ⟨w, hfetch, fun k hk => ⟨fun j hj haddress => ?_, fun hapart => ?_⟩⟩
  · rw [hbytes k hk, haddress]
    exact hstored j hj (haddress ▸ (hram k hk).1)
  · rw [hbytes k hk]
    exact hothers _ fun j hj haddress => hapart j hj (BitVec.eq_of_toNat_eq haddress)

/-- Settles O34: each store by where its bytes go; the word of an SW fetched whole has its four bytes. -/
theorem fetchSeesEarlierStore : Obligations.FetchSeesEarlierStore := by
  unfold Obligations.FetchSeesEarlierStore
  intro rs2 rs1 imm s hwf
  refine ⟨fun hram haligned => ?_, store_seenByFetch (by decide) hwf, store_seenByFetch (by decide) hwf,
    store_seenByFetch (by decide) hwf⟩
  obtain ⟨t, hnext, hsees⟩ := store_seenByFetch (n := 4) (rs2 := rs2) (by decide) hwf (accessibleRange_of_ramRange hram)
  obtain ⟨w, hfetch, hbytes⟩ := hsees _ haligned hram
  have hword : w = s.getReg rs2 := eq_of_byteOf_eq fun k hk => (hbytes k hk).1 k hk rfl
  exact ⟨t, hnext, hword ▸ hfetch⟩

end Sys2Proof.Machine
end

section
/-! SUPPORT. Proofs about ECALL and its dispatcher (60_exceptions.md R243 to R248, R256): which syscall a number runs,
what an ECALL that returns leaves, what an answer of the surroundings is, and the syscalls that touch no guest
memory. -/

namespace Sys2Proof.Machine

/-! ## From the dispatcher to ECALL -/

section
variable {s t : State}

theorem exec_ecall_ok {r : SysResult} (h : dispatch s = .ok (r, t)) : exec .ecall s = .next (applyResult r t) := by
  change execEcall s = _
  rw [execEcall, h]
  rfl

theorem exec_ecall_fault {f : Fault} (h : dispatch s = .error (.fault f)) : exec .ecall s = .fault f := by
  change execEcall s = _
  rw [execEcall, h]
  rfl

theorem dispatch_exit (h : s.getReg 17#5 = 0#32) : dispatch s = .ok (.exit (s.getReg 10#5), s) := by
  rw [dispatch, callNumber, h]; rfl

theorem dispatch_putchar (h : s.getReg 17#5 = 1#32) : dispatch s = sysPutchar s := by
  rw [dispatch, callNumber, h]; rfl

theorem dispatch_getchar (h : s.getReg 17#5 = 2#32) : dispatch s = sysGetchar s := by
  rw [dispatch, callNumber, h]; rfl

theorem dispatch_puts (h : s.getReg 17#5 = 3#32) : dispatch s = sysPuts s := by
  rw [dispatch, callNumber, h]; rfl

theorem dispatch_readSector (h : s.getReg 17#5 = 4#32) : dispatch s = sysReadSector s := by
  rw [dispatch, callNumber, h]; rfl

theorem dispatch_writeSector (h : s.getReg 17#5 = 5#32) : dispatch s = sysWriteSector s := by
  rw [dispatch, callNumber, h]; rfl

theorem dispatch_getline (h : s.getReg 17#5 = 6#32) : dispatch s = sysGetline s := by
  rw [dispatch, callNumber, h]; rfl

theorem dispatch_fopen (h : s.getReg 17#5 = 7#32) : dispatch s = sysFopen s := by
  rw [dispatch, callNumber, h]; rfl

theorem dispatch_fread (h : s.getReg 17#5 = 8#32) : dispatch s = sysFread s := by
  rw [dispatch, callNumber, h]; rfl

theorem dispatch_fwrite (h : s.getReg 17#5 = 9#32) : dispatch s = sysFwrite s := by
  rw [dispatch, callNumber, h]; rfl

theorem dispatch_fclose (h : s.getReg 17#5 = 10#32) : dispatch s = sysFclose s := by
  rw [dispatch, callNumber, h]; rfl

theorem syscallOf_eq_none {number : Word} (h : 10 < number.toNat) : syscallOf number = none := by
  rw [Option.eq_none_iff_forall_ne_some]
  intro c hc
  have hnumber := congrArg BitVec.toNat (syscallOf_eq hc)
  cases c <;> simp only [BitVec.toNat_ofNat] at hnumber <;> omega

theorem dispatch_unknown (h : 10 < (s.getReg 17#5).toNat) : dispatch s = .ok (.ret sentinel, s) := by
  rw [dispatch, callNumber, syscallOf_eq_none h]

end

/-! ## An ECALL that returns -/

section
variable (s : State) (v : Word)

@[simp] theorem applyResult_ret_consoleOutput : (applyResult (.ret v) s).consoleOutput = s.consoleOutput := by
  simp [applyResult]
@[simp] theorem applyResult_ret_console : (applyResult (.ret v) s).console = s.console := by simp [applyResult]
@[simp] theorem applyResult_ret_inputs : (applyResult (.ret v) s).inputs = s.inputs := by simp [applyResult]
@[simp] theorem applyResult_ret_events : (applyResult (.ret v) s).events = s.events := by simp [applyResult]
@[simp] theorem ramByte_applyResult_ret (a : Nat) : (applyResult (.ret v) s).ramByte a = s.ramByte a := by
  simp [applyResult]

end

/-- The frame of an ECALL that returns, from the frame of its syscall (R245). -/
theorem CallFrame.returns {s t : State} (f : CallFrame s t) (v : Word) : Returns v s (applyResult (.ret v) t) where
  result := by simp [applyResult]
  regs := fun r hr => by simp [applyResult, getReg_setReg_ne _ _ hr, f.getReg]
  pc := by simp [applyResult, f.pc]
  engine := ⟨by simp [applyResult, f.runState], by simp [applyResult, f.halted], by simp [applyResult, f.exitCode],
    by simp [applyResult, f.haltCause]⟩
  map := ⟨by simp [applyResult, f.ramSize], by simp [applyResult, f.windows], by simp [applyResult, f.decodeErrorCode]⟩

theorem CallFrame.setRunState {s t : State} (f : CallFrame s t) (r : RunState) :
    CallFrame (s.setRunState r) (t.setRunState r) :=
  { f with runState := rfl }

theorem sameRam_applyResult_ret {s t : State} (h : t.ram = s.ram) (v : Word) : SameRam s (applyResult (.ret v) t) :=
  fun a => (ramByte_applyResult_ret t v a).trans (congrArg (Memory.read · a) h)

/-! ## An answer of the surroundings (R259) -/

/-- A function of the oracle records its transaction `e`, leaves the answers `left`, and touches nothing else. -/
structure OracleFrame (s t : State) (e : EnvEvent) (left : EnvInputs) : Prop where
  frame         : CallFrame s t
  ram           : t.ram = s.ram
  events        : t.events = s.events ++ [e]
  inputs        : t.inputs = left
  consoleOutput : t.consoleOutput = s.consoleOutput
  console       : t.console = s.console

theorem oracleFrame_note_setInputs (s : State) (left : EnvInputs) (e : EnvEvent) :
    OracleFrame s ((s.setInputs left).note e) e left where
  frame := (callFrame_note_setInputs s left e).1
  ram := rfl
  events := rfl
  inputs := rfl
  consoleOutput := rfl
  console := rfl

theorem draw_fst_of_cons {α : Type} {queue rest : List α} {a : α} (free : α) (h : queue = a :: rest) :
    (draw queue free).1 = a := by
  rw [h, draw_cons]

theorem kbdPop_oracle (s : State) :
    OracleFrame s (kbdPop s).2 (.kbdPop (kbdPop s).1) { s.inputs with keys := s.inputs.keys.tail } :=
  draw_snd s.inputs.keys _ ▸ oracleFrame_note_setInputs s _ _

theorem pollKeys_oracle (p : PendingLine) (s : State) :
    OracleFrame s (pollKeys p s).2 (.line (pollKeys p s).1) { s.inputs with lines := s.inputs.lines.tail } :=
  draw_snd s.inputs.lines _ ▸ oracleFrame_note_setInputs s _ _

theorem readSector_oracle (sector : Word) (s : State) :
    OracleFrame s (readSector sector s).2 (.readSector sector (readSector sector s).1)
      { s.inputs with sectorReads := s.inputs.sectorReads.tail } :=
  draw_snd s.inputs.sectorReads _ ▸ oracleFrame_note_setInputs s _ _

theorem writeSector_oracle (sector : Word) (data : List Byte) (s : State) :
    OracleFrame s (writeSector sector data s).2 (.writeSector sector data (writeSector sector data s).1)
      { s.inputs with sectorWrites := s.inputs.sectorWrites.tail } :=
  draw_snd s.inputs.sectorWrites _ ▸ oracleFrame_note_setInputs s _ _

theorem fopen_oracle (name : List Byte) (mode : Word) (s : State) :
    OracleFrame s (fopen name mode s).2 (.fopen name mode (fopen name mode s).1)
      { s.inputs with fopens := s.inputs.fopens.tail } :=
  draw_snd s.inputs.fopens _ ▸ oracleFrame_note_setInputs s _ _

theorem fread_oracle (handle max : Word) (s : State) :
    OracleFrame s (fread handle max s).2 (.fread handle max (fread handle max s).1)
      { s.inputs with freads := s.inputs.freads.tail } :=
  draw_snd s.inputs.freads _ ▸ oracleFrame_note_setInputs s _ _

theorem fwrite_oracle (handle : Word) (data : List Byte) (s : State) :
    OracleFrame s (fwrite handle data s).2 (.fwrite handle data (fwrite handle data s).1)
      { s.inputs with fwrites := s.inputs.fwrites.tail } :=
  draw_snd s.inputs.fwrites _ ▸ oracleFrame_note_setInputs s _ _

theorem fclose_oracle (handle : Word) (s : State) :
    OracleFrame s (fclose handle s).2 (.fclose handle (fclose handle s).1)
      { s.inputs with fcloses := s.inputs.fcloses.tail } :=
  draw_snd s.inputs.fcloses _ ▸ oracleFrame_note_setInputs s _ _

/-! ## The syscalls that touch no guest memory -/

/-- Settles O37: by the dispatcher's answer for number 0. -/
theorem exitHaltsWithCodeFromA0 : Obligations.ExitHaltsWithCodeFromA0 := by
  unfold Obligations.ExitHaltsWithCodeFromA0
  exact ⟨decodesAs_system.1, fun s hnumber => ⟨_, exec_ecall_ok (dispatch_exit hnumber), halts_halt .exit _ s⟩⟩

/-- Settles O38: the dispatcher answers the sentinel in the state it was called in. -/
theorem unknownSyscallReturnsSentinel : Obligations.UnknownSyscallReturnsSentinel := by
  unfold Obligations.UnknownSyscallReturnsSentinel
  exact fun s hnumber => ⟨_, exec_ecall_ok (dispatch_unknown hnumber), writesReg_setReg_advance s 10#5 sentinel⟩

theorem setWidth_eq_byteOf (v : Word) : v.setWidth 8 = byteOf v 0 := by
  rw [byteOf, Nat.pow_zero, Nat.div_one, BitVec.ofNat_toNat]

/-- Settles O39: one `consolePut` of the low byte. -/
theorem putcharWritesOneByte : Obligations.PutcharWritesOneByte := by
  unfold Obligations.PutcharWritesOneByte
  intro s hnumber
  rw [← setWidth_eq_byteOf]
  obtain ⟨hframe, hram⟩ := consolePut_frame s ((s.getReg 10#5).setWidth 8)
  exact ⟨_, exec_ecall_ok (dispatch_putchar hnumber), hframe.returns _, sameRam_applyResult_ret hram _, by simp [arg0],
    by simp [arg0], by simp, by simp [arg0]⟩

theorem sysGetchar_eq (s : State) :
    sysGetchar s = .ok (.ret (((kbdPop s).1.map fun key => BitVec.ofNat 32 key.val).getD sentinel), (kbdPop s).2) := by
  unfold sysGetchar
  split <;> rename_i h <;> simp [h]

/-- No key code is the sentinel (R248). -/
theorem ofNat_key_ne_sentinel (key : Key) : BitVec.ofNat 32 key.val ≠ 0xFFFFFFFF#32 := by
  intro h
  have hvalue := congrArg BitVec.toNat h
  have := key.isLt
  simp only [BitVec.toNat_ofNat] at hvalue
  omega

/-- Settles O40: the key popped, or the sentinel for none. -/
theorem getcharReturnsKeyOrSentinel : Obligations.GetcharReturnsKeyOrSentinel := by
  unfold Obligations.GetcharReturnsKeyOrSentinel
  intro s hnumber
  have ho := kbdPop_oracle s
  refine ⟨_, (kbdPop s).1, exec_ecall_ok ((dispatch_getchar hnumber).trans (sysGetchar_eq s)), ?_,
    fun key _ => ofNat_key_ne_sentinel key, fun a rest hset => draw_fst_of_cons _ hset,
    sameRam_applyResult_ret ho.ram _, by simpa using ho.consoleOutput, by simpa using ho.console,
    by simpa using ho.inputs, by simpa using ho.events⟩
  cases (kbdPop s).1 <;> exact ho.frame.returns _

theorem sysFclose_eq (s : State) :
    sysFclose s = .ok (.ret (if (fclose (arg0 s) s).1 then 0#32 else sentinel), (fclose (arg0 s) s).2) := by
  unfold sysFclose
  split <;> rename_i h <;> simp [h]

/-- Settles O49: the file system's answer. -/
theorem fcloseReturnsZeroOrSentinel : Obligations.FcloseReturnsZeroOrSentinel := by
  unfold Obligations.FcloseReturnsZeroOrSentinel
  intro s hnumber
  have ho := fclose_oracle (arg0 s) s
  exact ⟨_, (fclose (arg0 s) s).1, exec_ecall_ok ((dispatch_fclose hnumber).trans (sysFclose_eq s)),
    fun a rest hset => draw_fst_of_cons _ hset, ho.frame.returns _, sameRam_applyResult_ret ho.ram _,
    by simpa using ho.consoleOutput, by simpa using ho.console, by simpa using ho.inputs, by simpa using! ho.events⟩

end Sys2Proof.Machine
end

section
/-! SUPPORT. Proofs about puts and fopen (60_exceptions.md R249, R253): a string in RAM, a string over the bus, and the
two ways in which reading one stops. -/

namespace Sys2Proof.Machine

/-! ## Scans -/

theorem foldl_consolePut (s : State) (bs : List Byte) : bs.foldl State.consolePut s = s.consolePutAll bs := by
  induction bs generalizing s with
  | nil => rfl
  | cons b bs ih => exact ih (s.consolePut b)

theorem foldl_keep (s : State) (bs : List Byte) : bs.foldl (fun u _ => u) s = s := by
  induction bs with
  | nil => rfl
  | cons b bs ih => exact ih

theorem keep_frame (s : State) (_ : Byte) : CallFrame s s ∧ s.ram = s.ram := ⟨.refl s, rfl⟩

/-- What a scan adds to consoleOutput up to its state `n`, where `each` adds the bytes `more` of a byte. -/
theorem Scans.consoleOutput {each : State → Byte → State} {more : Byte → List Byte}
    (heach : ∀ s b, (each s b).consoleOutput = s.consoleOutput ++ more b) {a : Word} {n : Nat} {u : Nat → State}
    {byte : Nat → Byte} (h : Scans each a n u byte) :
    (u n).consoleOutput = (u 0).consoleOutput ++ (List.range n).flatMap (fun i => more (byte i)) := by
  induction n with
  | zero => simp
  | succ n ih =>
    obtain ⟨v, hread, hnext⟩ := h.reads n (Nat.lt_succ_self n)
    rw [hnext, heach, (byteRead_frame hread).1.consoleOutput, ih (h.mono (Nat.le_succ n)), List.range_succ,
      List.flatMap_append, List.append_assoc]
    simp

/-- A scan that has met its zero byte, where `each` changes no more of a state than a syscall may: everything it did. -/
structure ScanEnds (each : State → Byte → State) (more : Byte → List EnvEvent) (s v : State) (a : Word) (n : Nat)
    (byte : Nat → Byte) : Prop where
  string : readString each a s = .ok ((List.range n).map byte, v)
  frame  : CallFrame s v
  ram    : v.ram = s.ram
  events : v.events = s.events ++
    (List.range n).flatMap (fun i => s.readEvent (byteAddress a i) (byte i) ++ more (byte i)) ++
      s.readEvent (byteAddress a n) 0#8
  inputs : v.inputs = { s.inputs with devReads := s.inputs.devReads.drop (s.deviceAddresses a (n + 1)).length }

theorem Scans.ends {each : State → Byte → State} {more : Byte → List EnvEvent}
    (heach : ∀ s b, (CallFrame s (each s b) ∧ (each s b).ram = s.ram) ∧ (each s b).events = s.events ++ more b ∧
      (each s b).inputs = s.inputs)
    {a : Word} {n : Nat} {u : Nat → State} {byte : Nat → Byte} {v : State} (h : Scans each a n u byte)
    (hend : byteRead (byteAddress a n) (u n) = .ok (0#8, v)) : ScanEnds each more (u 0) v a n byte := by
  obtain ⟨hframe, hram⟩ := h.frame fun s b => (heach s b).1
  obtain ⟨hevents, hinputs⟩ := h.transactions heach
  obtain ⟨hframe', hram'⟩ := byteRead_frame hend
  obtain ⟨-, hevents', hinputs', -⟩ := byteRead_finds hend
  refine ⟨readString_ends h hend, hframe.trans hframe'.callFrame, hram'.trans hram, ?_, ?_⟩
  · rw [hevents', hevents, readEvent_congr hframe.windows]
  · rw [hinputs', hinputs, hframe.windows, deviceAddresses_snoc, List.length_append, List.drop_drop]

theorem ramBytes_eq_map (s : State) (a : Word) (n : Nat) :
    s.ramBytes a n = (List.range n).map fun i => s.ramByte (byteAddress a i).toNat := rfl

/-- A string in RAM is read as its bytes, in the state that what is done with each of them leaves. -/
theorem readString_ram {each : State → Byte → State} (heach : ∀ s b, CallFrame s (each s b) ∧ (each s b).ram = s.ram)
    {s : State} {a : Word} {n : Nat}
    (hbytes : ∀ i, i < n → s.InRam (byteAddress a i) ∧ s.ramByte (byteAddress a i).toNat ≠ 0#8)
    (hend : s.InRam (byteAddress a n)) (hzero : s.ramByte (byteAddress a n).toNat = 0#8) :
    readString each a s = .ok (s.ramBytes a n, (s.ramBytes a n).foldl each s) := by
  obtain ⟨u, rfl, hscan, hlast⟩ := scans_ram heach hbytes
  obtain ⟨hframe, hram⟩ := hscan.frame heach
  have hread := byteRead_inRam ((inRam_congr hframe.windows hframe.ramSize _).mpr hend)
  rw [State.ramByte, hram, ← State.ramByte, hzero] at hread
  rw [readString_ends hscan hread, hlast, ramBytes_eq_map]

theorem readString_ram_outOfRange {each : State → Byte → State}
    (heach : ∀ s b, CallFrame s (each s b) ∧ (each s b).ram = s.ram) {s : State} {a : Word} {n : Nat}
    (hbytes : ∀ i, i < n → s.InRam (byteAddress a i) ∧ s.ramByte (byteAddress a i).toNat ≠ 0#8)
    (hend : ¬ s.Accessible (byteAddress a n)) : readString each a s = .error (.fault .ramOutOfRange) := by
  obtain ⟨u, rfl, hscan, -⟩ := scans_ram heach hbytes
  exact readString_outOfRange heach hscan hend

/-! ## puts -/

theorem sysPuts_of_readString {s t : State} {bs : List Byte}
    (h : readString State.consolePut (s.getReg 10#5) s = .ok (bs, t)) :
    sysPuts s = .ok (.ret (BitVec.ofNat 32 bs.length), t) := by
  rw [sysPuts, arg0, h]
  rfl

theorem exec_puts_fault {s : State} {f : Fault} (hnumber : s.getReg 17#5 = 3#32)
    (h : readString State.consolePut (s.getReg 10#5) s = .error (.fault f)) : exec .ecall s = .fault f := by
  refine exec_ecall_fault ((dispatch_puts hnumber).trans ?_)
  rw [sysPuts, arg0, h]
  rfl

theorem consolePut_transactions (s : State) (b : Byte) :
    (CallFrame s (s.consolePut b) ∧ (s.consolePut b).ram = s.ram) ∧
      (s.consolePut b).events = s.events ++ [.consolePut b] ∧ (s.consolePut b).inputs = s.inputs :=
  ⟨consolePut_frame s b, rfl, rfl⟩

/-- Settles O41: the string read, from RAM or by its scan, and `consolePut` of each byte on the way. -/
theorem putsWritesStringAndReturnsLength : Obligations.PutsWritesStringAndReturnsLength := by
  unfold Obligations.PutsWritesStringAndReturnsLength
  refine ⟨fun s n hnumber _ hbytes => ⟨fun hend hzero => ?ram, fun hend => ?ramStops⟩,
    fun s n u byte hnumber hstart hscan => ⟨fun v hend => ?bus, fun hend => ?busStops⟩,
    fun s u byte hnumber hstart hscan => ?endless⟩
  case ram =>
    have hread := readString_ram consolePut_frame hbytes hend hzero
    rw [foldl_consolePut] at hread
    obtain ⟨hframe, hram⟩ := consolePutAll_frame s (s.ramBytes (s.getReg 10#5) n)
    refine ⟨_, exec_ecall_ok ((dispatch_puts hnumber).trans (sysPuts_of_readString hread)), ?_,
      sameRam_applyResult_ret hram _, by simp, by simp, by simp, by simp⟩
    rw [ramBytes_length]
    exact hframe.returns _
  case ramStops => exact exec_puts_fault hnumber (readString_ram_outOfRange consolePut_frame hbytes hend)
  case bus =>
    subst hstart
    have h := hscan.ends consolePut_transactions hend
    refine ⟨_, exec_ecall_ok ((dispatch_puts hnumber).trans (sysPuts_of_readString h.string)), ?_,
      sameRam_applyResult_ret h.ram _, ?_, by simp, by simpa using h.inputs, by simpa using h.events⟩
    · rw [List.length_map, List.length_range]
      exact h.frame.returns _
    · rw [applyResult_ret_consoleOutput, (byteRead_frame hend).1.consoleOutput,
        hscan.consoleOutput (more := fun b => [b]) fun _ _ => rfl, ← List.map_eq_flatMap]
  case busStops =>
    subst hstart
    exact exec_puts_fault hnumber (readString_outOfRange consolePut_frame hscan hend)
  case endless =>
    subst hstart
    exact exec_puts_fault hnumber (readString_neverReturns hscan)

/-! ## fopen -/

/-- What fopen returns (R253). -/
def handleOrSentinel (answer : Option Handle) : Word := (answer.map fun h => BitVec.ofNat 32 h.toNat).getD sentinel

theorem sysFopen_of_readString {s t : State} {name : List Byte}
    (h : readString (fun u _ => u) (s.getReg 10#5) s = .ok (name, t)) :
    sysFopen s = .ok (.ret (handleOrSentinel (fopen name (s.getReg 11#5) t).1), (fopen name (s.getReg 11#5) t).2) := by
  rw [sysFopen, arg0, h, arg1]
  simp only [bind, Except.bind]
  split <;> rename_i hanswer <;> simp [hanswer, handleOrSentinel, BitVec.ofNat_toNat, pure, Except.pure]

theorem exec_fopen_fault {s : State} {f : Fault} (hnumber : s.getReg 17#5 = 7#32)
    (h : readString (fun u _ => u) (s.getReg 10#5) s = .error (.fault f)) : exec .ecall s = .fault f := by
  refine exec_ecall_fault ((dispatch_fopen hnumber).trans ?_)
  rw [sysFopen, arg0, h]
  rfl

/-- Settles O46: the name read, from RAM or by its scan, and then the file system's answer. -/
theorem fopenReturnsHandleOrSentinel : Obligations.FopenReturnsHandleOrSentinel := by
  unfold Obligations.FopenReturnsHandleOrSentinel
  refine ⟨fun s n hnumber _ hbytes hend hzero => ?ram,
    fun s n u byte hnumber hstart hscan => ⟨fun v hend => ?bus, fun hend => ?busStops⟩,
    fun s u byte hnumber hstart hscan => ?endless⟩
  case ram =>
    have hread := readString_ram keep_frame hbytes hend hzero
    rw [foldl_keep] at hread
    have ho := fopen_oracle (s.ramBytes (s.getReg 10#5) n) (s.getReg 11#5) s
    refine ⟨_, (fopen (s.ramBytes (s.getReg 10#5) n) (s.getReg 11#5) s).1,
      exec_ecall_ok ((dispatch_fopen hnumber).trans (sysFopen_of_readString hread)),
      ⟨fun a rest hset => draw_fst_of_cons _ hset, ?_, sameRam_applyResult_ret ho.ram _,
        by simpa using ho.consoleOutput, by simpa using ho.events⟩, by simpa using ho.console, by simpa using ho.inputs⟩
    cases (fopen (s.ramBytes (s.getReg 10#5) n) (s.getReg 11#5) s).1 <;> exact ho.frame.returns _
  case bus =>
    subst hstart
    have h := hscan.ends (more := fun _ => []) (fun s b => ⟨keep_frame s b, (List.append_nil _).symm, rfl⟩) hend
    have hout := hscan.consoleOutput (more := fun _ => []) fun _ _ => (List.append_nil _).symm
    have ho := fopen_oracle ((List.range n).map byte) ((u 0).getReg 11#5) v
    have hset : ∀ a rest, (u 0).inputs.fopens = a :: rest →
        (fopen ((List.range n).map byte) ((u 0).getReg 11#5) v).1 = a := by
      intro a rest hset
      exact draw_fst_of_cons (rest := rest) _ (by rw [h.inputs]; exact hset)
    refine ⟨_, _, exec_ecall_ok ((dispatch_fopen hnumber).trans (sysFopen_of_readString h.string)),
      ⟨hset, ?_, sameRam_applyResult_ret (ho.ram.trans h.ram) _, ?_, ?_⟩, by simpa using ho.console, ?_⟩
    · cases (fopen ((List.range n).map byte) ((u 0).getReg 11#5) v).1 <;> exact (h.frame.trans ho.frame).returns _
    · rw [applyResult_ret_consoleOutput, ho.consoleOutput, (byteRead_frame hend).1.consoleOutput, hout]
      simp
    · rw [applyResult_ret_events, ho.events, h.events]
      simp
    · rw [applyResult_ret_inputs, ho.inputs, h.inputs]
  case busStops =>
    subst hstart
    exact exec_fopen_fault hnumber (readString_outOfRange keep_frame hscan hend)
  case endless =>
    subst hstart
    exact exec_fopen_fault hnumber (readString_neverReturns hscan)

end Sys2Proof.Machine
end

section
/-! SUPPORT. Proofs about the syscalls with a buffer of known length: read_sector, write_sector, fread and fwrite
(60_exceptions.md R250, R251, R254, R255, 20_memory.md R79). -/

namespace Sys2Proof.Machine

/-! ## What a range in RAM rules out -/

theorem writeEvents_of_ramRange {s : State} {a : Word} {bs : List Byte} (h : s.RamRange a bs.length) :
    s.writeEvents a bs = [] := by
  refine List.flatMap_eq_nil_iff.mpr fun k hk => ?_
  rw [State.writeEvent, if_pos (h k (List.mem_range.mp hk)).1]

theorem avoidsGraphics_of_ramRange {s : State} {a : Word} {n : Nat} (h : s.RamRange a n) : s.AvoidsGraphics a n := by
  intro k hk
  rw [(h k hk).1]
  simp

theorem StoresThroughBus.storesBytes {s t : State} {a : Word} {bs : List Byte} (h : StoresThroughBus bs a s t)
    (hram : s.RamRange a bs.length) : StoresBytes bs a s t :=
  ⟨fun i hi => (h.stored i hi).trans (if_pos (hram i hi).1), h.others⟩

/-- An ECALL that returns leaves RAM as its syscall left it. -/
theorem StoresThroughBus.setRunState {bs : List Byte} {a : Word} {s t : State} (h : StoresThroughBus bs a s t)
    (r : RunState) : StoresThroughBus bs a s (t.setRunState r) :=
  ⟨h.stored, h.others⟩

theorem StoresThroughBus.applyResult_ret {s t : State} {a : Word} {bs : List Byte} (h : StoresThroughBus bs a s t)
    (v : Word) : StoresThroughBus bs a s (applyResult (.ret v) t) :=
  ⟨by simpa using h.stored, by simpa using h.others⟩

/-! ## A buffer that is filled -/

/-- A syscall that had come to `u` without changing RAM, and then wrote the bytes `bs` from `a` on: what that leaves. -/
structure WritesAfter (s u t : State) (a : Word) (bs : List Byte) : Prop where
  frame         : CallFrame s t
  ram           : Memory.wf s.ram → StoresThroughBus bs a s t
  events        : t.events = u.events ++ s.writeEvents a bs
  inputs        : t.inputs = u.inputs
  consoleOutput : t.consoleOutput = u.consoleOutput
  console       : ConsoleAfterWrites s a bs u.console t.console

section
variable {s u : State} {a : Word} {bs : List Byte}

theorem CallFrame.accessibleRange (f : CallFrame s u) {n : Nat} : u.AccessibleRange a n ↔ s.AccessibleRange a n := by
  simp only [State.AccessibleRange, accessible_congr f.windows f.ramSize]

/-- What the bus writes make of RAM and of the console does not depend on more than RAM and the map. -/
theorem BusWrites.writesAfter {t : State} (h : BusWrites u t a bs) (f : CallFrame s u) (hram : u.ram = s.ram) :
    WritesAfter s u t a bs where
  frame := f.trans h.frame.callFrame
  ram := fun hwf => by
    obtain ⟨hstored, hothers⟩ := h.ram (f.ramCanonical hwf)
    simp only [f.windows, State.ramByte, hram] at hstored hothers
    exact ⟨hstored, hothers⟩
  events := by rw [h.events, writeEvents_congr f.windows]
  inputs := h.inputs
  consoleOutput := h.frame.consoleOutput
  console := by
    obtain ⟨hsame, hvram⟩ := h.console
    simp only [State.AvoidsGraphics, State.GraphicsOnlyInVram, f.windows] at hsame hvram
    refine ⟨hsame, fun hinside => ?_⟩
    obtain ⟨hcol, hrow, hwritten, hothers⟩ := hvram hinside
    simp only [f.windows] at hwritten hothers
    exact ⟨hcol, hrow, hwritten, hothers⟩

theorem writeBytes_after (f : CallFrame s u) (hram : u.ram = s.ram) (hlength : bs.length ≤ 2 ^ 32)
    (h : s.AccessibleRange a bs.length) : ∃ t, writeBytes bs a u = .ok t ∧ WritesAfter s u t a bs := by
  obtain ⟨t, hwrite, hwrites⟩ := writeBytes_writes hlength (f.accessibleRange.mpr h)
  exact ⟨t, hwrite, hwrites.writesAfter f hram⟩

theorem writeBytes_after_outOfRange (f : CallFrame s u) (h : ¬ s.AccessibleRange a bs.length) :
    writeBytes bs a u = .error (.fault .ramOutOfRange) :=
  writeBytes_outOfRange (mt f.accessibleRange.mp h)

end

/-- An ECALL that returned `v` after the answer `answered`, with the bytes `data` written at a1 through the bus. -/
structure Filled (s t : State) (data : List Byte) (v : Word) (answered : EnvEvent) (left : EnvInputs) : Prop where
  returns       : Returns v s t
  ram           : Memory.wf s.ram → StoresThroughBus data (s.getReg 11#5) s t
  events        : t.events = s.events ++ [answered] ++ s.writeEvents (s.getReg 11#5) data
  consoleOutput : t.consoleOutput = s.consoleOutput
  inputs        : t.inputs = left
  console       : ConsoleAfterWrites s (s.getReg 11#5) data s.console t.console

/-- An ECALL that returned `v` after the answer `answered`, with no byte of guest memory reached. -/
structure Answered (s t : State) (v : Word) (answered : EnvEvent) (left : EnvInputs) : Prop where
  returns       : Returns v s t
  ram           : SameRam s t
  events        : t.events = s.events ++ [answered]
  consoleOutput : t.consoleOutput = s.consoleOutput
  inputs        : t.inputs = left
  console       : t.console = s.console

section
variable {s u : State} {e : EnvEvent} {left : EnvInputs}

theorem OracleFrame.answered (ho : OracleFrame s u e left) (v : Word) :
    Answered s (applyResult (.ret v) u) v e left :=
  ⟨ho.frame.returns v, sameRam_applyResult_ret ho.ram v, by simpa using ho.events, by simpa using ho.consoleOutput,
    by simpa using ho.inputs, by simpa using ho.console⟩

theorem OracleFrame.filled (ho : OracleFrame s u e left) {t : State} {data : List Byte}
    (h : WritesAfter s u t (s.getReg 11#5) data) (v : Word) :
    Filled s (applyResult (.ret v) t) data v e left where
  returns := h.frame.returns v
  ram := fun hwf => (h.ram hwf).applyResult_ret v
  events := by rw [applyResult_ret_events, h.events, ho.events]
  consoleOutput := by rw [applyResult_ret_consoleOutput, h.consoleOutput, ho.consoleOutput]
  inputs := by rw [applyResult_ret_inputs, h.inputs, ho.inputs]
  console := by rw [applyResult_ret_console, ← ho.console]; exact h.console

/-- An ECALL that fills a buffer with an answer: it completes where every byte of the buffer is reachable. -/
theorem exec_ecall_fills (ho : OracleFrame s u e left) {data : List Byte} {v : Word}
    (hdispatch : dispatch s = (writeBytes data (s.getReg 11#5) u).map fun t => (.ret v, t))
    (hlength : data.length ≤ 2 ^ 32) (h : s.AccessibleRange (s.getReg 11#5) data.length) :
    ∃ t, exec .ecall s = .next t ∧ Filled s t data v e left := by
  obtain ⟨t, hwrite, hafter⟩ := writeBytes_after ho.frame ho.ram hlength h
  rw [hwrite] at hdispatch
  exact ⟨_, exec_ecall_ok hdispatch, ho.filled hafter v⟩

theorem exec_ecall_fills_outOfRange (ho : OracleFrame s u e left) {data : List Byte} {v : Word}
    (hdispatch : dispatch s = (writeBytes data (s.getReg 11#5) u).map fun t => (.ret v, t))
    (h : ¬ s.AccessibleRange (s.getReg 11#5) data.length) : exec .ecall s = .fault .ramOutOfRange := by
  rw [writeBytes_after_outOfRange ho.frame h] at hdispatch
  exact exec_ecall_fault hdispatch

end

/-! ## read_sector (R250) -/

section
variable {s : State} (hnumber : s.getReg 17#5 = 4#32)
include hnumber

theorem dispatch_readSector_some {data : Sector} (h : (readSector (s.getReg 10#5) s).1 = some data) :
    dispatch s = (writeBytes data.toList (s.getReg 11#5) (readSector (s.getReg 10#5) s).2).map
      fun t => (.ret 0#32, t) := by
  rw [dispatch_readSector hnumber, sysReadSector, arg0, arg1]
  split <;> rename_i hanswer <;> rw [hanswer] at h <;> cases h
  simp only [hanswer]
  rfl

theorem dispatch_readSector_none (h : (readSector (s.getReg 10#5) s).1 = none) :
    dispatch s = .ok (.ret sentinel, (readSector (s.getReg 10#5) s).2) := by
  rw [dispatch_readSector hnumber, sysReadSector, arg0]
  split <;> rename_i hanswer <;> rw [hanswer] at h <;> cases h
  simp only [hanswer]

end

/-! ## fread (R254) -/

section
variable {s : State} (hnumber : s.getReg 17#5 = 8#32)
include hnumber

theorem dispatch_fread_some {data : List Byte} (h : (fread (s.getReg 10#5) (s.getReg 12#5) s).1 = some data) :
    dispatch s = (writeBytes data (s.getReg 11#5) (fread (s.getReg 10#5) (s.getReg 12#5) s).2).map
      fun t => (.ret (BitVec.ofNat 32 data.length), t) := by
  rw [dispatch_fread hnumber, sysFread, arg0, arg1, arg2]
  split <;> rename_i hanswer <;> rw [hanswer] at h <;> cases h
  simp only [hanswer]
  rfl

theorem dispatch_fread_none (h : (fread (s.getReg 10#5) (s.getReg 12#5) s).1 = none) :
    dispatch s = .ok (.ret sentinel, (fread (s.getReg 10#5) (s.getReg 12#5) s).2) := by
  rw [dispatch_fread hnumber, sysFread, arg0, arg2]
  split <;> rename_i hanswer <;> rw [hanswer] at h <;> cases h
  simp only [hanswer]

end

/-- An answer is cut to the maximum (log 22). -/
theorem fread_length {handle max : Word} {s : State} {data : List Byte} (h : (fread handle max s).1 = some data) :
    data.length ≤ max.toNat := by
  obtain ⟨bytes, -, rfl⟩ := Option.map_eq_some_iff.mp h
  exact List.length_take_le _ _

theorem fread_of_set {s : State} {handle max : Word} {a : Option (List Byte)} {rest : List (Option (List Byte))}
    (h : s.inputs.freads = a :: rest) : (fread handle max s).1 = a.map (List.take max.toNat) :=
  congrArg (Option.map (List.take max.toNat)) (draw_fst_of_cons _ h)

/-! ## A buffer that is handed over -/

/-- An ECALL that returned `v` after it read `n` bytes at a1 through the bus and then got the answer `answered`. -/
structure Handed (s t : State) (n : Nat) (byte : Nat → Byte) (v : Word) (answered : EnvEvent) (left : EnvInputs) :
    Prop where
  returns       : Returns v s t
  ram           : SameRam s t
  events        : t.events = s.events ++ s.readEvents (s.getReg 11#5) n byte ++ [answered]
  consoleOutput : t.consoleOutput = s.consoleOutput
  inputs        : t.inputs = left
  console       : s.GraphicsOnlyInVram (s.getReg 11#5) n → t.console = s.console

theorem BusReads.handed {s t u : State} {n : Nat} {byte : Nat → Byte} {answered : EnvEvent} {left : EnvInputs}
    (h : BusReads s t (s.getReg 11#5) n byte) (ho : OracleFrame t u answered left) (v : Word) :
    Handed s (applyResult (.ret v) u) n byte v answered left where
  returns := (h.frame.callFrame.trans ho.frame).returns v
  ram := sameRam_applyResult_ret (ho.ram.trans h.ram) v
  events := by rw [applyResult_ret_events, ho.events, h.events]
  consoleOutput := by rw [applyResult_ret_consoleOutput, ho.consoleOutput, h.frame.consoleOutput]
  inputs := by rw [applyResult_ret_inputs, ho.inputs]
  console := fun hinside => by rw [applyResult_ret_console, ho.console, h.console hinside]

theorem sysWriteSector_of_readBytes {s t : State} {data : List Byte}
    (h : readBytes 512 (s.getReg 11#5) s = .ok (data, t)) :
    sysWriteSector s = .ok (.ret (if (writeSector (s.getReg 10#5) data t).1 then 0#32 else sentinel),
      (writeSector (s.getReg 10#5) data t).2) := by
  rw [sysWriteSector, arg1, h, arg0]
  simp only [bind, Except.bind]
  split <;> rename_i hanswer <;> simp [hanswer, pure, Except.pure]

theorem sysFwrite_of_readBytes {s t : State} {data : List Byte}
    (h : readBytes (s.getReg 12#5).toNat (s.getReg 11#5) s = .ok (data, t)) :
    sysFwrite s = .ok (.ret ((fwrite (s.getReg 10#5) data t).1.getD sentinel), (fwrite (s.getReg 10#5) data t).2) := by
  rw [sysFwrite, arg1, arg2, h, arg0]
  simp only [bind, Except.bind]
  split <;> rename_i hanswer <;> simp [hanswer, pure, Except.pure]

theorem exec_writeSector_outOfRange {s : State} (hnumber : s.getReg 17#5 = 5#32)
    (h : ¬ s.AccessibleRange (s.getReg 11#5) 512) : exec .ecall s = .fault .ramOutOfRange := by
  refine exec_ecall_fault ((dispatch_writeSector hnumber).trans ?_)
  rw [sysWriteSector, arg1, readBytes_outOfRange h]
  rfl

theorem exec_fwrite_outOfRange {s : State} (hnumber : s.getReg 17#5 = 9#32)
    (h : ¬ s.AccessibleRange (s.getReg 11#5) (s.getReg 12#5).toNat) : exec .ecall s = .fault .ramOutOfRange := by
  refine exec_ecall_fault ((dispatch_fwrite hnumber).trans ?_)
  rw [sysFwrite, arg1, arg2, readBytes_outOfRange h]
  rfl

/-! ## The obligations -/

/-- Settles O50: for each syscall, what its answer fills or what is handed over for it, and where it stops. -/
theorem syscallBuffersUseTheBus : Obligations.SyscallBuffersUseTheBus := by
  unfold Obligations.SyscallBuffersUseTheBus
  intro s
  refine ⟨fun x rest hset => draw_fst_of_cons _ hset, fun hnumber => ?readSector,
    fun hnumber => ⟨fun hreach => ?writeSector, exec_writeSector_outOfRange hnumber⟩, fun x rest => fread_of_set,
    fun hnumber => ?fread, fun hnumber => ⟨fun hreach => ?fwrite, exec_fwrite_outOfRange hnumber⟩⟩
  case readSector =>
    have ho := readSector_oracle (s.getReg 10#5) s
    cases hanswer : (readSector (s.getReg 10#5) s).1 with
    | some data =>
      rw [hanswer] at ho
      have hdispatch := dispatch_readSector_some hnumber hanswer
      refine ⟨fun hwf hreach => ?_, exec_ecall_fills_outOfRange ho hdispatch⟩
      obtain ⟨t, hnext, h⟩ := exec_ecall_fills ho hdispatch (by simp) hreach
      exact ⟨t, hnext, h.returns, h.ram hwf, h.events, h.consoleOutput, h.inputs, h.console⟩
    | none =>
      rw [hanswer] at ho
      have h := ho.answered sentinel
      exact ⟨_, exec_ecall_ok (dispatch_readSector_none hnumber hanswer), h.returns, h.ram, h.events, h.consoleOutput,
        h.inputs, h.console⟩
  case fread =>
    have ho := fread_oracle (s.getReg 10#5) (s.getReg 12#5) s
    cases hanswer : (fread (s.getReg 10#5) (s.getReg 12#5) s).1 with
    | some data =>
      rw [hanswer] at ho
      have hdispatch := dispatch_fread_some hnumber hanswer
      have hlength := fread_length hanswer
      refine ⟨hlength, fun hwf hreach => ?_, exec_ecall_fills_outOfRange ho hdispatch⟩
      obtain ⟨t, hnext, h⟩ := exec_ecall_fills ho hdispatch (hlength.trans (s.getReg 12#5).isLt.le) hreach
      exact ⟨t, hnext, h.returns, h.ram hwf, h.events, h.consoleOutput, h.inputs, h.console⟩
    | none =>
      rw [hanswer] at ho
      have h := ho.answered sentinel
      exact ⟨_, exec_ecall_ok (dispatch_fread_none hnumber hanswer), h.returns, h.ram, h.events, h.consoleOutput,
        h.inputs, h.console⟩
  case writeSector =>
    obtain ⟨byte, t, hread, hreads⟩ := readBytes_reads hreach
    have ho := writeSector_oracle (s.getReg 10#5) ((List.range 512).map byte) t
    rw [hreads.inputs] at ho
    have h := hreads.handed ho
      (if (writeSector (s.getReg 10#5) ((List.range 512).map byte) t).1 then 0#32 else sentinel)
    have hnext := exec_ecall_ok ((dispatch_writeSector hnumber).trans (sysWriteSector_of_readBytes hread))
    refine ⟨_, byte, _, _, hreads.finds, ⟨_, fun x rest hset => ?_, rfl, rfl⟩, hnext, h.returns, h.ram, h.events,
      h.consoleOutput, ?_, h.console⟩
    · exact draw_fst_of_cons (rest := rest) _ (by rw [hreads.inputs]; exact hset)
    · rw [h.inputs]
  case fwrite =>
    obtain ⟨byte, t, hread, hreads⟩ := readBytes_reads hreach
    have ho := fwrite_oracle (s.getReg 10#5) ((List.range (s.getReg 12#5).toNat).map byte) t
    rw [hreads.inputs] at ho
    have h := hreads.handed ho
      ((fwrite (s.getReg 10#5) ((List.range (s.getReg 12#5).toNat).map byte) t).1.getD sentinel)
    refine ⟨_, byte, _, _, hreads.finds, ⟨_, fun x rest hset => ?_, rfl, rfl⟩,
      exec_ecall_ok ((dispatch_fwrite hnumber).trans (sysFwrite_of_readBytes hread)), h.returns, h.ram, h.events,
      h.consoleOutput, h.inputs, h.console⟩
    exact draw_fst_of_cons (rest := rest) _ (by rw [hreads.inputs]; exact hset)

/-- A buffer filled in RAM: nothing passes to a peripheral. -/
theorem Filled.inRam {s t : State} {data : List Byte} {v : Word} {answered : EnvEvent} {left : EnvInputs}
    (h : Filled s t data v answered left) (hwf : Memory.wf s.ram) (hram : s.RamRange (s.getReg 11#5) data.length) :
    StoresBytes data (s.getReg 11#5) s t ∧ t.events = s.events ++ [answered] ∧ t.console = s.console := by
  refine ⟨(h.ram hwf).storesBytes hram, ?_, h.console.same (avoidsGraphics_of_ramRange hram)⟩
  rw [h.events, writeEvents_of_ramRange hram, List.append_nil]

/-- Settles O42: a buffer in RAM is filled, or the answer is failure. -/
theorem readSectorFillsBuffer : Obligations.ReadSectorFillsBuffer := by
  unfold Obligations.ReadSectorFillsBuffer
  intro s hwf hnumber hram
  have ho := readSector_oracle (s.getReg 10#5) s
  have hset : ∀ a rest, s.inputs.sectorReads = a :: rest → (readSector (s.getReg 10#5) s).1 = a :=
    fun a rest hset => draw_fst_of_cons _ hset
  cases hanswer : (readSector (s.getReg 10#5) s).1 with
  | some data =>
    rw [hanswer] at ho hset
    have hram : s.RamRange (s.getReg 11#5) data.toList.length := by simpa using hram
    obtain ⟨t, hnext, h⟩ := exec_ecall_fills ho (dispatch_readSector_some hnumber hanswer) (by simp)
      (accessibleRange_of_ramRange hram)
    obtain ⟨hstores, hevents, hconsole⟩ := h.inRam hwf hram
    exact ⟨t, some data, hnext, hset, hevents, h.inputs, h.consoleOutput, hconsole, h.returns, hstores⟩
  | none =>
    rw [hanswer] at ho hset
    have h := ho.answered sentinel
    exact ⟨_, none, exec_ecall_ok (dispatch_readSector_none hnumber hanswer), hset, h.events, h.inputs, h.consoleOutput,
      h.console, h.returns, h.ram⟩

/-- Settles O47: the file system's bytes, at most a2, fill a buffer in RAM, or the answer is failure. -/
theorem freadStoresAtMostMaxCount : Obligations.FreadStoresAtMostMaxCount := by
  unfold Obligations.FreadStoresAtMostMaxCount
  intro s hwf hnumber hram
  have ho := fread_oracle (s.getReg 10#5) (s.getReg 12#5) s
  have hset : ∀ a rest, s.inputs.freads = a :: rest →
      (fread (s.getReg 10#5) (s.getReg 12#5) s).1 = a.map (List.take (s.getReg 12#5).toNat) :=
    fun a rest => fread_of_set
  cases hanswer : (fread (s.getReg 10#5) (s.getReg 12#5) s).1 with
  | some data =>
    rw [hanswer] at ho hset
    have hlength := fread_length hanswer
    have hram := ramRange_mono hram hlength
    obtain ⟨t, hnext, h⟩ := exec_ecall_fills ho (dispatch_fread_some hnumber hanswer)
      (hlength.trans (s.getReg 12#5).isLt.le) (accessibleRange_of_ramRange hram)
    obtain ⟨hstores, hevents, hconsole⟩ := h.inRam hwf hram
    exact ⟨t, some data, hnext, hset, hevents, h.inputs, h.consoleOutput, hconsole, hlength, h.returns, hstores⟩
  | none =>
    rw [hanswer] at ho hset
    have h := ho.answered sentinel
    exact ⟨_, none, exec_ecall_ok (dispatch_fread_none hnumber hanswer), hset, h.events, h.inputs, h.consoleOutput,
      h.console, h.returns, h.ram⟩

/-- Settles O43: a buffer in RAM is read without a trace, then the block device answers. -/
theorem writeSectorHandsOverBuffer : Obligations.WriteSectorHandsOverBuffer := by
  unfold Obligations.WriteSectorHandsOverBuffer
  intro s hnumber hram
  have h := (writeSector_oracle (s.getReg 10#5) (s.ramBytes (s.getReg 11#5) 512) s).answered
    (if (writeSector (s.getReg 10#5) (s.ramBytes (s.getReg 11#5) 512) s).1 then 0#32 else sentinel)
  exact ⟨_, _, exec_ecall_ok ((dispatch_writeSector hnumber).trans (sysWriteSector_of_readBytes (readBytes_ram hram))),
    fun a rest hset => draw_fst_of_cons _ hset, h.returns, h.ram, h.consoleOutput, h.console, h.inputs, h.events⟩

/-- Settles O48: a buffer in RAM is read without a trace, then the file system answers. -/
theorem fwriteHandsOverBytes : Obligations.FwriteHandsOverBytes := by
  unfold Obligations.FwriteHandsOverBytes
  intro s hnumber hram
  have ho := fwrite_oracle (s.getReg 10#5) (s.ramBytes (s.getReg 11#5) (s.getReg 12#5).toNat) s
  have hnext := exec_ecall_ok ((dispatch_fwrite hnumber).trans (sysFwrite_of_readBytes (readBytes_ram hram)))
  have hset : ∀ a rest, s.inputs.fwrites = a :: rest →
      (fwrite (s.getReg 10#5) (s.ramBytes (s.getReg 11#5) (s.getReg 12#5).toNat) s).1 = a :=
    fun a rest hset => draw_fst_of_cons _ hset
  have h := ho.answered ((fwrite (s.getReg 10#5) (s.ramBytes (s.getReg 11#5) (s.getReg 12#5).toNat) s).1.getD sentinel)
  refine ⟨_, _, hnext, hset, ?_, h.ram, h.consoleOutput, h.console, h.inputs, h.events⟩
  cases (fwrite (s.getReg 10#5) (s.ramBytes (s.getReg 11#5) (s.getReg 12#5).toNat) s).1 <;> exact ho.frame.returns _

end Sys2Proof.Machine
end

section
/-! SUPPORT. Proofs about getline (60_exceptions.md R252, R258): one attempt, as the ECALL makes the first and a step in
Suspended each of the others. -/

namespace Sys2Proof.Machine

/-! ## One attempt -/

/-- The state after an attempt has consumed and echoed the keys available. -/
def polled (p : PendingLine) (s : State) : State := (pollKeys p s).2.consolePutAll (pollKeys p s).1.echo

/-- The pending line after an attempt. -/
def polledLine (p : PendingLine) (s : State) : PendingLine := lineAfter p (pollKeys p s).1

section
variable {p : PendingLine} {s : State}

theorem polled_frame (p : PendingLine) (s : State) : CallFrame s (polled p s) ∧ (polled p s).ram = s.ram := by
  have ho := pollKeys_oracle p s
  obtain ⟨hframe, hram⟩ := consolePutAll_frame (pollKeys p s).2 (pollKeys p s).1.echo
  exact ⟨ho.frame.trans hframe, hram.trans ho.ram⟩

theorem polled_events (p : PendingLine) (s : State) :
    (polled p s).events = s.events ++ (.line (pollKeys p s).1 :: (pollKeys p s).1.echo.map .consolePut) := by
  rw [polled, consolePutAll_events, (pollKeys_oracle p s).events, List.append_assoc]
  rfl

theorem polled_inputs (p : PendingLine) (s : State) :
    (polled p s).inputs = { s.inputs with lines := s.inputs.lines.tail } := by
  rw [polled, consolePutAll_inputs, (pollKeys_oracle p s).inputs]

theorem polled_consoleOutput (p : PendingLine) (s : State) :
    (polled p s).consoleOutput = s.consoleOutput ++ (pollKeys p s).1.echo := by
  rw [polled, consolePutAll_consoleOutput, (pollKeys_oracle p s).consoleOutput]

/-- What an attempt passed to and took from the surroundings, `written` being the bytes it wrote at the buffer. -/
structure LinePolled (p : PendingLine) (s : State) (written : List Byte) (t : State) : Prop where
  inputs        : t.inputs = { s.inputs with lines := s.inputs.lines.tail }
  events        : t.events = s.events ++ (.line (pollKeys p s).1 :: (pollKeys p s).1.echo.map .consolePut) ++
    s.writeEvents p.buffer written
  consoleOutput : t.consoleOutput = s.consoleOutput ++ (pollKeys p s).1.echo
  console       : ConsoleAfterWrites s p.buffer written (polled p s).console t.console

theorem consoleAfterWrites_nil (s : State) (a : Word) (c : TextConsole) : ConsoleAfterWrites s a [] c c :=
  ⟨fun _ => rfl, fun _ => ⟨rfl, rfl, fun i hi => absurd hi (Nat.not_lt_zero i), fun _ _ _ _ => rfl⟩⟩

theorem linePolled_nil (p : PendingLine) (s : State) : LinePolled p s [] (polled p s) where
  inputs := polled_inputs p s
  events := (polled_events p s).trans (List.append_nil _).symm
  consoleOutput := polled_consoleOutput p s
  console := consoleAfterWrites_nil s p.buffer _

theorem WritesAfter.linePolled {t : State} {written : List Byte}
    (h : WritesAfter s (polled p s) t p.buffer written) : LinePolled p s written t where
  inputs := h.inputs.trans (polled_inputs p s)
  events := by rw [h.events, polled_events]
  consoleOutput := h.consoleOutput.trans (polled_consoleOutput p s)
  console := h.console

theorem LinePolled.applyResult_ret {t : State} {written : List Byte} (h : LinePolled p s written t) (v : Word) :
    LinePolled p s written (applyResult (.ret v) t) where
  inputs := (applyResult_ret_inputs t v).trans h.inputs
  events := (applyResult_ret_events t v).trans h.events
  consoleOutput := (applyResult_ret_consoleOutput t v).trans h.consoleOutput
  console := by rw [applyResult_ret_console]; exact h.console

theorem LinePolled.setRunState {t : State} {written : List Byte} (h : LinePolled p s written t) (r : RunState) :
    LinePolled p s written (t.setRunState r) :=
  ⟨h.inputs, h.events, h.consoleOutput, h.console⟩

theorem getlineAttempt_zero (hmaxlen : p.maxlen = 0#32) :
    getlineAttempt p s = .error (.refused .getlineZeroMaxlen) :=
  if_pos hmaxlen

/-- Without Enter the attempt blocks, with the characters so far. -/
theorem getlineAttempt_blocks (hmaxlen : p.maxlen ≠ 0#32) (henter : (pollKeys p s).1.enter = false) :
    getlineAttempt p s = .ok (.block (polledLine p s), polled p s) := by
  rw [getlineAttempt, if_neg hmaxlen]
  exact if_neg (Bool.eq_false_iff.mp henter)

/-- With Enter the attempt writes the line and a NUL at the buffer. -/
theorem getlineAttempt_enters (hmaxlen : p.maxlen ≠ 0#32) (henter : (pollKeys p s).1.enter = true) :
    getlineAttempt p s = (writeBytes ((polledLine p s).chars ++ [0#8]) p.buffer (polled p s)).map
      fun t => (.ret (BitVec.ofNat 32 (polledLine p s).chars.length), t) := by
  rw [getlineAttempt, if_neg hmaxlen]
  exact if_pos henter

/-- With Enter, where every byte of the line and its NUL is reachable, the attempt completes. -/
theorem getlineAttempt_completes (hmaxlen : p.maxlen ≠ 0#32) (henter : (pollKeys p s).1.enter = true)
    (h : s.AccessibleRange p.buffer ((polledLine p s).chars.length + 1)) :
    ∃ t, getlineAttempt p s = .ok (.ret (BitVec.ofNat 32 (polledLine p s).chars.length), t) ∧
      WritesAfter s (polled p s) t p.buffer ((polledLine p s).chars ++ [0#8]) := by
  obtain ⟨hframe, hram⟩ := polled_frame p s
  have hfits := (lineAfter_fits p (pollKeys p s).1 hmaxlen).1
  have hlength : ((polledLine p s).chars ++ [0#8]).length = (polledLine p s).chars.length + 1 := List.length_append
  obtain ⟨t, hwrite, hafter⟩ := writeBytes_after (bs := (polledLine p s).chars ++ [0#8]) hframe hram
    (hlength ▸ hfits.trans p.maxlen.isLt.le) (hlength ▸ h)
  exact ⟨t, by rw [getlineAttempt_enters hmaxlen henter, hwrite]; rfl, hafter⟩

theorem getlineAttempt_outOfRange (hmaxlen : p.maxlen ≠ 0#32) (henter : (pollKeys p s).1.enter = true)
    (h : ¬ s.AccessibleRange p.buffer ((polledLine p s).chars.length + 1)) :
    getlineAttempt p s = .error (.fault .ramOutOfRange) := by
  have hwrite := writeBytes_after_outOfRange (bs := (polledLine p s).chars ++ [0#8]) (polled_frame p s).1
    (by rwa [List.length_append])
  rw [getlineAttempt_enters hmaxlen henter, hwrite]
  rfl

end

/-! ## The first attempt, by ECALL -/

/-- The request of a getline's ECALL (R252). -/
def lineRequest (s : State) : PendingLine := { buffer := s.getReg 10#5, maxlen := s.getReg 11#5, chars := [] }

theorem dispatch_getlineAttempt {s : State} (h : s.getReg 17#5 = 6#32) :
    dispatch s = getlineAttempt (lineRequest s) s :=
  dispatch_getline h

/-- Nothing has been typed yet, so a first attempt takes back nothing. -/
theorem polledLine_lineRequest (s : State) :
    polledLine (lineRequest s) s = { lineRequest s with
      chars := ((pollKeys (lineRequest s) s).1.typed.filter fun b => b != 0#8).take ((s.getReg 11#5).toNat - 1) } := by
  simp [polledLine, lineAfter, lineRequest]

/-- Settles O44: the ECALL's attempt, by whether the keys end the line. -/
theorem getlineSuspendsOrReturnsLine : Obligations.GetlineSuspendsOrReturnsLine := by
  unfold Obligations.GetlineSuspendsOrReturnsLine
  intro s hnumber hmaxlen
  have hdispatch := dispatch_getlineAttempt hnumber
  have hline := congrArg PendingLine.chars (polledLine_lineRequest s)
  refine ⟨fun a rest hset => draw_fst_of_cons _ hset, fun henter => ?blocks, fun henter hwf hreach => ?completes,
    fun henter hreach => ?stops⟩
  case blocks =>
    obtain ⟨hframe, hram⟩ := polled_frame (lineRequest s) s
    have h := linePolled_nil (lineRequest s) s
    refine ⟨_, exec_ecall_ok (hdispatch.trans (getlineAttempt_blocks hmaxlen henter)),
      congrArg some (polledLine_lineRequest s), hframe.pc, hframe.getReg, fun a => congrArg (Memory.read · a) hram,
      ⟨hframe.ramSize, hframe.windows, hframe.decodeErrorCode⟩, hframe.halted, hframe.exitCode, hframe.haltCause,
      h.inputs, h.events, h.consoleOutput, h.console⟩
  case completes =>
    obtain ⟨t, hattempt, hafter⟩ := getlineAttempt_completes (p := lineRequest s) hmaxlen henter (hline ▸ hreach)
    rw [hline] at hattempt hafter
    have h := hafter.linePolled.applyResult_ret
    exact ⟨_, exec_ecall_ok (hdispatch.trans hattempt), hafter.frame.returns _, (hafter.ram hwf).applyResult_ret _,
      (h _).inputs, (h _).events, (h _).consoleOutput, (h _).console⟩
  case stops =>
    exact exec_ecall_fault (hdispatch.trans
      (getlineAttempt_outOfRange (p := lineRequest s) hmaxlen henter (hline ▸ hreach)))

/-! ## The other attempts, by a step in Suspended -/

section
variable {s t : State} {p : PendingLine} (hrun : s.runState = .suspended p)
include hrun

theorem step_of_suspended : step s = stepSuspended p s := by
  rw [step, hrun]

theorem step_of_attempt {r : SysResult} (h : getlineAttempt p s = .ok (r, t)) :
    step s = .next (applyResult r (t.setRunState .running)) := by
  rw [step_of_suspended hrun, stepSuspended, h]
  rfl

theorem step_of_attempt_fault {f : Fault} (h : getlineAttempt p s = .error (.fault f)) : step s = .fault f := by
  rw [step_of_suspended hrun, stepSuspended, h]
  rfl

theorem step_of_attempt_refused {r : Refusal} (h : getlineAttempt p s = .error (.refused r)) : step s = .refused r := by
  rw [step_of_suspended hrun, stepSuspended, h]
  rfl

end

/-- Settles O45: the step's attempt, by whether the keys end the line. -/
theorem suspendedStepCompletesLine : Obligations.SuspendedStepCompletesLine := by
  unfold Obligations.SuspendedStepCompletesLine
  intro s p hrun
  refine ⟨fun hzero => step_of_attempt_refused hrun (getlineAttempt_zero hzero),
    fun a rest hset => draw_fst_of_cons _ hset, fun hmaxlen => ⟨lineAfter_fits p (pollKeys p s).1 hmaxlen,
      fun henter hwf hreach => ?completes, fun henter hreach => ?stops, fun henter => ?blocks⟩⟩
  case completes =>
    obtain ⟨t, hattempt, hafter⟩ := getlineAttempt_completes hmaxlen henter hreach
    have h := (hafter.linePolled.setRunState .running).applyResult_ret (BitVec.ofNat 32 (polledLine p s).chars.length)
    have hreturns := (hafter.frame.setRunState .running).returns (BitVec.ofNat 32 (polledLine p s).chars.length)
    obtain ⟨hramSize, hwindows, hcode⟩ := hreturns.map
    have hengine := hreturns.engine
    exact ⟨_, step_of_attempt hrun hattempt, ((hafter.ram hwf).setRunState .running).applyResult_ret _,
      hreturns.result, hreturns.regs, hreturns.pc, hengine.runState, hengine.halted, hengine.exitCode,
      hengine.haltCause, ⟨hramSize, hwindows, hcode⟩, h.inputs, h.events, h.consoleOutput, h.console⟩
  case stops => exact step_of_attempt_fault hrun (getlineAttempt_outOfRange hmaxlen henter hreach)
  case blocks =>
    obtain ⟨hframe, hram⟩ := polled_frame p s
    have h := linePolled_nil p s
    exact ⟨_, step_of_attempt hrun (getlineAttempt_blocks hmaxlen henter), rfl, hframe.pc, hframe.getReg,
      fun a => congrArg (Memory.read · a) hram, hframe.halted, hframe.exitCode, hframe.haltCause,
      ⟨hframe.ramSize, hframe.windows, hframe.decodeErrorCode⟩, h.inputs, h.events, h.consoleOutput, h.console⟩

end Sys2Proof.Machine
end
